-- ==== Sys2Proof/Config.lean ====
section
/-! DEFINITION. What an implementation fixes: the parameters `00_scope.md` R7 gives a default to, the types of the
parameters R8 leaves open (the platform, plain data), and the free values that stand for the spec's `draw`. -/

namespace Sys2Proof

/-- The data address generators (`10_state.md` R13). -/
inductive Dag where
  | dag1
  | dag2
  deriving DecidableEq, Repr

/-- The counts and the width of `00_scope.md` R7, each with the value the spec decides on as its default: `N_REG` (D3),
`N_DREG` (D16) and `ADD_W` (D5). -/
structure Config.Counts where
  nReg : Nat := 16
  nDreg : Nat := 16
  addW : Nat := 32

/-- The model's counts and width: the defaults of R7. -/
abbrev Config.counts : Config.Counts := {}

/-- The roles of register numbers of `00_scope.md` R7, each with the value the spec decides on as its default: `dagOf(n)`
(D3), `BR_REG` (D12), the index register of each DAG that bit-reverse mode applies to, and `OVF_REG` (D26), the one whose
wrap is reported as overflow. -/
structure Config.Roles where
  dagOf : Fin Config.counts.nReg → Dag := fun n => if n.val ≤ 7 then .dag1 else .dag2
  brReg : Dag → Fin Config.counts.nReg := fun d =>
    match d with
    | .dag1 => 0
    | .dag2 => 8
  ovfReg : Dag → Fin Config.counts.nReg := fun d =>
    match d with
    | .dag1 => 7
    | .dag2 => 15

/-- The model's roles: the defaults of R7. -/
abbrev Config.roles : Config.Roles := {}

/-- The word classes of `20_memory.md` R38, and `notData` for an address that names no data word (R42). -/
inductive WordClass where
  | short16
  | normal32
  | ext40
  | long64
  | notData
  deriving DecidableEq, Repr, Inhabited

/-- A run of addresses of one word class, as the platform lays it out: the open parameters `wordClass`, `admits` and
`lwAlias` of `00_scope.md` R8. The word at address `base + k` occupies the storage bytes from
`origin + k * (bytes of a word)` on; regions whose storage overlaps are aliases of each other (`20_memory.md` R41). -/
structure Region where
  base : Nat
  size : Nat
  cls : WordClass
  dm : Bool
  pm : Bool
  origin : Nat
  deriving DecidableEq, Repr, Inhabited

/-- A run of storage bytes. -/
structure Extent where
  start : Nat
  len : Nat
  deriving DecidableEq, Repr, Inhabited

/-- `immModWidth(form)`, the width in bits of the immediate of each form that has one (`30_encoding.md` R64). -/
structure ImmWidths where
  loadPost : Nat
  storePost : Nat
  loadPre : Nat
  storePre : Nat
  modify : Nat
  bitrev : Nat
  loadImm : Nat
  deriving DecidableEq, Repr, Inhabited

/-- The open parameters of `00_scope.md` R8 and 92_eei_decisions.md, as plain data. `text` is the storage that holds
program text (`20_memory.md` R57), `shared` the storage another agent may write (R53), `interrupts` the flag
"interrupts may occur" (`60_exceptions.md` R125). -/
structure Platform where
  map : List Region
  text : List Extent
  shared : List Extent
  immWidth : ImmWidths
  interrupts : Bool
  deriving DecidableEq, Repr, Inhabited

/-- The kinds of interrupt entry (`60_exceptions.md` R125). -/
inductive IrqKind where
  | external
  | timer
  | vectored
  | other
  deriving DecidableEq, Repr

/-- The machine's platform, which the spec leaves open (`00_scope.md` R8): it has no body, so a claim that holds of a run
from reset holds for every word class map, every admitted set, every alias and every immediate width (log entry 7). -/
opaque Config.openPlatform : Platform

/-- The k-th free bit: the choice of a two-valued `draw` (`00_scope.md` R11). It has no body: a claim that holds for
it holds for every choice (log entry 16). -/
opaque Config.freeBit : Nat → Bool

/-- The k-th free word: the choice of a `draw` over the values of a word (`20_memory.md` R53; log entry 16). -/
opaque Config.freeWord : Nat → BitVec 64

/-- The k-th free arrival: which interrupt, if any, arrives between two instructions (`60_exceptions.md` R125; log entry
17). It has no body: a claim that holds for it holds for every arrival. -/
opaque Config.freeArrival : Nat → Option IrqKind

end Sys2Proof
end

