-- ==== Sys2Proof/Word.lean ====
section
/-! DEFINITION. The value types of the machine: words, data registers, long words, bytes, register numbers. -/

namespace Sys2Proof

/-- A 32-bit address or DAG register value (`10_state.md` R15). -/
abbrev Word := BitVec 32

/-- A 40-bit data register value (`10_state.md` R31). -/
abbrev Data := BitVec 40

/-- A 64-bit long word, or the value a 64-bit data bus carries (`20_memory.md` R46). -/
abbrev Long := BitVec 64

/-- One byte of storage or of program text. -/
abbrev Byte := BitVec 8

/-- The number of a DAG register of one kind (`10_state.md` R16; `N_REG` of `00_scope.md` R7). -/
abbrev RegNum := Fin Config.counts.nReg

/-- The number of a data register of one processing element (`10_state.md` R29; `N_DREG` of `00_scope.md` R7). -/
abbrev DregNum := Fin Config.counts.nDreg

end Sys2Proof
end

