-- ==== Sys2Proof/Syntax.lean ====
section
/-! DEFINITION. The instruction forms of `30_encoding.md` R66 as terms: one constructor of `Instr` per row of
spec/opcode_table.json, with the operand classes of R61 to R65. -/

namespace Sys2Proof

/-- The buses data moves over (`20_memory.md` R37). -/
inductive Bus where
  | dm
  | pm
  deriving DecidableEq, Repr

/-- The kinds of DAG register: index, modify, length, base (`10_state.md` R14). -/
inductive DagKind where
  | i
  | m
  | l
  | b
  deriving DecidableEq, Repr

/-- A register file data register: R of PEx or S of PEy (`10_state.md` R28). -/
inductive DataReg where
  | r (x : DregNum)
  | s (x : DregNum)
  deriving DecidableEq, Repr

/-- The system registers the spec names (`30_encoding.md` R63). -/
inductive SysReg where
  | mode1
  | mmask
  | stkyx
  | stkyy
  deriving DecidableEq, Repr

/-- A universal register (`10_state.md` R30). The system registers stand here so that a transfer that names one is
refused by name and not by the grammar. -/
inductive Ureg where
  | dag (k : DagKind) (n : RegNum)
  | data (d : DataReg)
  | sys (q : SysReg)
  deriving DecidableEq, Repr

/-- Post-modify or pre-modify addressing (`40_address_output_modify.md` R72, R73). -/
inductive AddrMode where
  | post
  | pre
  deriving DecidableEq, Repr

/-- The modify value's operand: an M register or an immediate (`30_encoding.md` R62, R64). An immediate is a
mathematical integer. -/
inductive Modifier where
  | reg (b : RegNum)
  | imm (v : Int)
  deriving DecidableEq, Repr

/-- The direction of a memory access. -/
inductive Dir where
  | load
  | store
  deriving DecidableEq, Repr

/-- One side of a dual move as written (`40_address_output_modify.md` R82). The variants the model refuses
(`dualMoveVariant`) are terms too. -/
structure Access where
  dir : Dir
  reg : Ureg
  mode : AddrMode
  idx : RegNum
  modifier : Modifier
  deriving DecidableEq, Repr

/-- A condition, known by its name alone: the spec lists none (`30_encoding.md` R65). A name is one letter and then
any number of letters, each a number 0 (A) to 25 (Z). -/
structure Cond where
  head : Fin 26
  tail : List (Fin 26)
  deriving DecidableEq, Repr

/-- The instruction forms, in the order of spec/opcode_table.json. -/
inductive Instr where
  | loadPostM (u : Ureg) (bus : Bus) (ia mb : RegNum)
  | storePostM (bus : Bus) (ia mb : RegNum) (u : Ureg)
  | loadPostImm (u : Ureg) (bus : Bus) (ia : RegNum) (imm : Int)
  | storePostImm (bus : Bus) (ia : RegNum) (imm : Int) (u : Ureg)
  | loadPreM (u : Ureg) (bus : Bus) (mb ia : RegNum)
  | storePreM (bus : Bus) (mb ia : RegNum) (u : Ureg)
  | loadPreImm (u : Ureg) (bus : Bus) (imm : Int) (ia : RegNum)
  | storePreImm (bus : Bus) (imm : Int) (ia : RegNum) (u : Ureg)
  | dualMove (x y : Access)
  | modifyM (ia mb : RegNum)
  | modifyImm (ia : RegNum) (imm : Int)
  | jumpIndirect (md ic : RegNum)
  | pushSts
  | bitrevImm (ia : RegNum) (imm : Int)
  | dagregLoadImm (k : DagKind) (n : RegNum) (imm : Int)
  | uregMove (cond : Option Cond) (dst src : Ureg)
  deriving DecidableEq, Repr

/-- The named one-bit fields of the system registers (`10_state.md` R22 to R24, R26). -/
inductive SysField where
  | mode1Cbufen
  | mode1Bdcst1
  | mode1Bdcst9
  | mode1Peyen
  | mode1Br0
  | mode1Br8
  | mmaskCbufen
  | stkyxCb7s
  | stkyxCb15s
  deriving DecidableEq, Repr

/-- One statement of the program text: an instruction form, an instruction form that carries a condition
(`30_encoding.md` R65), or the abstract field write `SetField(reg.f, b)` of `10_state.md` R27, which stands for whatever
instruction the program uses and is no row of the opcode table. -/
inductive Statement where
  | instr (i : Instr)
  | cond (c : Cond) (i : Instr)
  | setField (f : SysField) (b : Bool)
  deriving DecidableEq, Repr

/-- The statement of an instruction that carries a condition (`30_encoding.md` R65). A register move has the condition among
its own operands (R114 to R117). -/
def Instr.under (c : Cond) : Instr → Statement
  | .uregMove _ dst src => .instr (.uregMove (some c) dst src)
  | i => .cond c i

end Sys2Proof
end

