-- ==== Sys2Proof/Machine/State.lean ====
section
/-! DEFINITION. The machine's state as plain data, the reasons a step can stop, and the state after chip reset. -/

namespace Sys2Proof.Machine

/-- The reasons the machine stops. The hardware itself has no fault (`60_exceptions.md` R123); these are the model's
own, each safe: the model stops where the chip does something the spec does not give. -/
inductive Fault where
  /-- Raised by every load and store: the platform does not admit the access, which has no step
  (`20_memory.md` R52). Safe. -/
  | notAdmitted (bus : Bus) (adr : Word)
  /-- Raised by every load: a byte of the word read has not been written since reset and so holds no value
  (`10_state.md` R36, `70_reset_and_hazards.md` R136). Safe. -/
  | unwrittenMemory (adr : Word)
  /-- Raised by the step: the program text has no statement at the program counter (`10_state.md` R33). Safe. -/
  | noStatement
  deriving DecidableEq, Repr

/-- The reasons the model gives an instruction no meaning: `refuse(reason)` of `00_scope.md` R12, listed in
93_implementation_defined.md part 1b. Each is safe: nothing can be proved of a run beyond it. -/
inductive Refusal where
  /-- Raised by `exec` alone, for an instruction that has no meaning in this model yet. Safe. -/
  | notModelled (mnemonic : String)
  /-- Raised by the step for text that is no form of R66, and by UREG.MOVE for operands of no stated class (R67). Safe. -/
  | unknownInstruction
  /-- Raised by every form with a memory operand or a modifier: the registers are of the wrong DAG (R71). Safe. -/
  | wrongDag
  /-- Raised by every form with an immediate: it does not fit `immModWidth(form)` (R64). Safe. -/
  | immediateTooWide
  /-- Raised by the pre-modify forms when circular buffering is in force for the index register (R73, R95). Safe. -/
  | preModifyOnCircularIndex
  /-- Raised by the circular update: a length of 2^31 or more (R90, R93). Safe. -/
  | lengthNotPositive
  /-- Raised by the circular update: the buffer runs past the address space (R88, R90). Safe. -/
  | bufferPastTopOfSpace
  /-- Raised by the circular update: the index is outside its buffer (R90, R94). Safe. -/
  | indexOutsideBuffer
  /-- Raised by the circular update: the once-corrected value is outside the buffer (R90, R94). Safe. -/
  | stepTooLong
  /-- Raised by the post-modify forms: bit-reverse mode and circular buffering on one index register (R102). Safe. -/
  | bitReverseWithCircular
  /-- Raised by BITREV on an index register with a non-zero length (R103). Safe. -/
  | bitrevOnCircularIndex
  /-- Raised by every load, store and dual move in SIMD mode (R85, R111). Safe. -/
  | simdMemoryAccess
  /-- Raised by a broadcast load that names an S register (R111). Safe. -/
  | broadcastToSReg
  /-- Raised by a dual move that loads one register twice (R82). Safe. -/
  | dualLoadSameDest
  /-- Raised by a dual move whose accesses touch the same storage, one of them a store (R54, R82). Safe. -/
  | dualSameStorage
  /-- Raised by a dual move with a side that is not post-modify by an M register of a data register (R82). Safe. -/
  | dualMoveVariant
  /-- Raised by a load or store at a short word address (R85, R122). Safe. -/
  | shortWordDataPath
  /-- Raised by a transfer of a universal register that is neither a DAG nor a data register (R30, R85). Safe. -/
  | uregNotModelled
  /-- Raised by UREG.MOVE with an S register operand while SIMD mode is disabled (R114). Safe. -/
  | sRegInSisdMove
  /-- Raised by the two shapes of restriction class 2 (R85, R141). Safe. -/
  | hazardClass2
  /-- Raised by JUMP.INDIRECT (R86). Safe. -/
  | controlTransferNotInSource
  /-- Raised by a store to storage that holds program text (R57). Safe. -/
  | storeToProgramText
  deriving DecidableEq, Repr

/-- What a meaning or an operation answers. -/
abbrev Res (α : Type) := Host.Outcome α Fault Refusal

/-- The one-bit fields of MODE1 (`10_state.md` R22, R26). -/
structure Mode1 where
  cbufen : Bool
  bdcst1 : Bool
  bdcst9 : Bool
  peyen : Bool
  br0 : Bool
  br8 : Bool
  deriving DecidableEq, Repr

/-- The circular buffer overflow status bits, which STKYx alone holds (`10_state.md` R24). -/
structure StkyX where
  cb7s : Bool
  cb15s : Bool
  deriving DecidableEq, Repr

/-- The pending interrupt requests of circular buffer overflow, which nothing in the model consumes
(`60_exceptions.md` R125, R127). -/
structure IrqLatch where
  cb7i : Bool
  cb15i : Bool
  deriving DecidableEq, Repr

/-- Memory: the storage bytes that have been written, each with its value, by rising address. A byte that is not listed
holds no value. -/
abbrev Memory := List Host.Cell

/-- The canonical form of memory: addresses strictly rising. -/
abbrev Memory.wf (m : Memory) : Prop := m.Pairwise (fun c d => c.1 < d.1)

/-- The state. The fields from `program` on are the parameters and inputs the spec gives the model, and the model's own
counter of free values. -/
structure State where
  /-- I0 to I15 (`10_state.md` R14). -/
  iReg : Vector Word Config.counts.nReg
  /-- M0 to M15. -/
  mReg : Vector Word Config.counts.nReg
  /-- L0 to L15. -/
  lReg : Vector Word Config.counts.nReg
  /-- B0 to B15. -/
  bReg : Vector Word Config.counts.nReg
  /-- R0 to R15 of PEx (`10_state.md` R28). -/
  rReg : Vector Data Config.counts.nDreg
  /-- S0 to S15 of PEy. -/
  sReg : Vector Data Config.counts.nDreg
  /-- MODE1 (`10_state.md` R22). -/
  mode1 : Mode1
  /-- MMASK.CBUFEN (`10_state.md` R23). -/
  mmaskCbufen : Bool
  /-- STKYx (`10_state.md` R24). -/
  stkyx : StkyX
  /-- STKYy, no bit of which the spec gives a meaning; no DAG writes it (`41_circular_buffer.md` R99). -/
  stkyy : BitVec 32
  /-- The latched requests CB7I and CB15I (`60_exceptions.md` R125). -/
  latch : IrqLatch
  /-- The index of the current statement of the program text (`10_state.md` R33). -/
  pc : Nat
  /-- Memory (`20_memory.md` R46). -/
  mem : Memory
  /-- The program text, a list of statements (`20_memory.md` R57). No step writes it. -/
  program : List (List Byte)
  /-- The open parameters (`00_scope.md` R8). No step writes them. -/
  platform : Platform
  /-- The interrupt schedule: the head says what arrives before the next instruction, and where it is empty the arrival is
  free (`60_exceptions.md` R125). -/
  events : List (Option IrqKind)
  /-- The outcomes condX, condY of the conditions to come (`30_encoding.md` R65). -/
  condIn : List (Bool × Bool)
  /-- How many free values have been drawn (`00_scope.md` R11). -/
  draws : Nat
  deriving DecidableEq, Repr

/-- The state after chip reset (`10_state.md` R36). BDCST1 and BDCST9 are the spec's; the other values are named in the
log entries 1 to 7, 10 and 15 to 17. -/
def State.reset : State where
  iReg := Vector.replicate _ 0
  mReg := Vector.replicate _ 0
  lReg := Vector.replicate _ 0
  bReg := Vector.replicate _ 0
  rReg := Vector.replicate _ 0
  sReg := Vector.replicate _ 0
  mode1 := { cbufen := false, bdcst1 := false, bdcst9 := false, peyen := false, br0 := false, br8 := false }
  mmaskCbufen := false
  stkyx := { cb7s := false, cb15s := false }
  stkyy := 0
  latch := { cb7i := false, cb15i := false }
  pc := 0
  mem := []
  program := []
  platform := Config.openPlatform
  events := []
  condIn := []
  draws := 0

end Sys2Proof.Machine
end

