-- ==== Sys2Proof/Machine/Operands.lean ====
section
/-! DEFINITION. Register numbers, bit fields and operand forms: which DAG owns a register, register pairs, the parts
of a data register, bit reversal, immediates and modify values. -/

namespace Sys2Proof.Machine

/-- The next state of a chain of operations: go on with `f` where `o` answers one, stop as `o` stops. -/
def andThen {α β : Type} (o : Res α) (f : α → Res β) : Res β :=
  match o with
  | .next a => f a
  | .fault r => .fault r
  | .refused r => .refused r

/-- Go on where `c` holds, refuse by name otherwise (`00_scope.md` R12). -/
def require (c : Bool) (r : Refusal) : Res Unit :=
  if c then .next () else .refused r

/-- The DAG that owns register number n (`10_state.md` R16; `dagOf` of `00_scope.md` R7). -/
def dagOf (n : RegNum) : Dag :=
  Config.roles.dagOf n

/-- The DAG that serves a bus (`10_state.md` R13). -/
def dagOfBus : Bus → Dag
  | .dm => .dag1
  | .pm => .dag2

/-- The other register of the pair 2k, 2k+1 (`10_state.md` R20). -/
def pairOf (n : RegNum) : RegNum :=
  ⟨if n.val % 2 = 0 then n.val + 1 else n.val - 1, by
    have h : n.val < 16 := n.isLt
    show _ < 16
    split <;> omega⟩

/-- The other data register of the pair 2k, 2k+1 (`92_eei_decisions.md` D16). -/
def dataPairOf (x : DregNum) : DregNum :=
  ⟨if x.val % 2 = 0 then x.val + 1 else x.val - 1, by
    have h : x.val < 16 := x.isLt
    show _ < 16
    split <;> omega⟩

/-- The sum of the index adder, of width `ADD_W` (`00_scope.md` R7, D5): `a +32 m` of the rules. -/
def addIndex (a m : Word) : Word :=
  BitVec.ofNat 32 ((a.toNat + m.toNat) % 2 ^ Config.counts.addW)

/-- Bits 39:8 of a data register (`10_state.md` R31). -/
def hi32 (d : Data) : Word :=
  d.extractLsb' 8 32

/-- A data register with `hi32 = v` and `lo8 = 0` (`10_state.md` R31). -/
def widen (v : Word) : Data :=
  v ++ (0 : BitVec 8)

/-- The two's complement value of a modify value (`00_scope.md` R10). -/
def sval (m : Word) : Int :=
  m.toInt

/-- The value whose bit i is bit 31 - i of v (`42_bit_reversal.md` R101). -/
def rev32 (v : Word) : Word :=
  v.reverse

/-- An immediate fits a width as a two's complement number (`30_encoding.md` R64): -2^w ≤ 2v < 2^w. -/
def immFits (w : Nat) (v : Int) : Bool :=
  decide (-(2 ^ w : Int) ≤ 2 * v ∧ 2 * v < (2 ^ w : Int))

/-- The 32 bits of a sign-extended immediate (`30_encoding.md` R64, R71). R64 leaves the width of a form open, and a width
above 32 has no sign extension to 32 bits: that a fitting immediate of such a form gives its low 32 bits is a DESIGN CHOICE
(log entry 41). -/
def immWord (v : Int) : Word :=
  BitVec.ofInt 32 v

/-- The immediate's 32 bits, where it fits the form's width `w` (`30_encoding.md` R64). -/
def immediate (w : Nat) (v : Int) : Res Word :=
  andThen (require (immFits w v) .immediateTooWide) fun _ => .next (immWord v)

/-- The index register is one of the bus's DAG (`40_address_output_modify.md` R71). -/
def indexOnBus (bus : Bus) (ia : RegNum) : Res Unit :=
  require (decide (dagOf ia = dagOfBus bus)) .wrongDag

/-- The modify value for index register `ia`: M[b] of the same DAG, or an immediate that fits the width `w` of the form
(`40_address_output_modify.md` R71). -/
def modifyValue (s : State) (w : Nat) (ia : RegNum) : Modifier → Res Word
  | .reg b => andThen (require (decide (dagOf b = dagOf ia)) .wrongDag) fun _ => .next s.mReg[b]
  | .imm v => immediate w v

/-- The modify value of a memory operand on a bus (`40_address_output_modify.md` R71). -/
def operand (s : State) (bus : Bus) (ia : RegNum) (w : Nat) (md : Modifier) : Res Word :=
  andThen (indexOnBus bus ia) fun _ => modifyValue s w ia md

end Sys2Proof.Machine
end

