-- ==== Sys2Proof/Machine/Ops.lean ====
section
/-! DEFINITION. The named operations over registers, memory and the platform, and interrupt entry. -/

namespace Sys2Proof.Machine

/-! ## Registers -/

/-- The value of DAG register K[n] (`00_scope.md` R11). -/
def readDag (s : State) (k : DagKind) (n : RegNum) : Word :=
  match k with
  | .i => s.iReg[n]
  | .m => s.mReg[n]
  | .l => s.lReg[n]
  | .b => s.bReg[n]

/-- K[n] <- v. A write of B[n] writes I[n] as well (`10_state.md` R19). -/
def writeDag (s : State) (k : DagKind) (n : RegNum) (v : Word) : State :=
  match k with
  | .i => { s with iReg := s.iReg.set n v }
  | .m => { s with mReg := s.mReg.set n v }
  | .l => { s with lReg := s.lReg.set n v }
  | .b => { s with bReg := s.bReg.set n v, iReg := s.iReg.set n v }

/-- The value of a data register. -/
def readData (s : State) (d : DataReg) : Data :=
  match d with
  | .r x => s.rReg[x]
  | .s x => s.sReg[x]

/-- A data register <- v. -/
def writeData (s : State) (d : DataReg) (v : Data) : State :=
  match d with
  | .r x => { s with rReg := s.rReg.set x v }
  | .s x => { s with sReg := s.sReg.set x v }

/-- The other data register of a pair (`92_eei_decisions.md` D16). -/
def dataPair : DataReg → DataReg
  | .r x => .r (dataPairOf x)
  | .s x => .s (dataPairOf x)

/-- Writes in order, the last of them winning. -/
def writeAll (s : State) : List (DataReg × Data) → State
  | [] => s
  | (d, v) :: ws => writeAll (writeData s d v) ws

/-- The program counter goes on to the next statement (`10_state.md` R33). -/
def advance (s : State) : State :=
  { s with pc := s.pc + 1 }

/-- SetField(reg.f, b) (`10_state.md` R27). -/
def setField (f : SysField) (b : Bool) (s : State) : State :=
  match f with
  | .mode1Cbufen => { s with mode1 := { s.mode1 with cbufen := b } }
  | .mode1Bdcst1 => { s with mode1 := { s.mode1 with bdcst1 := b } }
  | .mode1Bdcst9 => { s with mode1 := { s.mode1 with bdcst9 := b } }
  | .mode1Peyen => { s with mode1 := { s.mode1 with peyen := b } }
  | .mode1Br0 => { s with mode1 := { s.mode1 with br0 := b } }
  | .mode1Br8 => { s with mode1 := { s.mode1 with br8 := b } }
  | .mmaskCbufen => { s with mmaskCbufen := b }
  | .stkyxCb7s => { s with stkyx := { s.stkyx with cb7s := b } }
  | .stkyxCb15s => { s with stkyx := { s.stkyx with cb15s := b } }

/-- The value of a named field. -/
def getField (f : SysField) (s : State) : Bool :=
  match f with
  | .mode1Cbufen => s.mode1.cbufen
  | .mode1Bdcst1 => s.mode1.bdcst1
  | .mode1Bdcst9 => s.mode1.bdcst9
  | .mode1Peyen => s.mode1.peyen
  | .mode1Br0 => s.mode1.br0
  | .mode1Br8 => s.mode1.br8
  | .mmaskCbufen => s.mmaskCbufen
  | .stkyxCb7s => s.stkyx.cb7s
  | .stkyxCb15s => s.stkyx.cb15s

/-! ## Memory: one byte -/

/-- The byte at a storage address, where one has been written. -/
def readByte : Memory → Nat → Option Byte
  | [], _ => none
  | (k, v) :: m, a => if a = k then some v else if a < k then none else readByte m a

/-- The byte at a storage address <- v, in canonical form. -/
def writeByte : Memory → Nat → Byte → Memory
  | [], a, v => [(a, v)]
  | (k, w) :: m, a, v =>
    if a = k then (a, v) :: m
    else if a < k then (a, v) :: (k, w) :: m
    else (k, w) :: writeByte m a v

/-- The n bytes from `a` on as one number, the first the least significant (log entry 8). -/
def readBytes (m : Memory) (a : Nat) : Nat → Option Nat
  | 0 => some 0
  | n + 1 =>
    match readByte m a, readBytes m (a + 1) n with
    | some b, some r => some (b.toNat + 256 * r)
    | _, _ => none

/-- The n bytes from `a` on <- the low n bytes of v, the least significant first (log entry 8). -/
def writeBytes (m : Memory) (a : Nat) : Nat → Nat → Memory
  | 0, _ => m
  | n + 1, v => writeBytes (writeByte m a (BitVec.ofNat 8 v)) (a + 1) n (v / 256)

/-! ## The platform -/

/-- The bytes a word of a class occupies (`20_memory.md` R38, R46). -/
def wordBytes : WordClass → Nat
  | .short16 => 2
  | .normal32 => 4
  | .ext40 => 5
  | .long64 => 8
  | .notData => 0

/-- A region that holds an address. -/
def holds (a : Word) (r : Region) : Bool :=
  decide (r.base ≤ a.toNat) && decide (a.toNat < r.base + r.size)

/-- The region of an address: the first of the map that holds it. -/
def regionOf (p : Platform) (a : Word) : Option Region :=
  p.map.find? (holds a)

/-- `wordClass` (`20_memory.md` R42). -/
def wordClass (p : Platform) (a : Word) : WordClass :=
  match regionOf p a with
  | some r => r.cls
  | none => .notData

/-- A region reached from a bus. -/
def reachable (bus : Bus) (r : Region) : Bool :=
  match bus with
  | .dm => r.dm
  | .pm => r.pm

/-- `admits(bus, addr, wordClass(addr))` (`20_memory.md` R50, R52): the address names a data word its region lets the
bus reach. -/
def admits (p : Platform) (bus : Bus) (a : Word) : Bool :=
  match regionOf p a with
  | some r => reachable bus r && decide (r.cls ≠ .notData)
  | none => false

/-- The storage of one word: its class and its first byte. -/
structure Place where
  cls : WordClass
  start : Nat
  deriving DecidableEq, Repr

/-- The bytes of a place. -/
def placeBytes (pl : Place) : Nat :=
  wordBytes pl.cls

/-- The storage of the word a region names at an address (`20_memory.md` R41: `lwAlias`). -/
def placeIn (r : Region) (a : Word) : Place :=
  { cls := r.cls, start := r.origin + (a.toNat - r.base) * wordBytes r.cls }

/-- The storage an access reaches; an access not admitted is stuck (`20_memory.md` R52). -/
def place (p : Platform) (bus : Bus) (a : Word) : Res Place :=
  match admits p bus a, regionOf p a with
  | true, some r => .next (placeIn r a)
  | _, _ => .fault (.notAdmitted bus a)

/-- Two runs of storage bytes share a byte. -/
def overlap (a n b k : Nat) : Bool :=
  decide (a < b + k) && decide (b < a + n) && decide (0 < n) && decide (0 < k)

/-- A place touches one of some extents of storage. -/
def touches (pl : Place) (es : List Extent) : Bool :=
  es.any (fun e => overlap pl.start (placeBytes pl) e.start e.len)

/-- Two places share storage (`20_memory.md` R54). -/
def samePlace (a b : Place) : Bool :=
  overlap a.start (placeBytes a) b.start (placeBytes b)

/-! ## Memory: one word -/

/-- A free long word, low bits first, for a `draw` over the values of a word of a place. -/
def freeValue (s : State) (pl : Place) : Long :=
  BitVec.ofNat 64 ((Config.freeWord s.draws).toNat % 256 ^ placeBytes pl)

/-- `MemRead` (`20_memory.md` R46): the word at a place, in the low bits. A load from storage another agent may write
is a draw (R53); a byte nothing has written has no value (`10_state.md` R36). -/
def memRead (s : State) (a : Word) (pl : Place) : Res (Long × State) :=
  if touches pl s.platform.shared then .next (freeValue s pl, { s with draws := s.draws + 1 })
  else
    match readBytes s.mem pl.start (placeBytes pl) with
    | some v => .next (BitVec.ofNat 64 v, s)
    | none => .fault (.unwrittenMemory a)

/-- `MemWrite` (`20_memory.md` R46). A store to storage that holds program text is refused (R57). -/
def memWrite (s : State) (pl : Place) (v : Long) : Res State :=
  andThen (require (!touches pl s.platform.text) .storeToProgramText) fun _ =>
    .next { s with mem := writeBytes s.mem pl.start (placeBytes pl) v.toNat }

/-! ## The status push and interrupt entry -/

/-- `draw({old, 0})` over a field, by the k-th free bit from the counter on (`41_circular_buffer.md` R98). -/
def keepOrClear (s : State) (k : Nat) (old : Bool) : Bool :=
  old && Config.freeBit (s.draws + k)

/-- What PUSH STS and interrupt entry do to the MODE1 fields other than CBUFEN: each keeps its value or is cleared
(`41_circular_buffer.md` R98, `60_exceptions.md` R126). `cb` is what CBUFEN becomes. -/
def pushMode (s : State) (cb : Bool) : State :=
  { s with
    mode1 :=
      { cbufen := cb
        bdcst1 := keepOrClear s 0 s.mode1.bdcst1
        bdcst9 := keepOrClear s 1 s.mode1.bdcst9
        peyen := keepOrClear s 2 s.mode1.peyen
        br0 := keepOrClear s 3 s.mode1.br0
        br8 := keepOrClear s 4 s.mode1.br8 }
    draws := s.draws + 6 }

/-- CBUFEN after a status PUSH or the entry of a listed interrupt: cleared where MMASK.CBUFEN is set (R98, R126). -/
def maskedCbufen (s : State) : Bool :=
  s.mode1.cbufen && !s.mmaskCbufen

/-- IrqEntry(kind) (`60_exceptions.md` R126), the one effect of interrupt entry the spec gives. -/
def irqEntry (kind : IrqKind) (s : State) : State :=
  match kind with
  | .external => pushMode s (maskedCbufen s)
  | .timer => pushMode s (maskedCbufen s)
  | .vectored => pushMode s (maskedCbufen s)
  | .other => pushMode s (if s.mmaskCbufen then keepOrClear s 5 s.mode1.cbufen else s.mode1.cbufen)

/-! ## The environment -/

/-- An arrival, where the platform lets interrupts occur at all (`60_exceptions.md` R125). -/
def allowed (s : State) (e : Option IrqKind) : Option IrqKind :=
  if s.platform.interrupts then e else none

/-- The interrupt that arrives before the next instruction: the head of the schedule, or a free arrival where the schedule
is empty, since R125 of `60_exceptions.md` lets one occur between any two instructions (log entry 17). -/
def arriving (s : State) : Option IrqKind :=
  match s.events with
  | [] => allowed s (Config.freeArrival s.draws)
  | none :: _ => none
  | some kind :: _ => allowed s (some kind)

/-- The state with the arrival consumed: the head of the schedule, or the draw of a free arrival. -/
def popEvent (s : State) : State :=
  match s.events with
  | [] => if s.platform.interrupts then { s with draws := s.draws + 1 } else s
  | _ :: es => { s with events := es }

/-- The outcome of a condition in PEx and in PEy (`30_encoding.md` R65, D33): both true where no condition is written,
else the next input, or two draws where none is given. -/
def condOutcome (s : State) : Option Cond → Bool × Bool
  | none => (true, true)
  | some _ =>
    match s.condIn with
    | c :: _ => c
    | [] => (Config.freeBit s.draws, Config.freeBit (s.draws + 1))

/-- The state with the outcome of a condition consumed. -/
def popCond (s : State) : Option Cond → State
  | none => s
  | some _ =>
    match s.condIn with
    | _ :: cs => { s with condIn := cs }
    | [] => { s with draws := s.draws + 2 }

/-- The processing elements disagree about an instruction that both would carry out: SIMD mode is enabled and their
outcomes differ. -/
def disagree (s : State) (o : Bool × Bool) : Bool :=
  s.mode1.peyen && o.1 != o.2

/-- An instruction that writes no processing element's own register goes ahead under the outcomes o: with SIMD mode disabled
condX alone decides (`92_eei_decisions.md` D33), with it enabled the common outcome, and where the two differ a free bit,
since the spec does not say whose outcome counts (log entry 44). -/
def goesAhead (s : State) (o : Bool × Bool) : Bool :=
  if disagree s o then Config.freeBit s.draws else o.1

/-- The state with the draw of `goesAhead` taken. -/
def popChoice (s : State) (o : Bool × Bool) : State :=
  if disagree s o then { s with draws := s.draws + 1 } else s

/-- The state in which an instruction that carries a condition goes ahead or not. -/
def afterCond (s : State) (c : Cond) : State :=
  popChoice (popCond s (some c)) (condOutcome s (some c))

/-- The instruction that carries the condition goes ahead (`30_encoding.md` R65). -/
def holdsFor (s : State) (c : Cond) : Bool :=
  goesAhead (popCond s (some c)) (condOutcome s (some c))

end Sys2Proof.Machine
end

