-- ==== Sys2Proof/Machine/Control.lean ====
section
/-! DEFINITION. JUMP.INDIRECT (`40_address_output_modify.md` R86) and PUSH.STS (`41_circular_buffer.md` R98). -/

namespace Sys2Proof.Machine

/-- JUMP.INDIRECT (R86): the spec gives the form no meaning. -/
def execJumpIndirect (_md _ic : RegNum) (_s : State) : Res State :=
  .refused .controlTransferNotInSource

/-- PUSH.STS (R98). -/
def execPushSts (s : State) : Res State :=
  .next (advance (pushMode s (maskedCbufen s)))

end Sys2Proof.Machine
end

