-- ==== Sys2Proof/Machine/Flags.lean ====
section
/-! DEFINITION. The overflow status of circular buffering, the only flags the spec names (`10_state.md` R32,
`41_circular_buffer.md` R99). -/

namespace Sys2Proof.Machine

/-- After a load or store has updated I[n]: a wrap of I7 sets STKYx.CB7S and requests CB7I, a wrap of I15 sets
STKYx.CB15S and requests CB15I; a wrap of any other index register sets nothing (`41_circular_buffer.md` R99). -/
def noteOverflow (s : State) (n : RegNum) (wrapped : Bool) : State :=
  if wrapped && decide (n = Config.roles.ovfReg .dag1) then
    { s with stkyx := { s.stkyx with cb7s := true }, latch := { s.latch with cb7i := true } }
  else if wrapped && decide (n = Config.roles.ovfReg .dag2) then
    { s with stkyx := { s.stkyx with cb15s := true }, latch := { s.latch with cb15i := true } }
  else s

/-- `draw({old, 1})`, by the k-th free bit from the counter on. -/
def keepOrSet (s : State) (k : Nat) (old : Bool) : Bool :=
  old || Config.freeBit (s.draws + k)

/-- After MODIFY has updated I[n]: whether a wrap counts as overflow is not known, so the status bit and the request
are each a draw (`41_circular_buffer.md` R99). -/
def noteModifyOverflow (s : State) (n : RegNum) (wrapped : Bool) : State :=
  if wrapped && decide (n = Config.roles.ovfReg .dag1) then
    { s with
      stkyx := { s.stkyx with cb7s := keepOrSet s 0 s.stkyx.cb7s }
      latch := { s.latch with cb7i := keepOrSet s 1 s.latch.cb7i }
      draws := s.draws + 2 }
  else if wrapped && decide (n = Config.roles.ovfReg .dag2) then
    { s with
      stkyx := { s.stkyx with cb15s := keepOrSet s 0 s.stkyx.cb15s }
      latch := { s.latch with cb15i := keepOrSet s 1 s.latch.cb15i }
      draws := s.draws + 2 }
  else s

end Sys2Proof.Machine
end

