-- ==== Sys2Proof/Machine/Address.lean ====
section
/-! DEFINITION. What a DAG computes: the circular update, bit-reversed output, post-modify and pre-modify
(`40_address_output_modify.md` section 1, `41_circular_buffer.md`, `42_bit_reversal.md`). -/

namespace Sys2Proof.Machine

/-- Circular buffering is in force for a load or store through I[n] (`41_circular_buffer.md` R89). -/
def circLS (s : State) (n : RegNum) : Bool :=
  s.mode1.cbufen && decide (s.lReg[n] ≠ 0)

/-- Circular buffering is in force for MODIFY of I[n] (`41_circular_buffer.md` R89, R92). -/
def circMOD (s : State) (n : RegNum) : Bool :=
  decide (s.lReg[n] ≠ 0)

/-- The answer of `Next`: the value written back, and whether it wrapped (`41_circular_buffer.md` R90). -/
structure Update where
  value : Word
  wrapped : Bool
  deriving DecidableEq, Repr

/-- `v` is within the buffer range of `len` addresses from `base` on (`41_circular_buffer.md` R87). -/
def inBuffer (base len v : Int) : Bool :=
  decide (base ≤ v) && decide (v < base + len)

/-- The once-corrected value: the length is subtracted, or, if the modify value is negative, added
(`41_circular_buffer.md` R90). -/
def corrected (base len step t : Int) : Int :=
  if inBuffer base len t then t else if 0 ≤ step then t - len else t + len

/-- The circular update of an index value `cur` by `m`, on unbounded integers (`41_circular_buffer.md` R90). -/
def circularNext (cur base len m : Word) : Res Update :=
  andThen (require (decide (len.toNat < 2 ^ 31)) .lengthNotPositive) fun _ =>
  andThen (require (decide (base.toNat + len.toNat ≤ 2 ^ 32)) .bufferPastTopOfSpace) fun _ =>
  andThen (require (inBuffer base.toNat len.toNat cur.toNat) .indexOutsideBuffer) fun _ =>
  let t : Int := cur.toNat + sval m
  let r : Int := corrected base.toNat len.toNat (sval m) t
  andThen (require (inBuffer base.toNat len.toNat r) .stepTooLong) fun _ =>
  .next { value := BitVec.ofInt 32 r, wrapped := decide (r ≠ t) }

/-- `Next(n, m, circ)` (`41_circular_buffer.md` R90). -/
def nextIndex (s : State) (n : RegNum) (m : Word) (circ : Bool) : Res Update :=
  if circ then circularNext s.iReg[n] s.bReg[n] s.lReg[n] m
  else .next { value := addIndex s.iReg[n] m, wrapped := false }

/-- Bit-reverse mode applies to accesses through I[n] (`42_bit_reversal.md` R102). -/
def bitReversed (s : State) (n : RegNum) : Bool :=
  (decide (n = Config.roles.brReg .dag1) && s.mode1.br0) || (decide (n = Config.roles.brReg .dag2) && s.mode1.br8)

/-- `OutAddr(n, a)` (`42_bit_reversal.md` R102). -/
def outAddr (s : State) (n : RegNum) (a : Word) : Word :=
  if bitReversed s n then rev32 a else a

/-- `PostModify(n, m)` (`40_address_output_modify.md` R72): the address put out and the state with I[n] and the
overflow status updated. -/
def postModify (s : State) (n : RegNum) (m : Word) : Res (Word × State) :=
  andThen (require (!(bitReversed s n && circLS s n)) .bitReverseWithCircular) fun _ =>
  andThen (nextIndex s n m (circLS s n)) fun u =>
  .next (outAddr s n s.iReg[n], noteOverflow (writeDag s .i n u.value) n u.wrapped)

/-- `PreModify(n, m)` (`40_address_output_modify.md` R73): no DAG register is written. -/
def preModify (s : State) (n : RegNum) (m : Word) : Res (Word × State) :=
  andThen (require (!circLS s n) .preModifyOnCircularIndex) fun _ =>
  .next (outAddr s n (addIndex s.iReg[n] m), s)

/-- The address of a memory operand and the state after it is put out. -/
def addressOutput (mode : AddrMode) (s : State) (n : RegNum) (m : Word) : Res (Word × State) :=
  match mode with
  | .post => postModify s n m
  | .pre => preModify s n m

/-- MODIFY of I[a] by m (`40_address_output_modify.md` R83). -/
def modifyIndex (s : State) (a : RegNum) (m : Word) : Res State :=
  andThen (nextIndex s a m (circMOD s a)) fun u =>
  .next (noteModifyOverflow (writeDag s .i a u.value) a u.wrapped)

end Sys2Proof.Machine
end

