-- ==== Sys2Proof/Machine/DataPath.lean ====
section
/-! DEFINITION. The data path of a load or store: `LoadInto` and `StoreFrom` (`40_address_output_modify.md` R85,
`43_broadcast_loads.md`, `44_dag_register_transfers.md` section 4). -/

namespace Sys2Proof.Machine

/-- A data register load through I[n] is broadcast to both processing elements (`43_broadcast_loads.md` R105, R106,
R110). DAG1 serves only the DM bus and DAG2 only the PM bus, so the register number implies the bus; it is checked. -/
def broadcast (s : State) (bus : Bus) (n : RegNum) : Bool :=
  match bus with
  | .dm => decide (n = 1) && s.mode1.bdcst1
  | .pm => decide (n = 9) && s.mode1.bdcst9

/-- The low 32 bits of a long word. -/
def low32 (v : Long) : Word :=
  v.extractLsb' 0 32

/-- The high 32 bits of a long word. -/
def high32 (v : Long) : Word :=
  v.extractLsb' 32 32

/-- What one processing element's registers receive from the word v of class c loaded into d (R85): a 32-bit word goes
to `hi32`, a 40-bit word whole, a long word to d (bits 31:0) and the pair partner (bits 63:32). -/
def laneWrites (c : WordClass) (d : DataReg) (v : Long) : List (DataReg × Data) :=
  match c with
  | .normal32 => [(d, widen (low32 v))]
  | .ext40 => [(d, v.extractLsb' 0 40)]
  | .long64 => [(d, widen (low32 v)), (dataPair d, widen (high32 v))]
  | .short16 => []
  | .notData => []

/-- The data register writes of a load: those of the named register, and under broadcast the same in PEy
(`43_broadcast_loads.md` R105, R109). -/
def loadWrites (c : WordClass) (d : DataReg) (v : Long) (bcast : Bool) : List (DataReg × Data) :=
  match bcast, d with
  | true, .r x => laneWrites c (.r x) v ++ laneWrites c (.s x) v
  | _, d => laneWrites c d v

/-- A DAG register load from the word v of class c (`44_dag_register_transfers.md` R119 to R121). -/
def loadDag (s : State) (c : WordClass) (k : DagKind) (n : RegNum) (v : Long) : State :=
  match c with
  | .normal32 => writeDag s k n (low32 v)
  | .ext40 => writeDag s k n (v.extractLsb' 8 32)
  | .long64 => writeDag (writeDag s k n (low32 v)) k (pairOf n) (high32 v)
  | .short16 => s
  | .notData => s

/-- The word of class c stored from a data register (R85). -/
def dataWord (s : State) (c : WordClass) (d : DataReg) : Long :=
  match c with
  | .normal32 => (hi32 (readData s d)).setWidth 64
  | .ext40 => (readData s d).setWidth 64
  | .long64 => hi32 (readData s (dataPair d)) ++ hi32 (readData s d)
  | .short16 => 0
  | .notData => 0

/-- The word of class c stored from a DAG register (`44_dag_register_transfers.md` R119 to R121). -/
def dagWord (s : State) (c : WordClass) (k : DagKind) (n : RegNum) : Long :=
  match c with
  | .normal32 => (readDag s k n).setWidth 64
  | .ext40 => (widen (readDag s k n)).setWidth 64
  | .long64 => readDag s k (pairOf n) ++ readDag s k n
  | .short16 => 0
  | .notData => 0

/-- The word of class c stored from a universal register, in the state before the instruction (R54, R85). -/
def storeWord (s : State) (c : WordClass) (u : Ureg) : Long :=
  match u with
  | .dag k n => dagWord s c k n
  | .data d => dataWord s c d
  | .sys _ => 0

/-- The operand is a DAG register or a data register (`10_state.md` R30). -/
def isGiven : Ureg → Bool
  | .dag _ _ => true
  | .data _ => true
  | .sys _ => false

/-- The operand is a DAG register of the DAG that owns index register n. -/
def ofDagOf (n : RegNum) : Ureg → Bool
  | .dag _ k => decide (dagOf k = dagOf n)
  | .data _ => false
  | .sys _ => false

/-- The operand is an S register. -/
def isSReg : Ureg → Bool
  | .data (.s _) => true
  | _ => false

/-- The addressing updates the index register. -/
def updates : AddrMode → Bool
  | .post => true
  | .pre => false

/-- What must hold of a load before it puts an address out: SIMD mode disabled (R85, R111), a register the spec gives
(R30), not of restriction class 2 shape (b) (`70_reset_and_hazards.md` R141), and no broadcast to an S register (R111).
The order is that of R85 (log entry 18). -/
def loadGuard (s : State) (mode : AddrMode) (bus : Bus) (ia : RegNum) (u : Ureg) : Res Unit :=
  andThen (require (!s.mode1.peyen) .simdMemoryAccess) fun _ =>
  andThen (require (isGiven u) .uregNotModelled) fun _ =>
  andThen (require (!(updates mode && ofDagOf ia u)) .hazardClass2) fun _ =>
  require (!(broadcast s bus ia && isSReg u)) .broadcastToSReg

/-- What must hold of a store before it puts an address out: SIMD mode disabled (R85, R111), a register the spec gives
(R30), not of restriction class 2 shape (a) (`70_reset_and_hazards.md` R141). -/
def storeGuard (s : State) (ia : RegNum) (u : Ureg) : Res Unit :=
  andThen (require (!s.mode1.peyen) .simdMemoryAccess) fun _ =>
  andThen (require (isGiven u) .uregNotModelled) fun _ =>
  require (!ofDagOf ia u) .hazardClass2

/-- The storage an access reaches, where it is no short word (R85, R122). -/
def dataPlace (p : Platform) (bus : Bus) (adr : Word) : Res Place :=
  andThen (place p bus adr) fun pl =>
  andThen (require (decide (pl.cls ≠ .short16)) .shortWordDataPath) fun _ => .next pl

/-- The state after the word v of class c has been loaded into u. -/
def loadReg (s : State) (c : WordClass) (u : Ureg) (v : Long) (bcast : Bool) : State :=
  match u with
  | .dag k n => loadDag s c k n v
  | .data d => writeAll s (loadWrites c d v bcast)
  | .sys _ => s

/-- `LoadInto(u, bus, n, adr)` (R85). -/
def loadInto (s : State) (u : Ureg) (bus : Bus) (n : RegNum) (adr : Word) : Res State :=
  andThen (dataPlace s.platform bus adr) fun pl =>
  andThen (memRead s adr pl) fun vs =>
  .next (loadReg vs.2 pl.cls u vs.1 (broadcast s bus n))

/-- `StoreFrom(u, bus, n, adr)` (R85): the value is that of `old`, the state before the instruction. -/
def storeFrom (old s : State) (u : Ureg) (bus : Bus) (adr : Word) : Res State :=
  andThen (dataPlace s.platform bus adr) fun pl =>
  memWrite s pl (storeWord old pl.cls u)

/-- A load of any form: `w` is the immediate width of the form. -/
def loadForm (mode : AddrMode) (u : Ureg) (bus : Bus) (ia : RegNum) (md : Modifier) (w : Nat) (s : State) : Res State :=
  andThen (operand s bus ia w md) fun m =>
  andThen (loadGuard s mode bus ia u) fun _ =>
  andThen (addressOutput mode s ia m) fun a =>
  andThen (loadInto a.2 u bus ia a.1) fun t =>
  .next (advance t)

/-- A store of any form: `w` is the immediate width of the form. -/
def storeForm (mode : AddrMode) (u : Ureg) (bus : Bus) (ia : RegNum) (md : Modifier) (w : Nat) (s : State) : Res State :=
  andThen (operand s bus ia w md) fun m =>
  andThen (storeGuard s ia u) fun _ =>
  andThen (addressOutput mode s ia m) fun a =>
  andThen (storeFrom s a.2 u bus a.1) fun t =>
  .next (advance t)

end Sys2Proof.Machine
end

