-- ==== Sys2Proof/Machine/LoadStore.lean ====
section
/-! DEFINITION. The load and store forms (`40_address_output_modify.md` sections 3 and 4). -/

namespace Sys2Proof.Machine

/-- LOAD.POST.M (R74). -/
def execLoadPostM (u : Ureg) (bus : Bus) (ia mb : RegNum) (s : State) : Res State :=
  loadForm .post u bus ia (.reg mb) 0 s

/-- STORE.POST.M (R75). -/
def execStorePostM (bus : Bus) (ia mb : RegNum) (u : Ureg) (s : State) : Res State :=
  storeForm .post u bus ia (.reg mb) 0 s

/-- LOAD.POST.IMM (R76). -/
def execLoadPostImm (u : Ureg) (bus : Bus) (ia : RegNum) (imm : Int) (s : State) : Res State :=
  loadForm .post u bus ia (.imm imm) s.platform.immWidth.loadPost s

/-- STORE.POST.IMM (R77). -/
def execStorePostImm (bus : Bus) (ia : RegNum) (imm : Int) (u : Ureg) (s : State) : Res State :=
  storeForm .post u bus ia (.imm imm) s.platform.immWidth.storePost s

/-- LOAD.PRE.M (R78). -/
def execLoadPreM (u : Ureg) (bus : Bus) (mb ia : RegNum) (s : State) : Res State :=
  loadForm .pre u bus ia (.reg mb) 0 s

/-- STORE.PRE.M (R79). -/
def execStorePreM (bus : Bus) (mb ia : RegNum) (u : Ureg) (s : State) : Res State :=
  storeForm .pre u bus ia (.reg mb) 0 s

/-- LOAD.PRE.IMM (R80). -/
def execLoadPreImm (u : Ureg) (bus : Bus) (imm : Int) (ia : RegNum) (s : State) : Res State :=
  loadForm .pre u bus ia (.imm imm) s.platform.immWidth.loadPre s

/-- STORE.PRE.IMM (R81). -/
def execStorePreImm (bus : Bus) (imm : Int) (ia : RegNum) (u : Ureg) (s : State) : Res State :=
  storeForm .pre u bus ia (.imm imm) s.platform.immWidth.storePre s

end Sys2Proof.Machine
end

