-- ==== Sys2Proof/Machine/DualMove.lean ====
section
/-! DEFINITION. DUAL.MOVE: a DM access and a PM access in one instruction (`40_address_output_modify.md` R82). -/

namespace Sys2Proof.Machine

/-- The data register and the M register of a side; any other variant is refused (R82). -/
def sideOperands (a : Access) : Res (DataReg × RegNum) :=
  match a.reg, a.mode, a.modifier with
  | .data d, .post, .reg b => .next (d, b)
  | _, _, _ => .refused .dualMoveVariant

/-- What must hold of a side before it puts an address out, as of a single load or store (R85, R111). -/
def sideGuard (s : State) (bus : Bus) (a : Access) : Res Unit :=
  match a.dir with
  | .load => loadGuard s .post bus a.idx a.reg
  | .store => storeGuard s a.idx a.reg

/-- A double load of one register (R82). -/
def doubleLoad (x y : Access) : Bool :=
  decide (x.dir = .load) && decide (y.dir = .load) && decide (x.reg = y.reg)

/-- One side of the two is a store. -/
def someStore (x y : Access) : Bool :=
  decide (x.dir = .store) || decide (y.dir = .store)

/-- One side's access to its place: a load answers the data register writes it asks for, a store writes memory with the
register's value in `old`, the state before the instruction (`20_memory.md` R54). -/
def sideAccess (old s : State) (bus : Bus) (a : Access) (d : DataReg) (adr : Word) (pl : Place) :
    Res (List (DataReg × Data) × State) :=
  match a.dir with
  | .load =>
    andThen (memRead s adr pl) fun vs => .next (loadWrites pl.cls d vs.1 (broadcast old bus a.idx), vs.2)
  | .store => andThen (memWrite s pl (dataWord old pl.cls d)) fun t => .next ([], t)

/-- The data registers both sides load. -/
def clashes (ws vs : List (DataReg × Data)) : List DataReg :=
  (ws.map Prod.fst).filter fun d => (vs.map Prod.fst).any fun e => decide (d = e)

/-- A register both sides load holds a free value: the accesses are unordered (R54) and the spec states no result
(log entry 19). -/
def settle (s : State) : List DataReg → State
  | [] => s
  | d :: ds => settle (writeData { s with draws := s.draws + 1 } d ((Config.freeWord s.draws).setWidth 40)) ds

/-- The state after both sides' data register writes. -/
def dualWrites (s : State) (ws vs : List (DataReg × Data)) : State :=
  settle (writeAll (writeAll s ws) vs) (clashes ws vs)

/-- DUAL.MOVE (R82). In SIMD mode every dual move of well-formed operands is refused (D14); which of several refusals is
answered is log entry 18. -/
def execDualMove (x y : Access) (s : State) : Res State :=
  andThen (sideOperands x) fun ox =>
  andThen (sideOperands y) fun oy =>
  andThen (operand s .dm x.idx 0 (.reg ox.2)) fun mx =>
  andThen (operand s .pm y.idx 0 (.reg oy.2)) fun my =>
  andThen (require (!s.mode1.peyen) .simdMemoryAccess) fun _ =>
  andThen (require (!doubleLoad x y) .dualLoadSameDest) fun _ =>
  andThen (sideGuard s .dm x) fun _ =>
  andThen (sideGuard s .pm y) fun _ =>
  andThen (postModify s x.idx mx) fun ax =>
  andThen (postModify ax.2 y.idx my) fun ay =>
  andThen (dataPlace s.platform .dm ax.1) fun px =>
  andThen (dataPlace s.platform .pm ay.1) fun py =>
  andThen (require (!(samePlace px py && someStore x y)) .dualSameStorage) fun _ =>
  andThen (sideAccess s ay.2 .dm x ox.1 ax.1 px) fun tx =>
  andThen (sideAccess s tx.2 .pm y oy.1 ay.1 py) fun ty =>
  .next (advance (dualWrites ty.2 tx.1 ty.1))

end Sys2Proof.Machine
end

