-- ==== Sys2Proof/Machine/Modify.lean ====
section
/-! DEFINITION. The index updates without an access: MODIFY (`40_address_output_modify.md` section 6) and BITREV
(`42_bit_reversal.md` R103). -/

namespace Sys2Proof.Machine

/-- MODIFY.M (R83). -/
def execModifyM (ia mb : RegNum) (s : State) : Res State :=
  andThen (modifyValue s 0 ia (.reg mb)) fun m =>
  andThen (modifyIndex s ia m) fun t =>
  .next (advance t)

/-- MODIFY.IMM (R84). -/
def execModifyImm (ia : RegNum) (imm : Int) (s : State) : Res State :=
  andThen (modifyValue s s.platform.immWidth.modify ia (.imm imm)) fun m =>
  andThen (modifyIndex s ia m) fun t =>
  .next (advance t)

/-- BITREV.IMM (R103). -/
def execBitrevImm (ia : RegNum) (imm : Int) (s : State) : Res State :=
  andThen (immediate s.platform.immWidth.bitrev imm) fun m =>
  andThen (require (decide (s.lReg[ia] = 0)) .bitrevOnCircularIndex) fun _ =>
  .next (advance (writeDag s .i ia (rev32 (addIndex s.iReg[ia] m))))

end Sys2Proof.Machine
end

