-- ==== Sys2Proof/Machine/Transfer.lean ====
section
/-! DEFINITION. The register transfers: DAGREG.LOADIMM and UREG.MOVE (`44_dag_register_transfers.md` sections 2, 3). -/

namespace Sys2Proof.Machine

/-- DAGREG.LOADIMM (R113). -/
def execDagregLoadImm (k : DagKind) (n : RegNum) (imm : Int) (s : State) : Res State :=
  andThen (immediate s.platform.immWidth.loadImm imm) fun v =>
  .next (advance (writeDag s k n v))

/-- DAG register to data register x: into R[x] where condX holds and, in SIMD mode, into S[x] where condY holds (R114,
R116). -/
def dagToData (s : State) (c : Bool × Bool) (x : RegNum) (v : Word) : State :=
  writeAll s
    ((if c.1 then [(DataReg.r x, widen v)] else []) ++
     (if s.mode1.peyen && c.2 then [(DataReg.s x, widen v)] else []))

/-- Data register x to DAG register K[n]: from R[x] where condX holds; in SIMD mode, from S[x] where condY alone holds
(R114, R117). -/
def dataToDag (s : State) (c : Bool × Bool) (k : DagKind) (n x : RegNum) : State :=
  if c.1 then writeDag s k n (hi32 s.rReg[x])
  else if s.mode1.peyen && c.2 then writeDag s k n (hi32 s.sReg[x])
  else s

/-- DAG register to DAG register, the same with SIMD mode enabled and disabled (R114, R118). -/
def dagToDag (s : State) (c : Bool × Bool) (k : DagKind) (n : RegNum) (v : Word) : State :=
  if c.1 then writeDag s k n v else s

/-- An S register named in a move to or from a DAG register: refused by its own name with SIMD mode disabled (R114); with
SIMD mode enabled it is no operand of R116 to R118 (R67). -/
def sRegMove (s : State) : Res State :=
  if s.mode1.peyen then .refused .unknownInstruction else .refused .sRegInSisdMove

/-- The transfer of UREG.MOVE under the condition outcomes c (R114 to R118). -/
def moveEffect (s : State) (c : Bool × Bool) (dst src : Ureg) : Res State :=
  match dst, src with
  | .sys _, _ => .refused .uregNotModelled
  | _, .sys _ => .refused .uregNotModelled
  | .dag k n, .dag j m => .next (dagToDag s c k n (readDag s j m))
  | .dag k n, .data (.r x) => .next (dataToDag s c k n x)
  | .data (.r x), .dag k n => .next (dagToData s c x (readDag s k n))
  | .dag _ _, .data (.s _) => sRegMove s
  | .data (.s _), .dag _ _ => sRegMove s
  | .data _, .data _ => .refused .unknownInstruction

/-- UREG.MOVE (R114 to R118). -/
def execUregMove (cond : Option Cond) (dst src : Ureg) (s : State) : Res State :=
  andThen (moveEffect (popCond s cond) (condOutcome s cond) dst src) fun t =>
  .next (advance t)

end Sys2Proof.Machine
end

