-- ==== Sys2Proof/Machine/Dispatch.lean ====
section
/-! DEFINITION. One arm per instruction form, each a direct call of its meaning. -/

namespace Sys2Proof.Machine

def exec (i : Instr) (s : State) : Host.Outcome State Fault Refusal :=
  match i with
  | .loadPostM u bus ia mb => Sys2Proof.Machine.execLoadPostM u bus ia mb s
  | .storePostM bus ia mb u => Sys2Proof.Machine.execStorePostM bus ia mb u s
  | .loadPostImm u bus ia imm => Sys2Proof.Machine.execLoadPostImm u bus ia imm s
  | .storePostImm bus ia imm u => Sys2Proof.Machine.execStorePostImm bus ia imm u s
  | .loadPreM u bus mb ia => Sys2Proof.Machine.execLoadPreM u bus mb ia s
  | .storePreM bus mb ia u => Sys2Proof.Machine.execStorePreM bus mb ia u s
  | .loadPreImm u bus imm ia => Sys2Proof.Machine.execLoadPreImm u bus imm ia s
  | .storePreImm bus imm ia u => Sys2Proof.Machine.execStorePreImm bus imm ia u s
  | .dualMove x y => Sys2Proof.Machine.execDualMove x y s
  | .modifyM ia mb => Sys2Proof.Machine.execModifyM ia mb s
  | .modifyImm ia imm => Sys2Proof.Machine.execModifyImm ia imm s
  | .jumpIndirect md ic => Sys2Proof.Machine.execJumpIndirect md ic s
  | .pushSts => Sys2Proof.Machine.execPushSts s
  | .bitrevImm ia imm => Sys2Proof.Machine.execBitrevImm ia imm s
  | .dagregLoadImm k n imm => Sys2Proof.Machine.execDagregLoadImm k n imm s
  | .uregMove cond dst src => Sys2Proof.Machine.execUregMove cond dst src s

end Sys2Proof.Machine
end

