-- ==== Sys2Proof/WellFormed.lean ====
section
/-! DEFINITION. The operand classes of the instruction forms (`30_encoding.md` R66, `40_address_output_modify.md`
R71, R82, `44_dag_register_transfers.md` R114): a form whose operands are not of the stated classes is refused by
name when it executes (R67). -/

namespace Sys2Proof

/-- The register number is one of DAG1 (`10_state.md` R16). -/
def RegNum.inDag1 (n : RegNum) : Bool := decide (Config.roles.dagOf n = .dag1)

/-- An I register the bus may use: DM takes I0 to I7, PM takes I8 to I15 (R71). -/
def Bus.takes (bus : Bus) (ia : RegNum) : Bool :=
  match bus with
  | .dm => ia.inDag1
  | .pm => !ia.inDag1

/-- Two registers of one DAG (`10_state.md` R18). -/
def RegNum.sameDag (a b : RegNum) : Bool := a.inDag1 == b.inDag1

/-- A universal register this spec gives a meaning to: a DAG register or a data register (`10_state.md` R30). -/
def Ureg.given : Ureg → Bool
  | .dag _ _ => true
  | .data _ => true
  | .sys _ => false

/-- The modifier is an immediate or an M register of the index register's DAG (R71). -/
def Modifier.fitsIndex (ia : RegNum) : Modifier → Bool
  | .reg b => ia.sameDag b
  | .imm _ => true

/-- One side of a dual move: post-modify by an M register of the bus's DAG, a data register operand (R82). -/
def Access.dualSide (bus : Bus) (a : Access) : Bool :=
  (match a.reg with | .data _ => true | _ => false) &&
  (match a.mode with | .post => true | .pre => false) &&
  (match a.modifier with | .reg b => a.idx.sameDag b | .imm _ => false) &&
  bus.takes a.idx

/-- A double load names two different registers (R82). -/
def Access.distinctLoads (x y : Access) : Bool :=
  !(decide (x.dir = .load) && decide (y.dir = .load) && decide (x.reg = y.reg))

/-- The operands of a register to register move: each a DAG register or an R register, at least one of them a DAG
register (`44_dag_register_transfers.md` R114). -/
def Ureg.moveOperands : Ureg → Ureg → Bool
  | .dag _ _, .dag _ _ => true
  | .dag _ _, .data (.r _) => true
  | .data (.r _), .dag _ _ => true
  | _, _ => false

/-- The operand classes of every form (R66, R71). -/
def Instr.wellFormed : Instr → Bool
  | .loadPostM u bus ia mb => u.given && bus.takes ia && ia.sameDag mb
  | .storePostM bus ia mb u => u.given && bus.takes ia && ia.sameDag mb
  | .loadPostImm u bus ia _ => u.given && bus.takes ia
  | .storePostImm bus ia _ u => u.given && bus.takes ia
  | .loadPreM u bus mb ia => u.given && bus.takes ia && ia.sameDag mb
  | .storePreM bus mb ia u => u.given && bus.takes ia && ia.sameDag mb
  | .loadPreImm u bus _ ia => u.given && bus.takes ia
  | .storePreImm bus _ ia u => u.given && bus.takes ia
  | .dualMove x y => x.dualSide .dm && y.dualSide .pm && x.distinctLoads y
  | .modifyM ia mb => ia.sameDag mb
  | .modifyImm _ _ => true
  | .jumpIndirect md ic => !md.inDag1 && !ic.inDag1
  | .pushSts => true
  | .bitrevImm _ _ => true
  | .dagregLoadImm _ _ _ => true
  | .uregMove _ dst src => dst.moveOperands src

end Sys2Proof
end

