-- ==== Sys2Proof/Decode.lean ====
section
/-! DEFINITION. The spec gives no bit pattern for any instruction (`30_encoding.md` R59, N13): an instruction is a term
of the assembly grammar of R61 to R66. The decoder reads that text, byte by byte, and the encoder writes it. Lexical
conventions the grammar leaves open are in log entry 12, spellings from general knowledge in log entry 13. -/

namespace Sys2Proof

/-- The bytes of a text. -/
def bytesOf (t : String) : List Byte :=
  t.toList.map fun c => BitVec.ofNat 8 c.toNat

/-- A lexical unit of the assembly text (`30_encoding.md` R61). Letters of words are upper case. -/
inductive Token where
  | word (w : List Byte)
  | num (v : Int)
  | lpar
  | rpar
  | comma
  | equals
  | dot
  | semi
  deriving DecidableEq, Repr

/-- Why a text is no statement: `refuse(unknownInstruction)` of `30_encoding.md` R67, told apart. -/
inductive Reject where
  /-- A byte that stands in no statement. Safe. -/
  | badCharacter (b : Byte)
  /-- A sign or a hexadecimal prefix with no digit after it. Safe. -/
  | badNumber
  /-- The units are no form of R66 and no field write. Safe. -/
  | unknownForm
  deriving DecidableEq, Repr

/-! ## Characters -/

/-- Blanks are not significant (R61): space, tab, line ends, and the zero byte that pads a text. That a blank still ends the
word, number or sign before it is the model's choice (log entry 12). -/
def isBlank (b : Byte) : Bool :=
  decide (b.toNat = 32 ∨ b.toNat = 9 ∨ b.toNat = 10 ∨ b.toNat = 13 ∨ b.toNat = 0)

def isDigit (b : Byte) : Bool := decide (48 ≤ b.toNat ∧ b.toNat ≤ 57)

def isUpper (b : Byte) : Bool := decide (65 ≤ b.toNat ∧ b.toNat ≤ 90)

def isLower (b : Byte) : Bool := decide (97 ≤ b.toNat ∧ b.toNat ≤ 122)

def isLetter (b : Byte) : Bool := isUpper b || isLower b

/-- The upper case of a letter; any other byte as it is. -/
def upper (b : Byte) : Byte := if isLower b then b - 32 else b

/-- The value of a hexadecimal digit. -/
def hexValue (b : Byte) : Option Nat :=
  if isDigit b then some (b.toNat - 48)
  else if 65 ≤ (upper b).toNat ∧ (upper b).toNat ≤ 70 then some ((upper b).toNat - 55)
  else none

/-- The byte that starts a hexadecimal numeral after its zero: x or X. -/
def isHexMark (b : Byte) : Bool := decide (b.toNat = 120 ∨ b.toNat = 88)

/-- The unit a byte is by itself. -/
def punctuation (b : Byte) : Option Token :=
  if b.toNat = 40 then some .lpar
  else if b.toNat = 41 then some .rpar
  else if b.toNat = 44 then some .comma
  else if b.toNat = 61 then some .equals
  else if b.toNat = 46 then some .dot
  else if b.toNat = 59 then some .semi
  else none

/-! ## Lexical units -/

/-- A unit being read: a word (its letters and digits, last first), a sign, the zero that may start a hexadecimal numeral,
a decimal numeral, a hexadecimal prefix, a hexadecimal numeral. -/
inductive Reading where
  | idle
  | word (rev : List Byte)
  | minus
  | zero (neg : Bool)
  | dec (neg : Bool) (v : Nat)
  | hexMark (neg : Bool)
  | hex (neg : Bool) (v : Nat)
  deriving DecidableEq, Repr

/-- A numeral's value under its sign. -/
def signed (neg : Bool) (v : Nat) : Int := if neg then -(v : Int) else v

/-- The reading that goes on with a byte, or none where the byte ends it. R61 says only that blanks are not significant: that
none stands inside a word, a number or between a sign and its digits (`R 1`, `1 0`, `- 4`), and that one parts two words
(`PUSHSTS` is one word), is a DESIGN CHOICE (log entry 12). -/
def extend (b : Byte) : Reading → Option Reading
  | .idle => none
  | .word rev => if isLetter b || isDigit b then some (.word (upper b :: rev)) else none
  | .minus =>
    if b.toNat = 48 then some (.zero true) else if isDigit b then some (.dec true (b.toNat - 48)) else none
  | .zero neg =>
    if isHexMark b then some (.hexMark neg) else if isDigit b then some (.dec neg (b.toNat - 48)) else none
  | .dec neg v => if isDigit b then some (.dec neg (10 * v + (b.toNat - 48))) else none
  | .hexMark neg => (hexValue b).map fun d => .hex neg d
  | .hex neg v => (hexValue b).map fun d => .hex neg (16 * v + d)

/-- The units a finished reading gives. -/
def finish : Reading → Except Reject (List Token)
  | .idle => .ok []
  | .word rev => .ok [.word rev.reverse]
  | .minus => .error .badNumber
  | .zero _ => .ok [.num 0]
  | .dec neg v => .ok [.num (signed neg v)]
  | .hexMark _ => .error .badNumber
  | .hex neg v => .ok [.num (signed neg v)]

/-- The unit a byte is, if any, and the reading it starts. -/
def start (b : Byte) : Except Reject (List Token × Reading) :=
  match punctuation b with
  | some t => .ok ([t], .idle)
  | none =>
    if isBlank b then .ok ([], .idle)
    else if isLetter b then .ok ([], .word [upper b])
    else if b.toNat = 48 then .ok ([], .zero false)
    else if isDigit b then .ok ([], .dec false (b.toNat - 48))
    else if b.toNat = 45 then .ok ([], .minus)
    else .error (.badCharacter b)

/-- The units of a text, going on from a reading. -/
def lexFrom (r : Reading) : List Byte → Except Reject (List Token)
  | [] => finish r
  | b :: bs =>
    match extend b r with
    | some r' => lexFrom r' bs
    | none =>
      match finish r, start b with
      | .ok ts, .ok (us, r') =>
        match lexFrom r' bs with
        | .ok vs => .ok (ts ++ us ++ vs)
        | .error e => .error e
      | .error e, _ => .error e
      | _, .error e => .error e

/-- The units of a text. -/
def lex (bs : List Byte) : Except Reject (List Token) := lexFrom .idle bs

/-! ## Names -/

/-- The decimal digits of a register number. -/
def numText (n : RegNum) : List Byte :=
  if n.val < 10 then [BitVec.ofNat 8 (48 + n.val)] else [49, BitVec.ofNat 8 (38 + n.val)]

def kindText : DagKind → List Byte
  | .i => bytesOf "I"
  | .m => bytesOf "M"
  | .l => bytesOf "L"
  | .b => bytesOf "B"

def sysText : SysReg → List Byte
  | .mode1 => bytesOf "MODE1"
  | .mmask => bytesOf "MMASK"
  | .stkyx => bytesOf "STKYX"
  | .stkyy => bytesOf "STKYY"

/-- The name of a universal register (`30_encoding.md` R63). -/
def uregText : Ureg → List Byte
  | .dag k n => kindText k ++ numText n
  | .data (.r x) => bytesOf "R" ++ numText x
  | .data (.s x) => bytesOf "S" ++ numText x
  | .sys q => sysText q

/-- The register numbers. -/
def allNums : List RegNum := List.finRange Config.counts.nReg

/-- The data register numbers. -/
def allDregs : List DregNum := List.finRange Config.counts.nDreg

/-- The universal registers that have a name. -/
def allUregs : List Ureg :=
  List.flatten
    [allNums.map (Ureg.dag DagKind.i), allNums.map (Ureg.dag DagKind.m), allNums.map (Ureg.dag DagKind.l),
      allNums.map (Ureg.dag DagKind.b), allDregs.map (fun x => Ureg.data (DataReg.r x)),
      allDregs.map (fun x => Ureg.data (DataReg.s x)),
      [SysReg.mode1, SysReg.mmask, SysReg.stkyx, SysReg.stkyy].map Ureg.sys]

/-- The names of the registers: each its own, and F and SF as aliases of R and S (`10_state.md` R29). -/
def uregNames : List (List Byte × Ureg) :=
  List.flatten
    [allUregs.map (fun u => (uregText u, u)),
      allDregs.map (fun x => (bytesOf "F" ++ numText x, Ureg.data (DataReg.r x))),
      allDregs.map (fun x => (bytesOf "SF" ++ numText x, Ureg.data (DataReg.s x)))]

/-- The universal register of a name. -/
def uregOf (w : List Byte) : Option Ureg :=
  (uregNames.find? fun p => decide (p.1 = w)).map Prod.snd

def busText : Bus → List Byte
  | .dm => bytesOf "DM"
  | .pm => bytesOf "PM"

/-- The bus of a memory operand's name (R62). -/
def busOfText (w : List Byte) : Option Bus :=
  if w = bytesOf "DM" then some .dm else if w = bytesOf "PM" then some .pm else none

/-- The letters of a condition's name. -/
def letterByte (l : Fin 26) : Byte := BitVec.ofNat 8 (65 + l.val)

def letterOf (b : Byte) : Option (Fin 26) :=
  if h : 65 ≤ b.toNat ∧ b.toNat ≤ 90 then some ⟨b.toNat - 65, by omega⟩ else none

def lettersOf : List Byte → Option (List (Fin 26))
  | [] => some []
  | b :: bs =>
    match letterOf b, lettersOf bs with
    | some l, some ls => some (l :: ls)
    | _, _ => none

def condText (c : Cond) : List Byte := (c.head :: c.tail).map letterByte

/-- The condition of a name of letters (`30_encoding.md` R65). -/
def condOf (w : List Byte) : Option Cond :=
  match lettersOf w with
  | some (l :: ls) => some { head := l, tail := ls }
  | _ => none

/-- The register and the field of a named field. -/
def fieldText : SysField → List Byte × List Byte
  | .mode1Cbufen => (bytesOf "MODE1", bytesOf "CBUFEN")
  | .mode1Bdcst1 => (bytesOf "MODE1", bytesOf "BDCST1")
  | .mode1Bdcst9 => (bytesOf "MODE1", bytesOf "BDCST9")
  | .mode1Peyen => (bytesOf "MODE1", bytesOf "PEYEN")
  | .mode1Br0 => (bytesOf "MODE1", bytesOf "BR0")
  | .mode1Br8 => (bytesOf "MODE1", bytesOf "BR8")
  | .mmaskCbufen => (bytesOf "MMASK", bytesOf "CBUFEN")
  | .stkyxCb7s => (bytesOf "STKYX", bytesOf "CB7S")
  | .stkyxCb15s => (bytesOf "STKYX", bytesOf "CB15S")

def allFields : List SysField :=
  [.mode1Cbufen, .mode1Bdcst1, .mode1Bdcst9, .mode1Peyen, .mode1Br0, .mode1Br8, .mmaskCbufen, .stkyxCb7s, .stkyxCb15s]

/-- The named field of a register's name and a field's name (`10_state.md` R22 to R24, R26). -/
def fieldOf (r f : List Byte) : Option SysField :=
  allFields.find? fun x => decide (fieldText x = (r, f))

/-! ## Statements from units -/

/-- What stands between the parentheses of a memory operand or a named operation. -/
inductive Item where
  | index (n : RegNum)
  | modify (n : RegNum)
  | imm (v : Int)
  deriving DecidableEq, Repr

def itemOf : Token → Option Item
  | .word w =>
    match uregOf w with
    | some (.dag .i n) => some (.index n)
    | some (.dag .m n) => some (.modify n)
    | _ => none
  | .num v => some (.imm v)
  | _ => none

/-- The order of the two items of a memory operand: index register first is post-modify, modifier first is pre-modify
(`30_encoding.md` R62). -/
def operandOf (x y : Token) : Option (AddrMode × RegNum × Modifier) :=
  match itemOf x, itemOf y with
  | some (.index a), some (.modify b) => some (.post, a, .reg b)
  | some (.index a), some (.imm v) => some (.post, a, .imm v)
  | some (.modify b), some (.index a) => some (.pre, a, .reg b)
  | some (.imm v), some (.index a) => some (.pre, a, .imm v)
  | _, _ => none

/-- One memory access: `ureg = BUS(x, y)` or `BUS(x, y) = ureg` (R61, R62). -/
def accessOf : List Token → Option (Bus × Access)
  | [.word u, .equals, .word b, .lpar, x, .comma, y, .rpar] =>
    match uregOf u, busOfText b, operandOf x y with
    | some reg, some bus, some (mode, idx, md) =>
      some (bus, { dir := .load, reg := reg, mode := mode, idx := idx, modifier := md })
    | _, _, _ => none
  | [.word b, .lpar, x, .comma, y, .rpar, .equals, .word u] =>
    match uregOf u, busOfText b, operandOf x y with
    | some reg, some bus, some (mode, idx, md) =>
      some (bus, { dir := .store, reg := reg, mode := mode, idx := idx, modifier := md })
    | _, _, _ => none
  | _ => none

/-- The load or store form of one memory access (R66). -/
def instrOfAccess (bus : Bus) (a : Access) : Instr :=
  match a.dir, a.mode, a.modifier with
  | .load, .post, .reg b => .loadPostM a.reg bus a.idx b
  | .store, .post, .reg b => .storePostM bus a.idx b a.reg
  | .load, .post, .imm v => .loadPostImm a.reg bus a.idx v
  | .store, .post, .imm v => .storePostImm bus a.idx v a.reg
  | .load, .pre, .reg b => .loadPreM a.reg bus b a.idx
  | .store, .pre, .reg b => .storePreM bus b a.idx a.reg
  | .load, .pre, .imm v => .loadPreImm a.reg bus v a.idx
  | .store, .pre, .imm v => .storePreImm bus v a.idx a.reg

/-- A single load or store. -/
def singleOf (ts : List Token) : Option Instr :=
  (accessOf ts).map fun a => instrOfAccess a.1 a.2

/-- A DM access, a comma and a PM access (`40_address_output_modify.md` R82). R82 writes the DM side first, and R66 does not
say whether the twin of a dual move is one written PM side first: that such a text is no statement is the model's choice
(log entry 45). -/
def dualOf (ts : List Token) : Option Instr :=
  match ts.drop 8 with
  | .comma :: us =>
    match accessOf (ts.take 8), accessOf us with
    | some (.dm, x), some (.pm, y) => some (.dualMove x y)
    | _, _ => none
  | _ => none

/-- A named operation on two items: MODIFY, BITREV, JUMP. DESIGN CHOICE: of the control transfers only `JUMP (Md, Ic)` is read
(`40_address_output_modify.md` R86), and the text of any other (a call, a return, a direct jump) is no statement and is refused
as unknownInstruction (`30_encoding.md` R67), although 93_implementation_defined.md part 1b names controlTransferNotInSource
for every control transfer (log entry 36). -/
def namedOf (w : List Byte) (x y : Token) : Option Instr :=
  match itemOf x, itemOf y with
  | some (.index a), some (.modify b) => if w = bytesOf "MODIFY" then some (.modifyM a b) else none
  | some (.index a), some (.imm v) =>
    if w = bytesOf "MODIFY" then some (.modifyImm a v)
    else if w = bytesOf "BITREV" then some (.bitrevImm a v)
    else none
  | some (.modify d), some (.index c) => if w = bytesOf "JUMP" then some (.jumpIndirect d c) else none
  | _, _ => none

/-- `PUSH STS` (`41_circular_buffer.md` R98). -/
def pushOf : List Token → Option Instr
  | [.word a, .word b] => if a = bytesOf "PUSH" ∧ b = bytesOf "STS" then some .pushSts else none
  | _ => none

/-- `dagreg = imm` (`44_dag_register_transfers.md` R113). -/
def loadImmOf : List Token → Option Instr
  | [.word d, .equals, .num v] =>
    match uregOf d with
    | some (.dag k n) => some (.dagregLoadImm k n v)
    | _ => none
  | _ => none

/-- `dst = src` (`44_dag_register_transfers.md` R114). -/
def moveOf : List Token → Option Instr
  | [.word d, .equals, .word u] =>
    match uregOf d, uregOf u with
    | some dst, some src => some (.uregMove none dst src)
    | _, _ => none
  | _ => none

/-- A named operation on two items. -/
def operationOf : List Token → Option Instr
  | [.word w, .lpar, x, .comma, y, .rpar] => namedOf w x y
  | _ => none

/-- The first reading of some units that is one. -/
def firstOf {α : Type} (ts : List Token) : List (List Token → Option α) → Option α
  | [] => none
  | f :: fs =>
    match f ts with
    | some a => some a
    | none => firstOf ts fs

/-- The instruction of some units, without a condition (R66). No two of the forms have a reading of the same units. -/
def instructionOf (ts : List Token) : Option Instr :=
  firstOf ts [pushOf, loadImmOf, moveOf, operationOf, singleOf, dualOf]

/-- `IF cond` and then an instruction of any form (`30_encoding.md` R65). That a second condition or a field write may not
follow is the model's choice (log entry 44). -/
def conditionalOf : List Token → Option Statement
  | .word f :: .word c :: ts =>
    if f = bytesOf "IF" then
      match condOf c, instructionOf ts with
      | some cond, some i => some (i.under cond)
      | _, _ => none
    else none
  | _ => none

/-- `SetField(reg.f, b)` (`10_state.md` R27). -/
def setFieldOf : List Token → Option Statement
  | [.word w, .lpar, .word r, .dot, .word f, .comma, .num v, .rpar] =>
    if w = bytesOf "SETFIELD" then
      match fieldOf r f with
      | some fld => if v = 0 then some (.setField fld false) else if v = 1 then some (.setField fld true) else none
      | none => none
    else none
  | _ => none

/-- The statement of the units before its semicolon (R65, R66): an instruction, one that carries a condition, or a field
write. No two of the three have a reading of the same units. -/
def statementOf (ts : List Token) : Option Statement :=
  firstOf ts [fun us => (instructionOf us).map Statement.instr, conditionalOf, setFieldOf]

/-- The units before a semicolon that is the last of them. -/
def beforeSemi : List Token → Option (List Token)
  | [] => none
  | [.semi] => some []
  | .semi :: _ => none
  | t :: ts => (beforeSemi ts).map (t :: ·)

/-- The statement of the units of one text up to its semicolon (R61). -/
def parse (ts : List Token) : Option Statement :=
  match beforeSemi ts with
  | some us => statementOf us
  | none => none

/-- The statement a text stands for, or why it stands for none. -/
def decode (bs : List Byte) : Except Reject Statement :=
  match lex bs with
  | .ok ts =>
    match parse ts with
    | some st => .ok st
    | none => .error .unknownForm
  | .error e => .error e

/-! ## The encoder -/

def indexToken (n : RegNum) : Token := .word (uregText (.dag .i n))

def modifyToken (n : RegNum) : Token := .word (uregText (.dag .m n))

def modifierToken : Modifier → Token
  | .reg b => modifyToken b
  | .imm v => .num v

/-- The units of a memory operand (R62). -/
def operandTokens (bus : Bus) (mode : AddrMode) (idx : RegNum) (md : Modifier) : List Token :=
  match mode with
  | .post => [.word (busText bus), .lpar, indexToken idx, .comma, modifierToken md, .rpar]
  | .pre => [.word (busText bus), .lpar, modifierToken md, .comma, indexToken idx, .rpar]

def loadTokens (u : Ureg) (bus : Bus) (mode : AddrMode) (idx : RegNum) (md : Modifier) : List Token :=
  [.word (uregText u), .equals] ++ operandTokens bus mode idx md

def storeTokens (u : Ureg) (bus : Bus) (mode : AddrMode) (idx : RegNum) (md : Modifier) : List Token :=
  operandTokens bus mode idx md ++ [.equals, .word (uregText u)]

def accessTokens (bus : Bus) (a : Access) : List Token :=
  match a.dir with
  | .load => loadTokens a.reg bus a.mode a.idx a.modifier
  | .store => storeTokens a.reg bus a.mode a.idx a.modifier

def namedTokens (w : List Byte) (x y : Token) : List Token :=
  [.word w, .lpar, x, .comma, y, .rpar]

def moveTokens (dst src : Ureg) : List Token :=
  [.word (uregText dst), .equals, .word (uregText src)]

/-- The units of an instruction before its semicolon, in the assembly forms of R66, without a condition. -/
def bareTokens : Instr → List Token
  | .loadPostM u bus ia mb => loadTokens u bus .post ia (.reg mb)
  | .storePostM bus ia mb u => storeTokens u bus .post ia (.reg mb)
  | .loadPostImm u bus ia imm => loadTokens u bus .post ia (.imm imm)
  | .storePostImm bus ia imm u => storeTokens u bus .post ia (.imm imm)
  | .loadPreM u bus mb ia => loadTokens u bus .pre ia (.reg mb)
  | .storePreM bus mb ia u => storeTokens u bus .pre ia (.reg mb)
  | .loadPreImm u bus imm ia => loadTokens u bus .pre ia (.imm imm)
  | .storePreImm bus imm ia u => storeTokens u bus .pre ia (.imm imm)
  | .dualMove x y => accessTokens .dm x ++ [.comma] ++ accessTokens .pm y
  | .modifyM ia mb => namedTokens (bytesOf "MODIFY") (indexToken ia) (modifyToken mb)
  | .modifyImm ia imm => namedTokens (bytesOf "MODIFY") (indexToken ia) (.num imm)
  | .jumpIndirect md ic => namedTokens (bytesOf "JUMP") (modifyToken md) (indexToken ic)
  | .pushSts => [.word (bytesOf "PUSH"), .word (bytesOf "STS")]
  | .bitrevImm ia imm => namedTokens (bytesOf "BITREV") (indexToken ia) (.num imm)
  | .dagregLoadImm k n imm => [.word (uregText (.dag k n)), .equals, .num imm]
  | .uregMove _ dst src => moveTokens dst src

/-- The units of a condition before an instruction (R65). -/
def conditionTokens (c : Cond) : List Token :=
  [.word (bytesOf "IF"), .word (condText c)]

/-- The units of an instruction, with the condition a register move has among its operands. -/
def instrTokens : Instr → List Token
  | .uregMove (some c) dst src => conditionTokens c ++ moveTokens dst src
  | i => bareTokens i

def statementTokens : Statement → List Token
  | .instr i => instrTokens i
  | .cond c i => conditionTokens c ++ bareTokens i
  | .setField f b =>
    [.word (bytesOf "SETFIELD"), .lpar, .word (fieldText f).1, .dot, .word (fieldText f).2, .comma,
      .num (if b then 1 else 0), .rpar]

/-- The decimal digits of a number, at most `fuel` of them. -/
def digitsText : Nat → Nat → List Byte
  | 0, _ => []
  | fuel + 1, v =>
    (if v < 10 then [] else digitsText fuel (v / 10)) ++ [BitVec.ofNat 8 (48 + v % 10)]

/-- A number as a decimal numeral, with a sign where it is negative. -/
def intText (v : Int) : List Byte :=
  if v < 0 then 45 :: digitsText (v.natAbs + 1) v.natAbs else digitsText (v.natAbs + 1) v.natAbs

def tokenText : Token → List Byte
  | .word w => w
  | .num v => intText v
  | .lpar => [40]
  | .rpar => [41]
  | .comma => [44]
  | .equals => [61]
  | .dot => [46]
  | .semi => [59]

/-- A text that reads as the units: each followed by a blank. -/
def render : List Token → List Byte
  | [] => []
  | t :: ts => tokenText t ++ 32 :: render ts

/-- The text of a statement. -/
def encodeStatement (st : Statement) : List Byte :=
  render (statementTokens st ++ [.semi])

/-- The text of an instruction. -/
def encode (i : Instr) : List Byte := encodeStatement (.instr i)

/-! ## The table's numbering -/

/-- The bytes of a number of n bytes, bits 7..0 the first: the numbering of spec/opcode_table.json. -/
def textOfNat : Nat → Nat → List Byte
  | 0, _ => []
  | n + 1, w => BitVec.ofNat 8 w :: textOfNat n (w / 256)

/-- The text whose bits are w, of nbits bits in whole bytes. -/
def textOfWord (nbits w : Nat) : List Byte := textOfNat ((nbits + 7) / 8) w

/-- The instruction the decoder reads from the text whose bits are w. The table gives no row bits (R59), so a row's bits
are its text's. No row of the table is a condition before another form. -/
def decodeTableWord (nbits w : Nat) : Option Instr :=
  match decode (textOfWord nbits w) with
  | .ok (.instr i) => some i
  | .ok (.cond _ _) => none
  | .ok (.setField _ _) => none
  | .error _ => none

end Sys2Proof
end

