-- ==== Sys2Proof/Machine/Conditional.lean ====
section
/-! DEFINITION. An instruction that carries a condition (`30_encoding.md` R65, `92_eei_decisions.md` D33). -/

namespace Sys2Proof.Machine

/-- The immediate of a form, if it has one, fits the form's width (`30_encoding.md` R64). -/
def immediateFits (w : ImmWidths) : Instr → Bool
  | .loadPostM _ _ _ _ => true
  | .storePostM _ _ _ _ => true
  | .loadPostImm _ _ _ imm => immFits w.loadPost imm
  | .storePostImm _ _ imm _ => immFits w.storePost imm
  | .loadPreM _ _ _ _ => true
  | .storePreM _ _ _ _ => true
  | .loadPreImm _ _ imm _ => immFits w.loadPre imm
  | .storePreImm _ imm _ _ => immFits w.storePre imm
  | .dualMove _ _ => true
  | .modifyM _ _ => true
  | .modifyImm _ imm => immFits w.modify imm
  | .jumpIndirect _ _ => true
  | .pushSts => true
  | .bitrevImm _ imm => immFits w.bitrev imm
  | .dagregLoadImm _ _ imm => immFits w.loadImm imm
  | .uregMove _ _ _ => true

/-- The spec gives the form a meaning in the mode the machine is in: the forms with a memory operand have none in SIMD mode
(`43_broadcast_loads.md` R111), JUMP.INDIRECT has none at all (`40_address_output_modify.md` R86). -/
def meant (s : State) : Instr → Bool
  | .loadPostM _ _ _ _ => !s.mode1.peyen
  | .storePostM _ _ _ _ => !s.mode1.peyen
  | .loadPostImm _ _ _ _ => !s.mode1.peyen
  | .storePostImm _ _ _ _ => !s.mode1.peyen
  | .loadPreM _ _ _ _ => !s.mode1.peyen
  | .storePreM _ _ _ _ => !s.mode1.peyen
  | .loadPreImm _ _ _ _ => !s.mode1.peyen
  | .storePreImm _ _ _ _ => !s.mode1.peyen
  | .dualMove _ _ => !s.mode1.peyen
  | .modifyM _ _ => true
  | .modifyImm _ _ => true
  | .jumpIndirect _ _ => false
  | .pushSts => true
  | .bitrevImm _ _ => true
  | .dagregLoadImm _ _ _ => true
  | .uregMove _ _ _ => true

/-- The instruction may be passed over: it is one the spec gives a meaning to, with operands of its classes and an immediate
that fits. Any other is refused whether or not its condition holds (log entry 44). DESIGN CHOICE, R65 and R141 being silent:
what a form that may be passed over is refused for besides, a class 2 shape (`hazardClass2`), a broadcast load of an S register
(`broadcastToSReg`) or what depends on its address, it is refused for only where it goes ahead (log entry 44). -/
def skippable (s : State) (i : Instr) : Bool :=
  i.wellFormed && immediateFits s.platform.immWidth i && meant s i

/-- An instruction under a condition, `ex` being what it does without one: a condition that does not hold leaves it no
effect (`44_dag_register_transfers.md` R114; log entry 44). A register move lets each processing element's outcome decide
that element's own write (R114 to R118), and so is given the condition itself. -/
def runUnder (ex : Instr → State → Res State) (c : Cond) (i : Instr) (s : State) : Res State :=
  match i.under c with
  | .instr j => ex j s
  | _ =>
    if skippable (afterCond s c) i && !holdsFor s c then .next (advance (afterCond s c))
    else ex i (afterCond s c)

end Sys2Proof.Machine
end

