-- ==== Sys2Proof/Machine/Fetch.lean ====
section
/-! DEFINITION. Fetching a statement from the program text and running it (`10_state.md` R33, `20_memory.md` R57). -/

namespace Sys2Proof.Machine

/-- The text of the statement at the program counter (`10_state.md` R33). -/
def fetch (s : State) : Option (List Byte) :=
  s.program[s.pc]?

/-- Run one statement: an instruction by `ex`, one that carries a condition under it (`30_encoding.md` R65), a field write by
SetField (`10_state.md` R27). -/
def runStatement (ex : Instr → State → Res State) (st : Statement) (s : State) : Res State :=
  match st with
  | .instr i => ex i s
  | .cond c i => runUnder ex c i s
  | .setField f b => .next (advance (setField f b s))

/-- Run the statement a text stands for; text outside the forms is refused by name (`30_encoding.md` R67). -/
def runText (ex : Instr → State → Res State) (text : List Byte) (s : State) : Res State :=
  match decode text with
  | .ok st => runStatement ex st s
  | .error _ => .refused .unknownInstruction

/-- Run the statement at the program counter; past the last one there is none (log entry 10). -/
def runFetched (ex : Instr → State → Res State) (s : State) : Res State :=
  match fetch s with
  | some text => runText ex text s
  | none => .fault .noStatement

/-- One step: the interrupt that arrives is entered, else the statement at the program counter runs
(`60_exceptions.md` R125). -/
def stepWith (ex : Instr → State → Res State) (s : State) : Res State :=
  match arriving s with
  | some kind => .next (irqEntry kind (popEvent s))
  | none => runFetched ex (popEvent s)

/-- A program with the statement of index n replaced; a shorter program is filled up with empty texts. -/
def setStatement (text : List Byte) : Nat → List (List Byte) → List (List Byte)
  | 0, [] => [text]
  | 0, _ :: ps => text :: ps
  | n + 1, [] => [] :: setStatement text n []
  | n + 1, p :: ps => p :: setStatement text n ps

/-- The state whose next step runs the given text: it stands at the program counter, and the schedule says that no interrupt
arrives before it. -/
def withText (s : State) (text : List Byte) : State :=
  { s with program := setStatement text s.pc s.program, events := [none] }

end Sys2Proof.Machine
end

