-- ==== Sys2Proof/Machine/Step.lean ====
section
/-! DEFINITION. One step of the machine, and the state whose next step runs a given instruction. -/

namespace Sys2Proof.Machine

/-- One step: interrupt entry, or the statement at the program counter. -/
def step (s : State) : Host.Outcome State Fault Refusal :=
  stepWith exec s

/-- `s` with the instruction whose bits are w as the statement its next step runs (log entry 11). -/
def State.withFetchWord (s : State) (nbits w : Nat) : State :=
  withText s (textOfWord nbits w)

end Sys2Proof.Machine
end

