-- ==== Sys2Proof/Safety.lean ====
section
/-! DEFINITION. The words the statements use: which instructions have one shape, the conditions under which a form
executes normally, the values the spec gives in numbers, and what a frame leaves as it was. -/

namespace Sys2Proof.Machine

/-! ## Instructions of one shape -/

/-- `i` is a load of `u` through I[ia] on `bus` with modify value `m`, post-modify or pre-modify
(`40_address_output_modify.md` R71, R74, R76, R78, R80). -/
def IsLoad (s : State) (mode : AddrMode) (u : Ureg) (bus : Bus) (ia : RegNum) (m : Word) (i : Instr) : Prop :=
  dagOf ia = dagOfBus bus ∧
  match mode with
  | .post =>
    (∃ mb, i = .loadPostM u bus ia mb ∧ dagOf mb = dagOf ia ∧ m = s.mReg[mb]) ∨
    (∃ v, i = .loadPostImm u bus ia v ∧ immFits s.platform.immWidth.loadPost v = true ∧ m = immWord v)
  | .pre =>
    (∃ mb, i = .loadPreM u bus mb ia ∧ dagOf mb = dagOf ia ∧ m = s.mReg[mb]) ∨
    (∃ v, i = .loadPreImm u bus v ia ∧ immFits s.platform.immWidth.loadPre v = true ∧ m = immWord v)

/-- `i` is a store of `u` through I[ia] on `bus` with modify value `m`, post-modify or pre-modify (R71, R75, R77, R79,
R81). -/
def IsStore (s : State) (mode : AddrMode) (u : Ureg) (bus : Bus) (ia : RegNum) (m : Word) (i : Instr) : Prop :=
  dagOf ia = dagOfBus bus ∧
  match mode with
  | .post =>
    (∃ mb, i = .storePostM bus ia mb u ∧ dagOf mb = dagOf ia ∧ m = s.mReg[mb]) ∨
    (∃ v, i = .storePostImm bus ia v u ∧ immFits s.platform.immWidth.storePost v = true ∧ m = immWord v)
  | .pre =>
    (∃ mb, i = .storePreM bus mb ia u ∧ dagOf mb = dagOf ia ∧ m = s.mReg[mb]) ∨
    (∃ v, i = .storePreImm bus v ia u ∧ immFits s.platform.immWidth.storePre v = true ∧ m = immWord v)

/-- `i` is a MODIFY of I[ia] by `m` (R83, R84). -/
def IsModify (s : State) (ia : RegNum) (m : Word) (i : Instr) : Prop :=
  (∃ mb, i = .modifyM ia mb ∧ dagOf mb = dagOf ia ∧ m = s.mReg[mb]) ∨
  (∃ v, i = .modifyImm ia v ∧ immFits s.platform.immWidth.modify v = true ∧ m = immWord v)

/-- The instruction updates I[n] by post-modify or MODIFY (R72, R83). -/
def updatesIndex (n : RegNum) : Instr → Bool
  | .loadPostM _ _ ia _ => decide (ia = n)
  | .storePostM _ ia _ _ => decide (ia = n)
  | .loadPostImm _ _ ia _ => decide (ia = n)
  | .storePostImm _ ia _ _ => decide (ia = n)
  | .loadPreM _ _ _ _ => false
  | .storePreM _ _ _ _ => false
  | .loadPreImm _ _ _ _ => false
  | .storePreImm _ _ _ _ => false
  | .dualMove x y => decide (x.idx = n) || decide (y.idx = n)
  | .modifyM ia _ => decide (ia = n)
  | .modifyImm ia _ => decide (ia = n)
  | .jumpIndirect _ _ => false
  | .pushSts => false
  | .bitrevImm _ _ => false
  | .dagregLoadImm _ _ _ => false
  | .uregMove _ _ _ => false

/-! ## Values in numbers -/

/-- The domain the circular update is defined on (`41_circular_buffer.md` R90, R94), on integers. -/
def CircularDomain (cur base len m : Word) : Prop :=
  len.toNat < 2 ^ 31 ∧ base.toNat + len.toNat ≤ 2 ^ 32 ∧
  base.toNat ≤ cur.toNat ∧ cur.toNat < base.toNat + len.toNat ∧
  -(len.toNat : Int) - (cur.toNat - base.toNat) ≤ m.toInt ∧
  m.toInt < 2 * (len.toNat : Int) - (cur.toNat - base.toNat)

/-- The index the circular update writes back (R90), on integers: the sum where it is in the buffer, else the sum less
the length, or, for a negative modify value, plus the length. -/
def circularValue (cur base len m : Word) : Int :=
  if base.toNat ≤ (cur.toNat : Int) + m.toInt ∧ (cur.toNat : Int) + m.toInt < base.toNat + len.toNat then
    cur.toNat + m.toInt
  else if m.toInt < 0 then cur.toNat + m.toInt + len.toNat
  else cur.toNat + m.toInt - len.toNat

/-- The circular update has no value, and r names the first of its conditions that fails: the length, the end of the buffer,
the index, the once-corrected value (`41_circular_buffer.md` R88, R90, R93, R94). -/
def UpdateRefused (cur base len m : Word) (r : Refusal) : Prop :=
  if 2 ^ 31 ≤ len.toNat then r = .lengthNotPositive
  else if 2 ^ 32 < base.toNat + len.toNat then r = .bufferPastTopOfSpace
  else if cur.toNat < base.toNat ∨ base.toNat + len.toNat ≤ cur.toNat then r = .indexOutsideBuffer
  else ¬ CircularDomain cur base len m ∧ r = .stepTooLong

/-- With circular buffering in force for I[n] the address output is refused by the name r: a pre-modify always (R95), a
post-modify in bit-reverse mode (`42_bit_reversal.md` R102) or where the circular update has no value (R90). -/
def AddressRefused (s : State) (mode : AddrMode) (n : RegNum) (m : Word) (r : Refusal) : Prop :=
  circLS s n = true ∧
  match mode with
  | .pre => r = .preModifyOnCircularIndex
  | .post =>
    if bitReversed s n = true then r = .bitReverseWithCircular
    else UpdateRefused s.iReg[n] s.bReg[n] s.lReg[n] m r

/-- The 40 bits the named data register receives from the word v of class c (R85). -/
def namedValue (c : WordClass) (v : Nat) : Data :=
  match c with
  | .ext40 => BitVec.ofNat 40 v
  | _ => BitVec.ofNat 40 (v % 2 ^ 32 * 256)

/-- The 40 bits the pair partner receives from a long word v (R85). -/
def partnerValue (v : Nat) : Data :=
  BitVec.ofNat 40 (v / 2 ^ 32 * 256)

/-- The 32 bits the named DAG register receives from the word v of class c (`44_dag_register_transfers.md` R119 to R121). -/
def dagValue (c : WordClass) (v : Nat) : Nat :=
  match c with
  | .ext40 => v / 2 ^ 8
  | _ => v % 2 ^ 32

/-- DAG register K[n] holds v, and for a B register I[n] holds it too (`10_state.md` R19). -/
def HoldsDag (t : State) (k : DagKind) (n : RegNum) (v : Nat) : Prop :=
  (readDag t k n).toNat = v ∧ (k = .b → t.iReg[n].toNat = v)

/-- Data register d holds what the word v of class c gives it, and the pair partner what a long word gives it (R85). -/
def HoldsData (t : State) (c : WordClass) (d : DataReg) (v : Nat) : Prop :=
  readData t d = namedValue c v ∧ (c = .long64 → readData t (dataPair d) = partnerValue v)

/-- The registers a load into u writes hold what the word v of class c gives them: a data register and its pair partner, for
a broadcast load of R[x] the S registers too (`43_broadcast_loads.md` R105), or a DAG register and its pair partner. -/
def HoldsLoaded (t : State) (c : WordClass) (u : Ureg) (bcast : Bool) (v : Nat) : Prop :=
  match u with
  | .data d => HoldsData t c d v ∧ (bcast = true → ∀ x, d = .r x → HoldsData t c (.s x) v)
  | .dag k n => HoldsDag t k n (dagValue c v) ∧ (c = .long64 → HoldsDag t k (pairOf n) (v / 2 ^ 32))
  | .sys _ => False

/-- The word of class c stored from u, as a number (R85, `44_dag_register_transfers.md` R119 to R121). -/
def storedValue (s : State) (c : WordClass) (u : Ureg) : Nat :=
  match u, c with
  | .data d, .normal32 => (readData s d).toNat / 256
  | .data d, .ext40 => (readData s d).toNat
  | .data d, .long64 => (readData s (dataPair d)).toNat / 256 * 2 ^ 32 + (readData s d).toNat / 256
  | .dag k n, .normal32 => (readDag s k n).toNat
  | .dag k n, .ext40 => (readDag s k n).toNat * 256
  | .dag k n, .long64 => (readDag s k (pairOf n)).toNat * 2 ^ 32 + (readDag s k n).toNat
  | _, _ => 0

/-! ## Conditions under which a form executes normally -/

/-- A load runs: the operand classes, the modes and the addressing allow it, the word at the address is admitted, is no
short word, and has been written by no agent but this one. -/
structure LoadRuns (s : State) (mode : AddrMode) (u : Ureg) (bus : Bus) (ia : RegNum) (m : Word) (i : Instr)
    (a : Word) (s1 : State) (pl : Place) (v : Nat) : Prop where
  form : IsLoad s mode u bus ia m i
  given : isGiven u = true
  notClass2 : (updates mode && ofDagOf ia u) = false
  simdOff : s.mode1.peyen = false
  noSBroadcast : (broadcast s bus ia && isSReg u) = false
  address : addressOutput mode s ia m = .next (a, s1)
  admitted : dataPlace s.platform bus a = .next pl
  unshared : touches pl s.platform.shared = false
  written : readBytes s.mem pl.start (placeBytes pl) = some v

/-- A store runs: the operand classes, the modes and the addressing allow it, the word at the address is admitted, is no
short word and holds no program text. -/
structure StoreRuns (s : State) (mode : AddrMode) (u : Ureg) (bus : Bus) (ia : RegNum) (m : Word) (i : Instr)
    (a : Word) (s1 : State) (pl : Place) : Prop where
  form : IsStore s mode u bus ia m i
  given : isGiven u = true
  notClass2 : ofDagOf ia u = false
  simdOff : s.mode1.peyen = false
  address : addressOutput mode s ia m = .next (a, s1)
  admitted : dataPlace s.platform bus a = .next pl
  notText : touches pl s.platform.text = false

/-- The value v a load of the word at pl meets, the k-th free value being the next: what the storage holds, or a free value
where another agent may write the storage (`20_memory.md` R53). -/
def LoadedValue (s : State) (k : Nat) (pl : Place) (v : Nat) : Prop :=
  (touches pl s.platform.shared = false ∧ readBytes s.mem pl.start (placeBytes pl) = some v) ∨
  (touches pl s.platform.shared = true ∧ v = (freeValue { s with draws := k } pl).toNat)

/-- How many free values one side of a dual move takes: one for a load from storage another agent may write (R53). -/
def drawsOfSide (s : State) (x : Access) (pl : Place) : Nat :=
  if x.dir = .load ∧ touches pl s.platform.shared = true then 1 else 0

/-- One side of a dual move as the form admits it: a data register d and post-modify by M[b] of the bus's DAG (R82), and no
broadcast load of an S register (R111). -/
structure SideAdmitted (s : State) (bus : Bus) (x : Access) (d : DataReg) (b : RegNum) : Prop where
  reg : x.reg = .data d
  post : x.mode = .post
  modifier : x.modifier = .reg b
  onBus : dagOf x.idx = dagOfBus bus
  sameDag : dagOf b = dagOf x.idx
  noSBroadcast : x.dir = .load → (broadcast s bus x.idx && isSReg (.data d)) = false

/-- One side of a dual move that puts its address out, with the index update u (R72, R82). -/
structure SideReady (s : State) (bus : Bus) (x : Access) (d : DataReg) (b : RegNum) (u : Update) : Prop
    extends SideAdmitted s bus x d b where
  notReversed : (bitReversed s x.idx && circLS s x.idx) = false
  update : nextIndex s x.idx s.mReg[b] (circLS s x.idx) = .next u

/-- A dual move that passes every check before its addresses: SIMD mode is disabled, both sides are as the form admits them
and a double load names two registers (R82, R85). -/
structure DualAdmitted (s : State) (x y : Access) (dx dy : DataReg) (bx bM : RegNum) : Prop where
  simdOff : s.mode1.peyen = false
  dm : SideAdmitted s .dm x dx bx
  pm : SideAdmitted s .pm y dy bM
  twoRegs : doubleLoad x y = false

/-- A dual move whose two sides put their addresses out (R72, R82, R85). -/
structure DualReady (s : State) (x y : Access) (dx dy : DataReg) (bx bM : RegNum) (ux uy : Update) : Prop where
  simdOff : s.mode1.peyen = false
  dm : SideReady s .dm x dx bx ux
  pm : SideReady s .pm y dy bM uy
  twoRegs : doubleLoad x y = false

/-- What one side's access needs of the place pl its address reaches: a load meets the value v, the k-th free value being
the next, and a store no program text (R53, R57, R82). -/
structure SideAccesses (s : State) (bus : Bus) (x : Access) (pl : Place) (k v : Nat) : Prop where
  admitted : dataPlace s.platform bus (outAddr s x.idx s.iReg[x.idx]) = .next pl
  loads : x.dir = .load → LoadedValue s k pl v
  stores : x.dir = .store → touches pl s.platform.text = false

/-- A dual move runs: both addresses go out, both accesses are admitted, and the two places are apart or both loaded (R54,
R82). -/
structure DualRuns (s : State) (x y : Access) (dx dy : DataReg) (bx bM : RegNum) (ux uy : Update) (px py : Place)
    (vx vy : Nat) : Prop where
  ready : DualReady s x y dx dy bx bM ux uy
  dmAccess : SideAccesses s .dm x px s.draws vx
  pmAccess : SideAccesses s .pm y py (s.draws + drawsOfSide s x px) vy
  apart : (samePlace px py && someStore x y) = false

/-! ## Frames -/

/-- The data register e receives a value from a load into d of a word of class c (R85, `43_broadcast_loads.md` R105,
R109). -/
def IsLoadDest (c : WordClass) (bcast : Bool) (d e : DataReg) : Prop :=
  e = d ∨ (c = .long64 ∧ e = dataPair d) ∨
  (bcast = true ∧ ∃ x, d = .r x ∧ (e = .s x ∨ (c = .long64 ∧ e = .s (dataPairOf x))))

/-- DAG register J[m] receives a value from a load of K[n] of a word of class c: K[n], for a long word the pair partner,
and for a B register the I register of the same number (`10_state.md` R19, R121). -/
def IsDagDest (c : WordClass) (k : DagKind) (n : RegNum) (j : DagKind) (m : RegNum) : Prop :=
  (m = n ∨ (c = .long64 ∧ m = pairOf n)) ∧ (j = k ∨ (k = .b ∧ j = .i))

/-- MODE1, MMASK and STKYy are as they were. -/
def SameModes (s t : State) : Prop :=
  t.mode1 = s.mode1 ∧ t.mmaskCbufen = s.mmaskCbufen ∧ t.stkyy = s.stkyy

/-- The overflow status and the requests are as they were, but where `mayWrap` holds of the DAG's reporting register. -/
def SameOverflow (s t : State) (mayWrap : RegNum → Prop) : Prop :=
  (mayWrap 7 ∨ (t.stkyx.cb7s = s.stkyx.cb7s ∧ t.latch.cb7i = s.latch.cb7i)) ∧
  (mayWrap 15 ∨ (t.stkyx.cb15s = s.stkyx.cb15s ∧ t.latch.cb15i = s.latch.cb15i))

/-- The overflow status and the requests of t are those of s1, the state after the address has been put out
(`41_circular_buffer.md` R99). -/
def OverflowOf (s1 t : State) : Prop :=
  t.stkyx = s1.stkyx ∧ t.latch = s1.latch

/-- The overflow status and the requests are as they were, but set for I7 where `wrap7` holds and for I15 where `wrap15`
holds (`41_circular_buffer.md` R99). -/
def OverflowSetBy (s t : State) (wrap7 wrap15 : Prop) : Prop :=
  (t.stkyx.cb7s = true ↔ s.stkyx.cb7s = true ∨ wrap7) ∧ (t.latch.cb7i = true ↔ s.latch.cb7i = true ∨ wrap7) ∧
  (t.stkyx.cb15s = true ↔ s.stkyx.cb15s = true ∨ wrap15) ∧ (t.latch.cb15i = true ↔ s.latch.cb15i = true ∨ wrap15)

/-- I[n] is in the buffer that B[n] and L[n] give, and these two are as they were (`41_circular_buffer.md` R87). -/
def StaysInBuffer (s t : State) (n : RegNum) : Prop :=
  t.bReg[n] = s.bReg[n] ∧ t.lReg[n] = s.lReg[n] ∧
  t.bReg[n].toNat ≤ t.iReg[n].toNat ∧ t.iReg[n].toNat < t.bReg[n].toNat + t.lReg[n].toNat

/-- Every byte of memory outside `n` bytes from `a` on reads as it did. -/
def SameMemoryOutside (s t : State) (a n : Nat) : Prop :=
  ∀ k, k < a ∨ a + n ≤ k → readByte t.mem k = readByte s.mem k

/-- Every byte of memory reads as it did. -/
def SameMemory (s t : State) : Prop :=
  ∀ k, readByte t.mem k = readByte s.mem k

/-- The program text, the platform and the interrupt schedule are as they were. -/
def SameEnvironment (s t : State) : Prop :=
  t.program = s.program ∧ t.platform = s.platform ∧ t.events = s.events

/-- Every DAG register but those `touched` is as it was. -/
def SameDagBut (s t : State) (touched : DagKind → RegNum → Prop) : Prop :=
  ∀ k n, touched k n ∨ readDag t k n = readDag s k n

/-- Every data register but those `touched` is as it was. -/
def SameDataBut (s t : State) (touched : DataReg → Prop) : Prop :=
  ∀ d, touched d ∨ readData t d = readData s d

/-- No bit of MODE1 that was clear is set. -/
def NoModeBitSet (s t : State) : Prop :=
  (t.mode1.cbufen = true → s.mode1.cbufen = true) ∧ (t.mode1.bdcst1 = true → s.mode1.bdcst1 = true) ∧
  (t.mode1.bdcst9 = true → s.mode1.bdcst9 = true) ∧ (t.mode1.peyen = true → s.mode1.peyen = true) ∧
  (t.mode1.br0 = true → s.mode1.br0 = true) ∧ (t.mode1.br8 = true → s.mode1.br8 = true)

/-- Each field of MODE1 but CBUFEN keeps its value or is cleared (`41_circular_buffer.md` R98). -/
def KeptOrCleared (s t : State) : Prop :=
  (t.mode1.bdcst1 = s.mode1.bdcst1 ∨ t.mode1.bdcst1 = false) ∧
  (t.mode1.bdcst9 = s.mode1.bdcst9 ∨ t.mode1.bdcst9 = false) ∧
  (t.mode1.peyen = s.mode1.peyen ∨ t.mode1.peyen = false) ∧
  (t.mode1.br0 = s.mode1.br0 ∨ t.mode1.br0 = false) ∧
  (t.mode1.br8 = s.mode1.br8 ∨ t.mode1.br8 = false)

/-- The broadcast bits at given values. -/
def withBroadcast (s : State) (b1 b9 : Bool) : State :=
  { s with mode1 := { s.mode1 with bdcst1 := b1, bdcst9 := b9 } }

/-- CBUFEN at a given value. -/
def withCbufen (s : State) (cb : Bool) : State :=
  { s with mode1 := { s.mode1 with cbufen := cb } }

/-- An answer with its next state changed by f. -/
def mapNext (f : State → State) (o : Res State) : Res State :=
  match o with
  | .next t => .next (f t)
  | .fault r => .fault r
  | .refused r => .refused r

end Sys2Proof.Machine
end

