-- ==== Sys2Proof/Certificates/Slice0/Obligations.lean ====
section
/-! DEFINITION. The statements for the provers: what the machine and its instructions do, from the numbered rules of
spec/, and which parts of the statements rest on a choice of the model (a log entry) or of the spec (a decision D<n>). -/

open Sys2Proof Sys2Proof.Machine

/-! ## Text, fetch and step -/

/-- The decoder reads back what the encoder writes, for every instruction, every field write and every instruction under a
condition; a register move under one reads as the move that has it among its operands (R65). The text is the model's stand-in
for an encoding (R59: the spec gives none; R61 to R66 give the grammar; log entries 10, 12, 13). -/
def Obligations.TextRoundTrip : Prop :=
  (∀ i, decode (encode i) = .ok (.instr i)) ∧
  (∀ f b, decode (encodeStatement (.setField f b)) = .ok (.setField f b)) ∧
  (∀ c i, decode (encodeStatement (.cond c i)) = .ok (i.under c))

/-- The code lines of the source and a line of each other family decode to the instructions they stand for, IF with a condition
before two of them to the same under that condition (`30_encoding.md` R61 to R66, R74 to R86, `95_test_vectors.md`; the
spellings the source does not give, such as those of the jump, of the bit-reverse instruction and of IF, are general
knowledge: log entry 13). -/
def Obligations.SpecTextsDecode : Prop :=
  decode (bytesOf "L2=8 ;") = .ok (.instr (.dagregLoadImm .l 2 8)) ∧
  decode (bytesOf "DM( I0 , M1 ) =R1 ;") = .ok (.instr (.storePostM .dm 0 1 (.data (.r 1)))) ∧
  decode (bytesOf "I0=8 ;") = .ok (.instr (.dagregLoadImm .i 0 8)) ∧
  decode (bytesOf "R0 = DM(M2, I1);") = .ok (.instr (.loadPreM (.data (.r 0)) .dm 2 1)) ∧
  decode (bytesOf "MODIFY(I9, -4);") = .ok (.instr (.modifyImm 9 (-4))) ∧
  decode (bytesOf "R0 = DM(I1, M2), R4 = PM(I9, M8);") =
    .ok (.instr (.dualMove { dir := .load, reg := .data (.r 0), mode := .post, idx := 1, modifier := .reg 2 }
      { dir := .load, reg := .data (.r 4), mode := .post, idx := 9, modifier := .reg 8 })) ∧
  decode (bytesOf "BITREV(I1, 8);") = .ok (.instr (.bitrevImm 1 8)) ∧
  decode (bytesOf "I4 = R5;") = .ok (.instr (.uregMove none (.dag .i 4) (.data (.r 5)))) ∧
  decode (bytesOf "JUMP (M8, I12);") = .ok (.instr (.jumpIndirect 8 12)) ∧
  decode (bytesOf "PUSH STS;") = .ok (.instr .pushSts) ∧
  decode (bytesOf "IF EQ R0 = DM(I1, M2);") =
    .ok (.cond { head := 4, tail := [16] } (.loadPostM (.data (.r 0)) .dm 1 2)) ∧
  decode (bytesOf "IF NE I2 = R1;") = .ok (.instr (.uregMove (some { head := 13, tail := [4] }) (.dag .i 2) (.data (.r 1))))

/-- With no interrupt arriving, a step at a text that decodes to an instruction is exec of that instruction, and at a
field write is SetField and the next statement (R27, R33). An instruction under a condition is exec of it, or, where the
condition does not hold and the form may be passed over, the next statement and nothing else (R65; `ConditionOutcome` says
when it holds; log entry 44). All of it is at `popEvent s`: the head of the schedule has been consumed, or the draw of a
free arrival (log entry 17). -/
def Obligations.StepRunsDecodedStatement : Prop :=
  ∀ s text, arriving s = none → fetch s = some text →
    (∀ i, decode text = .ok (.instr i) → step s = exec i (popEvent s)) ∧
    (∀ c i, decode text = .ok (.cond c i) →
      (skippable (afterCond (popEvent s) c) i = true → holdsFor (popEvent s) c = false →
        step s = .next (advance (afterCond (popEvent s) c))) ∧
      (skippable (afterCond (popEvent s) c) i = false ∨ holdsFor (popEvent s) c = true →
        step s = exec i (afterCond (popEvent s) c))) ∧
    (∀ f b, decode text = .ok (.setField f b) → step s = .next (advance (setField f b (popEvent s)))) ∧
    (∀ e es, s.events = e :: es → popEvent s = { s with events := es }) ∧
    (s.events = [] → popEvent s = if s.platform.interrupts then { s with draws := s.draws + 1 } else s)

/-- Text that is no statement is refused as unknownInstruction (R67); where the program text has no statement at the
program counter the step stops with noStatement (log entry 10). -/
def Obligations.StepStopsOnOtherText : Prop :=
  ∀ s, arriving s = none →
    (∀ text e, fetch s = some text → decode text = .error e → step s = .refused .unknownInstruction) ∧
    (fetch s = none → step s = .fault .noStatement)

/-- The text placed for the next step is the one it fetches, with no interrupt before it (log entry 11). -/
def Obligations.PlacedTextIsFetched : Prop :=
  ∀ s text, fetch (withText s text) = some text ∧ arriving (withText s text) = none

/-- A step with an interrupt arriving is its entry, with the arrival consumed (R125); the program counter stays, since the
spec gives no vector. Where the platform lets interrupts occur, what arrives is what the head of the schedule says, or, where
the schedule is empty, a free arrival; elsewhere nothing does (log entry 17). -/
def Obligations.StepEntersInterrupt : Prop :=
  ∀ s,
    (∀ kind, arriving s = some kind →
      step s = .next (irqEntry kind (popEvent s)) ∧ (irqEntry kind (popEvent s)).pc = s.pc) ∧
    (∀ e es, s.platform.interrupts = true → s.events = e :: es → arriving s = e) ∧
    (s.platform.interrupts = true → s.events = [] → arriving s = Config.freeArrival s.draws) ∧
    (s.platform.interrupts = false → arriving s = none)

/-! ## Reset -/

/-- Both broadcast bits are clear after chip reset (`10_state.md` R36). -/
def Obligations.ResetClearsBroadcast : Prop :=
  State.reset.mode1.bdcst1 = false ∧ State.reset.mode1.bdcst9 = false

/-- Memory lists nothing after reset, which is its canonical form (log entry 6). -/
def Obligations.ResetMemoryCanonical : Prop :=
  Memory.wf State.reset.mem ∧ ∀ k, readByte State.reset.mem k = none

/-! ## Rules of the whole machine -/

/-- Every step keeps the canonical form of memory (log entry 6). -/
def Obligations.StepKeepsMemoryCanonical : Prop :=
  ∀ s t, Memory.wf s.mem → step s = .next t → Memory.wf t.mem

/-- No step writes the program text or the platform's parameters (R57, `00_scope.md` R8). -/
def Obligations.StepKeepsProgramAndPlatform : Prop :=
  ∀ s t, step s = .next t → t.program = s.program ∧ t.platform = s.platform

/-- Where an instruction changes B[n], by whatever transfer, I[n] holds the value B[n] then holds (R19). -/
def Obligations.BaseChangeLoadsIndex : Prop :=
  ∀ i s t, exec i s = .next t → ∀ n : RegNum, t.bReg[n] ≠ s.bReg[n] → t.iReg[n] = t.bReg[n]

/-- No instruction clears an overflow status bit or a latched request (R24 sticky, R99; D26). -/
def Obligations.OverflowStatusSticky : Prop :=
  ∀ i s t, exec i s = .next t →
    (s.stkyx.cb7s = true → t.stkyx.cb7s = true) ∧ (s.stkyx.cb15s = true → t.stkyx.cb15s = true) ∧
    (s.latch.cb7i = true → t.latch.cb7i = true) ∧ (s.latch.cb15i = true → t.latch.cb15i = true)

/-- An instruction that does not update I7 leaves CB7S and CB7I, one that does not update I15 leaves CB15S and CB15I
(R99: a wrap of any other index register sets nothing; D26). -/
def Obligations.OnlyReportingIndexSetsOverflow : Prop :=
  ∀ i s t, exec i s = .next t → SameOverflow s t (fun n => updatesIndex n i = true)

/-- Of the instructions only PUSH.STS changes MODE1, and neither an instruction nor the entry of an interrupt sets a bit of
MODE1 or changes MMASK or STKYy (R22, R23, R98, R99, R126). -/
def Obligations.ModeBitsNeverSet : Prop :=
  (∀ i s t, exec i s = .next t →
    (i = .pushSts ∨ t.mode1 = s.mode1) ∧ t.mmaskCbufen = s.mmaskCbufen ∧ t.stkyy = s.stkyy ∧ NoModeBitSet s t) ∧
  (∀ kind s, NoModeBitSet s (irqEntry kind s) ∧
    (irqEntry kind s).mmaskCbufen = s.mmaskCbufen ∧ (irqEntry kind s).stkyy = s.stkyy)

/-- Every instruction that completes goes on to the next statement (R33, D2). -/
def Obligations.CompletionAdvancesPc : Prop :=
  ∀ i s t, exec i s = .next t → t.pc = s.pc + 1

/-- A form whose operands are not of its classes never completes: it is refused (R67, R71, R82, R114). So is every form that a
condition may not pass over, whether or not the condition holds: one with an immediate that does not fit (R64), one with a
memory operand in SIMD mode (R85, R111) and JUMP.INDIRECT (R86; log entry 44). -/
def Obligations.IllFormedIsRefused : Prop :=
  ∀ i s,
    (i.wellFormed = false → ∃ r, exec i s = .refused r) ∧
    (skippable s i = false → ∃ r, exec i s = .refused r)

/-! ## Address output -/

/-- Post-modify: the address put out is that of the old I[n], I[n] becomes the value of `Next` and no other DAG register
changes. With circular buffering not in force it always answers, I[n] becomes the sum modulo 2^32 and no status changes (R72).
The address is that of OutAddr (R102; D12, log entry 27), a length of zero is circular buffering not in force (R93; D8, log
entry 25), and that the plain sum leaves STKYx and the requests as they were is R99's (D26, log entry 26): three clauses that
rest on what the spec marks as decided, not on R72 alone. -/
def Obligations.PostModifyOldIndexOut : Prop :=
  ∀ s n m,
    (∀ a t, postModify s n m = .next (a, t) → a = outAddr s n s.iReg[n] ∧
      (∃ u, nextIndex s n m (circLS s n) = .next u ∧ t.iReg[n] = u.value) ∧
      SameDagBut s t (fun k j => k = .i ∧ j = n) ∧ t.mem = s.mem) ∧
    (circLS s n = false →
      ∃ t, postModify s n m = .next (outAddr s n s.iReg[n], t) ∧ t.iReg[n] = s.iReg[n] + m ∧
        t.stkyx = s.stkyx ∧ t.latch = s.latch)

/-- Post-modify with circular buffering in force, outside bit-reverse mode and in the domain of the circular update: the
address is the old I[n], I[n] becomes the circular value, and a wrap of I7 or I15 is reported (R72, R90, R99). -/
def Obligations.PostModifyCircular : Prop :=
  ∀ s (n : RegNum) m, circLS s n = true → bitReversed s n = false →
    CircularDomain s.iReg[n] s.bReg[n] s.lReg[n] m →
    ∃ t, postModify s n m = .next (s.iReg[n], t) ∧
      ((t.iReg[n].toNat : Int) = circularValue s.iReg[n] s.bReg[n] s.lReg[n] m) ∧
      SameDagBut s t (fun k j => k = .i ∧ j = n) ∧ t.mem = s.mem ∧
      (let wrapped := circularValue s.iReg[n] s.bReg[n] s.lReg[n] m ≠ s.iReg[n].toNat + m.toInt
       (t.stkyx.cb7s = true ↔ s.stkyx.cb7s = true ∨ (n = 7 ∧ wrapped)) ∧
       (t.latch.cb7i = true ↔ s.latch.cb7i = true ∨ (n = 7 ∧ wrapped)) ∧
       (t.stkyx.cb15s = true ↔ s.stkyx.cb15s = true ∨ (n = 15 ∧ wrapped)) ∧
       (t.latch.cb15i = true ↔ s.latch.cb15i = true ∨ (n = 15 ∧ wrapped)))

/-- What the circular update answers is in the buffer, and is the sum or the sum corrected by one length (R87, R90). -/
def Obligations.CircularUpdateStaysInBuffer : Prop :=
  ∀ cur base len m u, circularNext cur base len m = .next u →
    base.toNat ≤ u.value.toNat ∧ u.value.toNat < base.toNat + len.toNat ∧
    ((u.value.toNat : Int) = cur.toNat + m.toInt ∧ u.wrapped = false ∨
     (u.value.toNat : Int) = cur.toNat + m.toInt - len.toNat ∧ 0 ≤ m.toInt ∧ u.wrapped = true ∨
     (u.value.toNat : Int) = cur.toNat + m.toInt + len.toNat ∧ m.toInt < 0 ∧ u.wrapped = true)

/-- The circular update answers exactly on its domain, and is refused by the name of the first condition that fails
elsewhere; a step no longer than the buffer is in the domain (R88, R90, R93, R94; D5, D8, D9). -/
def Obligations.CircularUpdateDomain : Prop :=
  ∀ cur base len m : Word,
    (CircularDomain cur base len m ↔ ∃ u, circularNext cur base len m = .next u) ∧
    (2 ^ 31 ≤ len.toNat → circularNext cur base len m = .refused .lengthNotPositive) ∧
    (len.toNat < 2 ^ 31 → 2 ^ 32 < base.toNat + len.toNat →
      circularNext cur base len m = .refused .bufferPastTopOfSpace) ∧
    (len.toNat < 2 ^ 31 → base.toNat + len.toNat ≤ 2 ^ 32 →
      cur.toNat < base.toNat ∨ base.toNat + len.toNat ≤ cur.toNat →
      circularNext cur base len m = .refused .indexOutsideBuffer) ∧
    (len.toNat < 2 ^ 31 → base.toNat + len.toNat ≤ 2 ^ 32 →
      base.toNat ≤ cur.toNat → cur.toNat < base.toNat + len.toNat → ¬ CircularDomain cur base len m →
      circularNext cur base len m = .refused .stepTooLong) ∧
    (len.toNat < 2 ^ 31 → base.toNat + len.toNat ≤ 2 ^ 32 →
      base.toNat ≤ cur.toNat → cur.toNat < base.toNat + len.toNat → m.toInt.natAbs ≤ len.toNat →
      CircularDomain cur base len m)

/-- Pre-modify puts out the sum modulo 2^32 and writes nothing; through an index register with circular buffering in
force it is refused (R73, R95; D7, D10). -/
def Obligations.PreModifyWritesNothing : Prop :=
  ∀ s n m,
    (circLS s n = false → preModify s n m = .next (outAddr s n (s.iReg[n] + m), s)) ∧
    (circLS s n = true → preModify s n m = .refused .preModifyOnCircularIndex)

/-- Bit-reverse mode reverses the address put out through I0 under BR0 and through I8 under BR8, and no other; with
circular buffering in force there a post-modify is refused (R101, R102; D12). -/
def Obligations.BitReversedOutput : Prop :=
  (∀ (v : Word) i, i < 32 → (rev32 v).getLsbD i = v.getLsbD (31 - i)) ∧ (∀ v, rev32 (rev32 v) = v) ∧
  (∀ s n a, outAddr s n a =
    if (n = 0 ∧ s.mode1.br0 = true) ∨ (n = 8 ∧ s.mode1.br8 = true) then rev32 a else a) ∧
  (∀ s n m, bitReversed s n = true → circLS s n = true →
    postModify s n m = .refused .bitReverseWithCircular)

/-- With CBUFEN clear, a post-modify load or store and each side of a dual move adds the modify value to its index
register, whatever B and L hold, and with other values in B and L the address and the update are the same (R91). -/
def Obligations.ClearedCbufenNeverWraps : Prop :=
  ∀ s, s.mode1.cbufen = false →
    (∀ t u bus ia m i, IsLoad s .post u bus ia m i ∨ IsStore s .post u bus ia m i → exec i s = .next t →
      t.iReg[ia] = s.iReg[ia] + m) ∧
    (∀ t x y bx bM, x.modifier = .reg bx → y.modifier = .reg bM → exec (.dualMove x y) s = .next t →
      t.iReg[x.idx] = s.iReg[x.idx] + s.mReg[bx] ∧ t.iReg[y.idx] = s.iReg[y.idx] + s.mReg[bM]) ∧
    (∀ n m bs ls, ∃ a t, postModify s n m = .next (a, t) ∧
      postModify { s with bReg := bs, lReg := ls } n m = .next (a, { t with bReg := bs, lReg := ls }))

/-- With CBUFEN set and L[n] non-zero, the index register of a post-modify load or store that completes, and each of the two
index registers of a dual move that completes, is in its buffer afterwards (R82, R87, R89, R94). -/
def Obligations.CircularIndexStaysInBuffer : Prop :=
  ∀ s t,
    (∀ u bus ia m i, IsLoad s .post u bus ia m i ∨ IsStore s .post u bus ia m i → exec i s = .next t →
      circLS s ia = true → StaysInBuffer s t ia) ∧
    (∀ x y, exec (.dualMove x y) s = .next t →
      (circLS s x.idx = true → StaysInBuffer s t x.idx) ∧ (circLS s y.idx = true → StaysInBuffer s t y.idx))

/-! ## Loads -/

/-- A load into a data register completes, the named register and the pair partner of a long word hold what the word of the
address's class gives them, and the index registers, the overflow status and the requests are those the address output leaves
(R74, R76, R78, R80, R85, R99; the halves of a data register pair are D16, the low eight bits D17, the reporting registers
D26). -/
def Obligations.LoadIntoDataRegister : Prop :=
  ∀ s mode d bus ia m i a s1 pl v, LoadRuns s mode (.data d) bus ia m i a s1 pl v →
    ∃ t, exec i s = .next t ∧ t.pc = s.pc + 1 ∧ t.iReg = s1.iReg ∧ OverflowOf s1 t ∧
      readData t d = namedValue pl.cls v ∧
      (pl.cls = .long64 → readData t (dataPair d) = partnerValue v)

/-- A load of R[x] through I1 on the DM bus with BDCST1 set, or through I9 on the PM bus with BDCST9 set, writes R[x] as
with both bits clear and the same value to S[x], for a long word in both registers of the pair (R105, R106). Any other load of
R[x] leaves PEy's registers as they were: that is the spec's own inference, the sentence of R110 marked [derived], "A load
through any other index register is never broadcast, whatever the bits hold", and its decision in R111 that a load that is
not broadcast writes the PEx register only (D14). -/
def Obligations.BroadcastLoadsBothElements : Prop :=
  ∀ s mode x bus ia m i a s1 pl v, LoadRuns s mode (.data (.r x)) bus ia m i a s1 pl v →
    ∃ t t0, exec i s = .next t ∧ exec i (withBroadcast s false false) = .next t0 ∧ t.rReg = t0.rReg ∧
      t0.sReg = s.sReg ∧
      (let bcast := (bus = .pm ∧ ia = 9 ∧ s.mode1.bdcst9 = true) ∨ (bus = .dm ∧ ia = 1 ∧ s.mode1.bdcst1 = true)
       (bcast → t.sReg[x] = t.rReg[x] ∧ (pl.cls = .long64 → t.sReg[dataPairOf x] = t.rReg[dataPairOf x])) ∧
       (¬ bcast → t.sReg = s.sReg))

/-- A 32-bit normal word transfer of a DAG register: a load completes with all 32 bits of the word in K[n], and for a B
register in I[n]; a store completes with K[n] in the word. The index register of a post-modify form, the overflow status and
the requests are those the address output leaves (R119, R19, R72, R99). -/
def Obligations.NormalWordDagTransfer : Prop :=
  (∀ s mode k n bus ia m i a s1 pl v, LoadRuns s mode (.dag k n) bus ia m i a s1 pl v → pl.cls = .normal32 →
    ∃ t, exec i s = .next t ∧ t.pc = s.pc + 1 ∧ HoldsDag t k n v ∧
      (mode = .post → t.iReg[ia] = s1.iReg[ia]) ∧ OverflowOf s1 t) ∧
  (∀ s mode k n bus ia m i a s1 pl, StoreRuns s mode (.dag k n) bus ia m i a s1 pl → pl.cls = .normal32 →
    ∃ t, exec i s = .next t ∧ t.pc = s.pc + 1 ∧ t.iReg = s1.iReg ∧ OverflowOf s1 t ∧
      readBytes t.mem pl.start 4 = some (readDag s k n).toNat)

/-- A 40-bit word transfer of a DAG register: a load takes bits 39:8 of the word, a store writes K[n] there and zeros below.
The index register of a post-modify form, the overflow status and the requests are those the address output leaves (R120,
R19, R72, R99; the zeros are D17). -/
def Obligations.ExtendedWordDagTransfer : Prop :=
  (∀ s mode k n bus ia m i a s1 pl v, LoadRuns s mode (.dag k n) bus ia m i a s1 pl v → pl.cls = .ext40 →
    ∃ t, exec i s = .next t ∧ t.pc = s.pc + 1 ∧ HoldsDag t k n (v / 2 ^ 8) ∧
      (mode = .post → t.iReg[ia] = s1.iReg[ia]) ∧ OverflowOf s1 t) ∧
  (∀ s mode k n bus ia m i a s1 pl, StoreRuns s mode (.dag k n) bus ia m i a s1 pl → pl.cls = .ext40 →
    ∃ t, exec i s = .next t ∧ t.pc = s.pc + 1 ∧ t.iReg = s1.iReg ∧ OverflowOf s1 t ∧
      readBytes t.mem pl.start 5 = some ((readDag s k n).toNat * 2 ^ 8))

/-- A long word transfer of a DAG register, even or odd: the named register is bits 31:0 of the word and the other register
of its pair bits 63:32, for loads and stores, and the I registers of loaded B registers follow. The index register of a
post-modify form, the overflow status and the requests are those the address output leaves (R121, R19, R72, R99). -/
def Obligations.LongWordDagTransfer : Prop :=
  (∀ s mode k n bus ia m i a s1 pl v, LoadRuns s mode (.dag k n) bus ia m i a s1 pl v → pl.cls = .long64 →
    ∃ t, exec i s = .next t ∧ t.pc = s.pc + 1 ∧ HoldsDag t k n (v % 2 ^ 32) ∧ HoldsDag t k (pairOf n) (v / 2 ^ 32) ∧
      (mode = .post → t.iReg[ia] = s1.iReg[ia]) ∧ OverflowOf s1 t) ∧
  (∀ s mode k n bus ia m i a s1 pl, StoreRuns s mode (.dag k n) bus ia m i a s1 pl → pl.cls = .long64 →
    ∃ t, exec i s = .next t ∧ t.pc = s.pc + 1 ∧ t.iReg = s1.iReg ∧ OverflowOf s1 t ∧
      readBytes t.mem pl.start 8 = some ((readDag s k (pairOf n)).toNat * 2 ^ 32 + (readDag s k n).toNat))

/-- The frame of a load into a data register: nothing changes but the destination registers, I[ia] of a post-modify form
and the overflow status of a wrap (R74, R76, R78, R80, R107). -/
def Obligations.LoadIntoDataFrame : Prop :=
  ∀ s t mode d bus ia m i a s1, IsLoad s mode (.data d) bus ia m i → addressOutput mode s ia m = .next (a, s1) →
    exec i s = .next t →
    SameDataBut s t (IsLoadDest (wordClass s.platform a) (broadcast s bus ia) d) ∧
    SameDagBut s t (fun k n => mode = .post ∧ k = .i ∧ n = ia) ∧ SameModes s t ∧
    SameOverflow s t (fun n => mode = .post ∧ n = ia ∧ circLS s ia = true) ∧
    SameMemory s t ∧ SameEnvironment s t ∧ t.condIn = s.condIn

/-- The frame of a load into a DAG register: nothing changes but the destination registers, I[ia] of a post-modify form and
the overflow status of a wrap; no data register changes, whatever the broadcast bits hold (R107, R119 to R121). -/
def Obligations.LoadIntoDagFrame : Prop :=
  ∀ s t mode k n bus ia m i a s1, IsLoad s mode (.dag k n) bus ia m i → addressOutput mode s ia m = .next (a, s1) →
    exec i s = .next t →
    SameDataBut s t (fun _ => False) ∧
    SameDagBut s t (fun j q => (mode = .post ∧ j = .i ∧ q = ia) ∨ IsDagDest (wordClass s.platform a) k n j q) ∧
    SameModes s t ∧ SameOverflow s t (fun n => mode = .post ∧ n = ia ∧ circLS s ia = true) ∧
    SameMemory s t ∧ SameEnvironment s t ∧ t.condIn = s.condIn

/-- A load from storage another agent may write completes, whatever the memory lists, and the registers any load of its
class writes hold what the free value gives them: the named data register and the pair partner of a long word, under
broadcast those of both elements, or the named DAG register, its pair partner and the I registers of B registers. The index
register of a post-modify form, the overflow status and the requests are those the address output leaves (R53, R72, R85,
R99, R105, R119 to R121; the free value is log entry 20). -/
def Obligations.SharedLoadCompletes : Prop :=
  ∀ s mode u bus ia m i a s1 pl, IsLoad s mode u bus ia m i → isGiven u = true →
    (updates mode && ofDagOf ia u) = false → s.mode1.peyen = false → (broadcast s bus ia && isSReg u) = false →
    addressOutput mode s ia m = .next (a, s1) → dataPlace s.platform bus a = .next pl →
    touches pl s.platform.shared = true →
    ∃ t, exec i s = .next t ∧ t.pc = s.pc + 1 ∧ t.draws = s.draws + 1 ∧
      HoldsLoaded t pl.cls u (broadcast s bus ia) (freeValue s pl).toNat ∧
      ((∃ d, u = .data d) → t.iReg = s1.iReg) ∧ (mode = .post → t.iReg[ia] = s1.iReg[ia]) ∧ OverflowOf s1 t

/-! ## Stores -/

/-- A store completes, and the bytes of the word at the address read as the stored value: of a data register `hi32`, the
whole register or a pair; of a DAG register itself, itself above eight zero bits, or a pair (R75, R77, R79, R81, R85,
R119 to R121; D16, D17). The value is that of the register before the instruction (R54). The index registers, the overflow
status and the requests are those the address output leaves (R72, R99). -/
def Obligations.StoreWritesWord : Prop :=
  ∀ s mode u bus ia m i a s1 pl, StoreRuns s mode u bus ia m i a s1 pl →
    ∃ t, exec i s = .next t ∧ t.pc = s.pc + 1 ∧ t.iReg = s1.iReg ∧ OverflowOf s1 t ∧
      readBytes t.mem pl.start (placeBytes pl) = some (storedValue s pl.cls u)

/-- The frame of a store: no register changes but I[ia] of a post-modify form, no flag but the overflow status of a wrap,
and no byte of memory outside the word at the address put out (R75, R77, R79, R81, R107). -/
def Obligations.StoreFrame : Prop :=
  ∀ s t mode u bus ia m i a s1 pl, IsStore s mode u bus ia m i → addressOutput mode s ia m = .next (a, s1) →
    dataPlace s.platform bus a = .next pl → exec i s = .next t →
    SameDataBut s t (fun _ => False) ∧ SameDagBut s t (fun k n => mode = .post ∧ k = .i ∧ n = ia) ∧
    SameModes s t ∧ SameOverflow s t (fun n => mode = .post ∧ n = ia ∧ circLS s ia = true) ∧
    SameMemoryOutside s t pl.start (placeBytes pl) ∧ SameEnvironment s t ∧ t.condIn = s.condIn ∧ t.draws = s.draws

/-- What a store has written, a load of any register through the same address gives back, on either bus: the loaded registers
hold what the stored word gives them (R53, R85, R119 to R121; one store for both buses is D19, log entry 9). From a data
register to a data register that is `hi32` at a normal word, the whole register at a 40-bit word and `hi32` of both registers
of the pair at a long word; from a DAG register to a DAG register the value, and at a long word the pair's (D16, D17, D22). -/
def Obligations.LoadAfterStore : Prop :=
  ∀ s mode bus ia m i t u a s1 pl mode2 bus2 ib m2 j e s2 t2, StoreRuns s mode u bus ia m i a s1 pl →
    exec i s = .next t → IsLoad t mode2 e bus2 ib m2 j → addressOutput mode2 t ib m2 = .next (a, s2) →
    touches pl s.platform.shared = false → exec j t = .next t2 →
    HoldsLoaded t2 pl.cls e (broadcast t bus2 ib) (storedValue s pl.cls u) ∧
    (∀ d f, u = .data d → e = .data f →
      (pl.cls = .normal32 → readData t2 f = widen (hi32 (readData s d))) ∧
      (pl.cls = .ext40 → readData t2 f = readData s d) ∧
      (pl.cls = .long64 → readData t2 f = widen (hi32 (readData s d)) ∧
        readData t2 (dataPair f) = widen (hi32 (readData s (dataPair d))))) ∧
    (∀ k n k2 n2, u = .dag k n → e = .dag k2 n2 →
      readDag t2 k2 n2 = readDag s k n ∧
      (pl.cls = .long64 → readDag t2 k2 (pairOf n2) = readDag s k (pairOf n)))

/-! ## The dual move -/

/-- A dual move completes where both sides run and the two places are apart or both loaded: both index registers are
updated; the named register of a loading side, and the pair partner of a long word, hold what the word gives them (a free
value where another agent may write the storage) unless the other side loads that register too; a storing side's place holds
the register's value before the instruction; and the overflow status and the requests are as they were, but set for I7 where
the DM side's update of it wraps and for I15 where the PM side's does (R53, R54, R72, R82, R85, R99, R108; the reporting
registers are D26; which side takes the first free value is the model's, log entries 18 and 20). -/
def Obligations.DualMoveCompletes : Prop :=
  ∀ s x y dx dy bx bM ux uy px py vx vy, DualRuns s x y dx dy bx bM ux uy px py vx vy →
    ∃ t, exec (.dualMove x y) s = .next t ∧ t.pc = s.pc + 1 ∧
      t.iReg[x.idx] = ux.value ∧ t.iReg[y.idx] = uy.value ∧
      OverflowSetBy s t (x.idx = 7 ∧ ux.wrapped = true) (y.idx = 15 ∧ uy.wrapped = true) ∧
      (let byDm e := x.dir = .load ∧ IsLoadDest px.cls (broadcast s .dm x.idx) dx e
       let byPm e := y.dir = .load ∧ IsLoadDest py.cls (broadcast s .pm y.idx) dy e
       (x.dir = .load →
         (¬ byPm dx → readData t dx = namedValue px.cls vx) ∧
         (px.cls = .long64 → ¬ byPm (dataPair dx) → readData t (dataPair dx) = partnerValue vx)) ∧
       (y.dir = .load →
         (¬ byDm dy → readData t dy = namedValue py.cls vy) ∧
         (py.cls = .long64 → ¬ byDm (dataPair dy) → readData t (dataPair dy) = partnerValue vy))) ∧
      (x.dir = .store → readBytes t.mem px.start (placeBytes px) = some (storedValue s px.cls (.data dx))) ∧
      (y.dir = .store → readBytes t.mem py.start (placeBytes py) = some (storedValue s py.cls (.data dy)))

/-- Each load of R[x] in a dual move, beside a load or a store, is broadcast by its own bit, the DM side's through I1 by
BDCST1 and the PM side's through I9 by BDCST9: PEy's register of the same number, and of a long word its pair partner, holds
the same part of the word, and a side that is not broadcast leaves it as it was, but where the other side loads that register
too (R82, R108, R109; which half of a long word goes where and the zeros below are D16 and D17, R85, log entry 28). -/
def Obligations.DualMoveBroadcast : Prop :=
  ∀ s x y dx dy bx bM ux uy px py vx vy, DualRuns s x y dx dy bx bM ux uy px py vx vy →
    ∃ t, exec (.dualMove x y) s = .next t ∧
    (let byDm e := x.dir = .load ∧ IsLoadDest px.cls (broadcast s .dm x.idx) dx e
     let byPm e := y.dir = .load ∧ IsLoadDest py.cls (broadcast s .pm y.idx) dy e
     let dmBcast := x.idx = 1 ∧ s.mode1.bdcst1 = true
     let pmBcast := y.idx = 9 ∧ s.mode1.bdcst9 = true
     (∀ q, x.dir = .load → dx = .r q →
       (¬ byPm (.s q) → readData t (.s q) = if dmBcast then namedValue px.cls vx else readData s (.s q)) ∧
       (px.cls = .long64 → ¬ byPm (.s (dataPairOf q)) → readData t (.s (dataPairOf q)) =
         if dmBcast then partnerValue vx else readData s (.s (dataPairOf q)))) ∧
     (∀ q, y.dir = .load → dy = .r q →
       (¬ byDm (.s q) → readData t (.s q) = if pmBcast then namedValue py.cls vy else readData s (.s q)) ∧
       (py.cls = .long64 → ¬ byDm (.s (dataPairOf q)) → readData t (.s (dataPairOf q)) =
         if pmBcast then partnerValue vy else readData s (.s (dataPairOf q)))))

/-- The frame of a dual move: no DAG register changes but the two index registers, no data register but the destinations
of its loads, no byte of memory outside the words its stores write, and no flag but the overflow status of a wrap (R82,
R99). -/
def Obligations.DualMoveFrame : Prop :=
  ∀ s t x y dx dy px py, x.reg = .data dx → y.reg = .data dy → exec (.dualMove x y) s = .next t →
    dataPlace s.platform .dm (outAddr s x.idx s.iReg[x.idx]) = .next px →
    dataPlace s.platform .pm (outAddr s y.idx s.iReg[y.idx]) = .next py →
    SameDagBut s t (fun k n => k = .i ∧ (n = x.idx ∨ n = y.idx)) ∧
    SameDataBut s t (fun e =>
      (x.dir = .load ∧ IsLoadDest px.cls (broadcast s .dm x.idx) dx e) ∨
      (y.dir = .load ∧ IsLoadDest py.cls (broadcast s .pm y.idx) dy e)) ∧
    (∀ k, (x.dir = .store → k < px.start ∨ px.start + placeBytes px ≤ k) →
      (y.dir = .store → k < py.start ∨ py.start + placeBytes py ≤ k) → readByte t.mem k = readByte s.mem k) ∧
    SameModes s t ∧
    SameOverflow s t (fun n => (n = x.idx ∧ circLS s x.idx = true) ∨ (n = y.idx ∧ circLS s y.idx = true)) ∧
    SameEnvironment s t ∧ t.condIn = s.condIn

/-- A dual move of a refused variant, with SIMD mode disabled a double load of one register, and a dual move of one storage
with a store involved are refused by their names (R54, R82; D15, D22; in SIMD mode the refusal is simdMemoryAccess, R85,
log entry 18). -/
def Obligations.DualMoveRefusals : Prop :=
  (∀ s x y, x.mode = .pre ∨ (∃ v, x.modifier = .imm v) ∨ (∀ d, x.reg ≠ .data d) →
    exec (.dualMove x y) s = .refused .dualMoveVariant) ∧
  (∀ s x y, x.dualSide .dm = true → y.mode = .pre ∨ (∃ v, y.modifier = .imm v) ∨ (∀ d, y.reg ≠ .data d) →
    exec (.dualMove x y) s = .refused .dualMoveVariant) ∧
  (∀ s x y, s.mode1.peyen = false → x.dualSide .dm = true → y.dualSide .pm = true → x.dir = .load → y.dir = .load →
    x.reg = y.reg → exec (.dualMove x y) s = .refused .dualLoadSameDest) ∧
  (∀ s x y dx dy bx bM ux uy px py, DualReady s x y dx dy bx bM ux uy →
    dataPlace s.platform .dm (outAddr s x.idx s.iReg[x.idx]) = .next px →
    dataPlace s.platform .pm (outAddr s y.idx s.iReg[y.idx]) = .next py →
    samePlace px py = true → x.dir = .store ∨ y.dir = .store →
    exec (.dualMove x y) s = .refused .dualSameStorage)

/-! ## MODIFY and BITREV -/

/-- MODIFY of an index register with length zero completes with the plain sum (R83, R84, R93; D8). -/
def Obligations.ModifyPlainSum : Prop :=
  ∀ s ia m i, IsModify s ia m i → s.lReg[ia] = 0 →
    ∃ t, exec i s = .next t ∧ t.iReg[ia] = s.iReg[ia] + m ∧ t.pc = s.pc + 1 ∧
      t.stkyx = s.stkyx ∧ t.latch = s.latch

/-- MODIFY executes independent of CBUFEN: with the bit set or clear the answer is the same but for the bit itself; and on
an index register with a buffer it completes with the circular value, and where that is the plain sum it leaves the overflow
status and the requests as they were (R99). That the length alone makes a buffer here is the
spec's own reading of "appropriately configured" (R92; N27, D9), and that the immediate form wraps as well is the model's
(log entry 42). -/
def Obligations.ModifyWrapsWhateverCbufen : Prop :=
  ∀ s ia m i, IsModify s ia m i →
    (∀ cb, exec i (withCbufen s cb) = mapNext (fun t => withCbufen t cb) (exec i s)) ∧
    (s.lReg[ia] ≠ 0 → CircularDomain s.iReg[ia] s.bReg[ia] s.lReg[ia] m →
      ∃ t, exec i s = .next t ∧ t.pc = s.pc + 1 ∧
        (t.iReg[ia].toNat : Int) = circularValue s.iReg[ia] s.bReg[ia] s.lReg[ia] m ∧
        (circularValue s.iReg[ia] s.bReg[ia] s.lReg[ia] m = s.iReg[ia].toNat + m.toInt → OverflowOf s t))

/-- The frame of MODIFY: nothing changes but I[ia], and for a wrap of I7 or I15 the overflow status, which is free (R83,
R84, R99). -/
def Obligations.ModifyFrame : Prop :=
  ∀ s t ia m i, IsModify s ia m i → exec i s = .next t →
    SameDagBut s t (fun k n => k = .i ∧ n = ia) ∧ SameDataBut s t (fun _ => False) ∧ SameModes s t ∧
    SameOverflow s t (fun n => n = ia ∧ s.lReg[ia] ≠ 0) ∧ SameMemory s t ∧ SameEnvironment s t ∧ t.condIn = s.condIn

/-- BITREV completes with the reversed sum where the length is zero, changing I[ia] alone, and is refused where it is not
(R103; D13). -/
def Obligations.BitrevReversesSum : Prop :=
  ∀ s ia imm, immFits s.platform.immWidth.bitrev imm = true →
    (s.lReg[ia] = 0 → ∃ t, exec (.bitrevImm ia imm) s = .next t ∧
      t.iReg[ia] = rev32 (s.iReg[ia] + immWord imm) ∧ t.pc = s.pc + 1 ∧
      SameDagBut s t (fun k n => k = .i ∧ n = ia) ∧ SameDataBut s t (fun _ => False) ∧ SameModes s t ∧
      SameOverflow s t (fun _ => False) ∧ SameMemory s t ∧ SameEnvironment s t ∧ t.condIn = s.condIn ∧
      t.draws = s.draws) ∧
    (s.lReg[ia] ≠ 0 → exec (.bitrevImm ia imm) s = .refused .bitrevOnCircularIndex)

/-! ## Control -/

/-- JUMP.INDIRECT is refused: the spec gives it no meaning (R86). -/
def Obligations.JumpIndirectRefused : Prop :=
  ∀ s md ic, exec (.jumpIndirect md ic) s = .refused .controlTransferNotInSource

/-- PUSH.STS completes: CBUFEN is cleared where MMASK.CBUFEN is set and kept where it is not, each other field of MODE1
keeps its value or is cleared, and nothing else changes but the program counter (R98; the other fields are D34). -/
def Obligations.PushStatusClearsCbufen : Prop :=
  ∀ s, ∃ t, exec .pushSts s = .next t ∧ t.pc = s.pc + 1 ∧
    (s.mmaskCbufen = true → t.mode1.cbufen = false) ∧ (s.mmaskCbufen = false → t.mode1.cbufen = s.mode1.cbufen) ∧
    KeptOrCleared s t ∧ SameDagBut s t (fun _ _ => False) ∧ SameDataBut s t (fun _ => False) ∧
    t.mmaskCbufen = s.mmaskCbufen ∧ t.stkyy = s.stkyy ∧ SameOverflow s t (fun _ => False) ∧
    SameMemory s t ∧ SameEnvironment s t ∧ t.condIn = s.condIn

/-- Interrupt entry: an external, timer or vectored interrupt clears CBUFEN where MMASK.CBUFEN is set; any other keeps or
clears it there; with MMASK.CBUFEN clear it is kept; each other field keeps its value or is cleared, and nothing else
changes (R126; D25, D34). -/
def Obligations.InterruptEntryClearsCbufen : Prop :=
  ∀ s kind,
    (s.mmaskCbufen = true → kind ≠ .other → (irqEntry kind s).mode1.cbufen = false) ∧
    (s.mmaskCbufen = true → kind = .other → (irqEntry kind s).mode1.cbufen = s.mode1.cbufen ∨
      (irqEntry kind s).mode1.cbufen = false) ∧
    (s.mmaskCbufen = false → (irqEntry kind s).mode1.cbufen = s.mode1.cbufen) ∧
    KeptOrCleared s (irqEntry kind s) ∧ SameDagBut s (irqEntry kind s) (fun _ _ => False) ∧
    SameDataBut s (irqEntry kind s) (fun _ => False) ∧ (irqEntry kind s).mmaskCbufen = s.mmaskCbufen ∧
    (irqEntry kind s).stkyy = s.stkyy ∧ SameOverflow s (irqEntry kind s) (fun _ => False) ∧
    SameMemory s (irqEntry kind s) ∧ SameEnvironment s (irqEntry kind s) ∧
    (irqEntry kind s).condIn = s.condIn ∧ (irqEntry kind s).pc = s.pc

/-- SetField writes the named field and nothing else: no other field, register, request or byte of memory, no parameter and no
input, and not the program counter, which the step around it moves on (R27). -/
def Obligations.SetFieldWritesOneField : Prop :=
  ∀ s f b, getField f (setField f b s) = b ∧ (∀ g, g ≠ f → getField g (setField f b s) = getField g s) ∧
    SameDagBut s (setField f b s) (fun _ _ => False) ∧ SameDataBut s (setField f b s) (fun _ => False) ∧
    (setField f b s).stkyy = s.stkyy ∧ (setField f b s).latch = s.latch ∧ SameMemory s (setField f b s) ∧
    SameEnvironment s (setField f b s) ∧ (setField f b s).pc = s.pc ∧ (setField f b s).condIn = s.condIn ∧
    (setField f b s).draws = s.draws

/-! ## Register transfers -/

/-- An immediate load completes: K[n] holds the immediate's 32 bits, and for a B register I[n] too; nothing else changes;
an immediate that does not fit is refused. The width of the immediate, its fit and its sign extension are the spec's decision
D11 (log entry 41; R19, R64, R113). -/
def Obligations.LoadImmediate : Prop :=
  ∀ s k n imm,
    (immFits s.platform.immWidth.loadImm imm = true → ∃ t, exec (.dagregLoadImm k n imm) s = .next t ∧
      readDag t k n = immWord imm ∧ (k = .b → readDag t .i n = immWord imm) ∧ t.pc = s.pc + 1 ∧
      SameDagBut s t (fun j q => q = n ∧ (j = k ∨ (k = .b ∧ j = .i))) ∧ SameDataBut s t (fun _ => False) ∧
      SameModes s t ∧ SameOverflow s t (fun _ => False) ∧ SameMemory s t ∧ SameEnvironment s t ∧
      t.condIn = s.condIn ∧ t.draws = s.draws) ∧
    (immFits s.platform.immWidth.loadImm imm = false →
      exec (.dagregLoadImm k n imm) s = .refused .immediateTooWide)

/-- A move from a data register to a DAG register completes. With condX it takes R[x].hi32, whether or not condY holds;
without condX it takes S[x].hi32 in SIMD mode where condY holds, and is no write otherwise; both hold where no condition
is written; no flag changes (R114, R117). -/
def Obligations.MoveDataToDag : Prop :=
  ∀ s c k n x, ∃ t, exec (.uregMove c (.dag k n) (.data (.r x))) s = .next t ∧ t.pc = s.pc + 1 ∧
    ((condOutcome s c).1 = true → readDag t k n = hi32 s.rReg[x] ∧ (k = .b → readDag t .i n = hi32 s.rReg[x])) ∧
    ((condOutcome s c).1 = false → s.mode1.peyen = true → (condOutcome s c).2 = true →
      readDag t k n = hi32 s.sReg[x] ∧ (k = .b → readDag t .i n = hi32 s.sReg[x])) ∧
    ((condOutcome s c).1 = false → s.mode1.peyen = false ∨ (condOutcome s c).2 = false →
      SameDagBut s t (fun _ _ => False)) ∧
    SameDagBut s t (fun j q => q = n ∧ (j = k ∨ (k = .b ∧ j = .i))) ∧
    (c = none → condOutcome s c = (true, true)) ∧ SameOverflow s t (fun _ => False)

/-- A move from a DAG register to a data register completes: R[x] takes the DAG register above eight zero bits where
condX holds, S[x] the same in SIMD mode where condY holds, and no other data register changes (R114, R116; the zeros are
D17, the condition of each element D33). -/
def Obligations.MoveDagToData : Prop :=
  ∀ s c k n x, ∃ t, exec (.uregMove c (.data (.r x)) (.dag k n)) s = .next t ∧ t.pc = s.pc + 1 ∧
    t.rReg[x] = (if (condOutcome s c).1 = true then widen (readDag s k n) else s.rReg[x]) ∧
    t.sReg[x] =
      (if s.mode1.peyen = true ∧ (condOutcome s c).2 = true then widen (readDag s k n) else s.sReg[x]) ∧
    SameDataBut s t (fun d => d = .r x ∨ d = .s x) ∧ SameDagBut s t (fun _ _ => False)

/-- A move between DAG registers completes, the same with SIMD mode enabled and disabled (R114, R118). -/
def Obligations.MoveDagToDag : Prop :=
  ∀ s c k n j q pe, ∃ t,
    exec (.uregMove c (.dag k n) (.dag j q)) { s with mode1 := { s.mode1 with peyen := pe } } = .next t ∧
    t.pc = s.pc + 1 ∧
    ((condOutcome s c).1 = true →
      readDag t k n = readDag s j q ∧ (k = .b → readDag t .i n = readDag s j q)) ∧
    ((condOutcome s c).1 = false → SameDagBut s t (fun _ _ => False)) ∧
    SameDagBut s t (fun h p => p = n ∧ (h = k ∨ (k = .b ∧ h = .i))) ∧ SameDataBut s t (fun _ => False)

/-- The rest of the frame of every move: no mode, flag, memory byte or parameter changes, and where no condition is
written no input is consumed (R114 to R118). -/
def Obligations.MoveFrame : Prop :=
  ∀ s t c dst src, exec (.uregMove c dst src) s = .next t →
    SameModes s t ∧ SameOverflow s t (fun _ => False) ∧ SameMemory s t ∧ SameEnvironment s t ∧
    (c = none → t.condIn = s.condIn ∧ t.draws = s.draws) ∧
    ((∀ k n, dst ≠ .dag k n) → SameDagBut s t (fun _ _ => False)) ∧
    ((∀ d, dst ≠ .data d) → SameDataBut s t (fun _ => False))

/-- The outcomes of a condition: none written is true in both elements and uses nothing up; a written one takes the next input,
and where none is left, as after reset, two free bits; beside that the state stays as it was (R65; D33, log entries 15 and 16).
An instruction under a condition that is no register move goes ahead as condX says with SIMD mode disabled (D33), as both
outcomes say where they agree, and by one more free bit where they do not (log entry 44). -/
def Obligations.ConditionOutcome : Prop :=
  ∀ s, condOutcome s none = (true, true) ∧ popCond s none = s ∧
    ∀ c,
      (∀ o os, s.condIn = o :: os → condOutcome s (some c) = o ∧ popCond s (some c) = { s with condIn := os }) ∧
      (s.condIn = [] →
        condOutcome s (some c) = (Config.freeBit s.draws, Config.freeBit (s.draws + 1)) ∧
        popCond s (some c) = { s with draws := s.draws + 2 }) ∧
      (let o := condOutcome s (some c)
       let u := popCond s (some c)
       (s.mode1.peyen = false ∨ o.1 = o.2 → holdsFor s c = o.1 ∧ afterCond s c = u) ∧
       (s.mode1.peyen = true → o.1 ≠ o.2 →
         holdsFor s c = Config.freeBit u.draws ∧ afterCond s c = { u with draws := u.draws + 1 }))

/-- The moves the spec gives no meaning to are refused by name: a system register, an S register with SIMD mode disabled,
and, as forms of no stated class, an S register with SIMD mode enabled and a move between data registers (R30, R67,
R114; log entry 22). -/
def Obligations.MoveRefusals : Prop :=
  ∀ s c,
    (∀ q u, exec (.uregMove c (.sys q) u) s = .refused .uregNotModelled ∧
      exec (.uregMove c u (.sys q)) s = .refused .uregNotModelled) ∧
    (∀ k n x, s.mode1.peyen = false →
      exec (.uregMove c (.dag k n) (.data (.s x))) s = .refused .sRegInSisdMove ∧
      exec (.uregMove c (.data (.s x)) (.dag k n)) s = .refused .sRegInSisdMove) ∧
    (∀ k n x, s.mode1.peyen = true →
      exec (.uregMove c (.dag k n) (.data (.s x))) s = .refused .unknownInstruction ∧
      exec (.uregMove c (.data (.s x)) (.dag k n)) s = .refused .unknownInstruction) ∧
    (∀ d e, exec (.uregMove c (.data d) (.data e)) s = .refused .unknownInstruction)

/-! ## Where the access forms stop -/

/-- An I register of the other bus's DAG, or an M register of the other DAG, is refused as wrongDag, in a single access, in
MODIFY and in either side of a dual move of the admitted variant (R18, R71, R82; D4; log entry 18). -/
def Obligations.WrongDagRefused : Prop :=
  (∀ s u bus ia mb imm, dagOf ia ≠ dagOfBus bus →
    exec (.loadPostM u bus ia mb) s = .refused .wrongDag ∧ exec (.storePostM bus ia mb u) s = .refused .wrongDag ∧
    exec (.loadPostImm u bus ia imm) s = .refused .wrongDag ∧
    exec (.storePostImm bus ia imm u) s = .refused .wrongDag ∧
    exec (.loadPreM u bus mb ia) s = .refused .wrongDag ∧ exec (.storePreM bus mb ia u) s = .refused .wrongDag ∧
    exec (.loadPreImm u bus imm ia) s = .refused .wrongDag ∧
    exec (.storePreImm bus imm ia u) s = .refused .wrongDag) ∧
  (∀ s u bus ia mb, dagOf mb ≠ dagOf ia →
    exec (.loadPostM u bus ia mb) s = .refused .wrongDag ∧ exec (.storePostM bus ia mb u) s = .refused .wrongDag ∧
    exec (.loadPreM u bus mb ia) s = .refused .wrongDag ∧ exec (.storePreM bus mb ia u) s = .refused .wrongDag ∧
    exec (.modifyM ia mb) s = .refused .wrongDag) ∧
  (∀ s x y dx dy bx bM, x.reg = .data dx → x.mode = .post → x.modifier = .reg bx →
    y.reg = .data dy → y.mode = .post → y.modifier = .reg bM →
    dagOf x.idx ≠ .dag1 ∨ dagOf bx ≠ .dag1 ∨ dagOf y.idx ≠ .dag2 ∨ dagOf bM ≠ .dag2 →
    exec (.dualMove x y) s = .refused .wrongDag)

/-- An immediate that does not fit its form's width is refused as immediateTooWide (R64, R76; D11). Where another refusal
applies as well (simdMemoryAccess, uregNotModelled, hazardClass2, broadcastToSReg, one of the address update,
bitrevOnCircularIndex), that immediateTooWide comes first is the model's order of the refusals (log entry 18, DESIGN CHOICE);
wrongDag, which that order puts before it, is left out by the premise. -/
def Obligations.WideImmediateRefused : Prop :=
  ∀ s u bus ia imm, dagOf ia = dagOfBus bus →
    (immFits s.platform.immWidth.loadPost imm = false →
      exec (.loadPostImm u bus ia imm) s = .refused .immediateTooWide) ∧
    (immFits s.platform.immWidth.storePost imm = false →
      exec (.storePostImm bus ia imm u) s = .refused .immediateTooWide) ∧
    (immFits s.platform.immWidth.loadPre imm = false →
      exec (.loadPreImm u bus imm ia) s = .refused .immediateTooWide) ∧
    (immFits s.platform.immWidth.storePre imm = false →
      exec (.storePreImm bus imm ia u) s = .refused .immediateTooWide) ∧
    (immFits s.platform.immWidth.modify imm = false → exec (.modifyImm ia imm) s = .refused .immediateTooWide) ∧
    (immFits s.platform.immWidth.bitrev imm = false → exec (.bitrevImm ia imm) s = .refused .immediateTooWide)

/-- With SIMD mode disabled the two shapes of restriction class 2 are refused: a store of a DAG register through its own
DAG, pre-modify or post-modify, and a post-modify load of one (R141; D30; in SIMD mode the refusal is simdMemoryAccess, R85,
log entry 18). -/
def Obligations.HazardClass2Refused : Prop :=
  ∀ s mode bus ia m i k n, s.mode1.peyen = false → dagOf n = dagOf ia →
    (IsStore s mode (.dag k n) bus ia m i → exec i s = .refused .hazardClass2) ∧
    (IsLoad s .post (.dag k n) bus ia m i → exec i s = .refused .hazardClass2)

/-- In SIMD mode every load, store and dual move of admitted operands is refused as simdMemoryAccess, whatever its register;
with it disabled a broadcast load that names an S register is refused, single or a side of a dual move, and an access of a
system register (R30, R82, R85, R111; D14). That only wrongDag, immediateTooWide and dualMoveVariant are tested before simdMemoryAccess is the model's order (log
entry 18). -/
def Obligations.SimdAndBroadcastRefused : Prop :=
  (∀ s mode bus ia m i u, s.mode1.peyen = true → IsLoad s mode u bus ia m i ∨ IsStore s mode u bus ia m i →
    exec i s = .refused .simdMemoryAccess) ∧
  (∀ s x y, s.mode1.peyen = true → x.dualSide .dm = true → y.dualSide .pm = true →
    exec (.dualMove x y) s = .refused .simdMemoryAccess) ∧
  (∀ s mode bus ia m i x, s.mode1.peyen = false → broadcast s bus ia = true →
    IsLoad s mode (.data (.s x)) bus ia m i → exec i s = .refused .broadcastToSReg) ∧
  (∀ s x y, s.mode1.peyen = false → x.dualSide .dm = true → y.dualSide .pm = true → doubleLoad x y = false →
    (x.dir = .load ∧ broadcast s .dm x.idx = true ∧ ∃ q, x.reg = .data (.s q)) ∨
      (y.dir = .load ∧ broadcast s .pm y.idx = true ∧ ∃ q, y.reg = .data (.s q)) →
    exec (.dualMove x y) s = .refused .broadcastToSReg) ∧
  (∀ s mode bus ia m i q, s.mode1.peyen = false → IsLoad s mode (.sys q) bus ia m i ∨ IsStore s mode (.sys q) bus ia m i →
    exec i s = .refused .uregNotModelled)

/-- An access, single or a side of a dual move, whose address output is refused is refused by that name, and so is a MODIFY
whose index update is (R73, R83, R84, R90, R92, R95, R102; D5, D8 to D10, D12; log entry 42). An access the platform does not
admit is stuck, one at a short word address is refused, a store to storage that holds program text is refused, and a load of a
word with a byte nothing has written stops (R52, R57, R85, R122; D23, D24; log entry 6). Of a dual move (R82) the DM side's
address output comes first, then the PM side's, then the DM side's place, the PM side's, the DM side's access and the PM
side's (log entry 18). -/
def Obligations.AccessStops : Prop :=
  (∀ s mode bus ia m i u r, isGiven u = true → s.mode1.peyen = false → AddressRefused s mode ia m r →
    (IsStore s mode u bus ia m i ∧ ofDagOf ia u = false) ∨
      (IsLoad s mode u bus ia m i ∧ (updates mode && ofDagOf ia u) = false ∧
        (broadcast s bus ia && isSReg u) = false) →
    exec i s = .refused r) ∧
  (∀ s x y dx dy bx bM r, DualAdmitted s x y dx dy bx bM →
    (AddressRefused s .post x.idx s.mReg[bx] r → exec (.dualMove x y) s = .refused r) ∧
    (∀ ux, SideReady s .dm x dx bx ux → AddressRefused s .post y.idx s.mReg[bM] r →
      exec (.dualMove x y) s = .refused r)) ∧
  (∀ s ia m i r, IsModify s ia m i → s.lReg[ia] ≠ 0 → UpdateRefused s.iReg[ia] s.bReg[ia] s.lReg[ia] m r →
    exec i s = .refused r) ∧
  (∀ s mode bus ia m i u a s1, isGiven u = true → s.mode1.peyen = false →
    addressOutput mode s ia m = .next (a, s1) →
    (IsStore s mode u bus ia m i ∧ ofDagOf ia u = false) ∨
      (IsLoad s mode u bus ia m i ∧ (updates mode && ofDagOf ia u) = false ∧
        (broadcast s bus ia && isSReg u) = false) →
    (admits s.platform bus a = false → exec i s = .fault (.notAdmitted bus a)) ∧
    (admits s.platform bus a = true → wordClass s.platform a = .short16 →
      exec i s = .refused .shortWordDataPath) ∧
    (∀ pl, dataPlace s.platform bus a = .next pl → touches pl s.platform.text = true →
      IsStore s mode u bus ia m i → exec i s = .refused .storeToProgramText) ∧
    (∀ pl, dataPlace s.platform bus a = .next pl → touches pl s.platform.shared = false →
      readBytes s.mem pl.start (placeBytes pl) = none → IsLoad s mode u bus ia m i →
      exec i s = .fault (.unwrittenMemory a))) ∧
  (∀ s x y dx dy bx bM ux uy, DualReady s x y dx dy bx bM ux uy →
    let ax := outAddr s x.idx s.iReg[x.idx]
    let ay := outAddr s y.idx s.iReg[y.idx]
    let unwritten pl := touches pl s.platform.shared = false ∧ readBytes s.mem pl.start (placeBytes pl) = none
    (admits s.platform .dm ax = false → exec (.dualMove x y) s = .fault (.notAdmitted .dm ax)) ∧
    (admits s.platform .dm ax = true → wordClass s.platform ax = .short16 →
      exec (.dualMove x y) s = .refused .shortWordDataPath) ∧
    (∀ px, dataPlace s.platform .dm ax = .next px →
      (admits s.platform .pm ay = false → exec (.dualMove x y) s = .fault (.notAdmitted .pm ay)) ∧
      (admits s.platform .pm ay = true → wordClass s.platform ay = .short16 →
        exec (.dualMove x y) s = .refused .shortWordDataPath) ∧
      (∀ py, dataPlace s.platform .pm ay = .next py → (samePlace px py && someStore x y) = false →
        (x.dir = .store → touches px s.platform.text = true →
          exec (.dualMove x y) s = .refused .storeToProgramText) ∧
        (x.dir = .load → unwritten px → exec (.dualMove x y) s = .fault (.unwrittenMemory ax)) ∧
        (∀ vx, SideAccesses s .dm x px s.draws vx →
          (y.dir = .store → touches py s.platform.text = true →
            exec (.dualMove x y) s = .refused .storeToProgramText) ∧
          (y.dir = .load → unwritten py → exec (.dualMove x y) s = .fault (.unwrittenMemory ay))))))

/-- The broadcast bits have no effect on stores and on loads whose destination is no data register: with other bits the
answer is the same but for the bits themselves; such a load changes no data register and no DAG register but the named one,
its pair partner for a long word, and the index register (R107). Nor have they an effect on the address computation: that is
the spec's own inference, the sentence of R107 marked [derived], "The address computation and the index update of the access
are the same with and without broadcast". -/
def Obligations.BroadcastSparesOtherTransfers : Prop :=
  ∀ s b1 b9,
    (∀ mode n m a t, addressOutput mode s n m = .next (a, t) →
      addressOutput mode (withBroadcast s b1 b9) n m = .next (a, withBroadcast t b1 b9)) ∧
    (∀ bus mode ia m i u, IsStore s mode u bus ia m i ∨ (IsLoad s mode u bus ia m i ∧ ∀ d, u ≠ .data d) →
      exec i (withBroadcast s b1 b9) = mapNext (fun t => withBroadcast t b1 b9) (exec i s)) ∧
    (∀ x y, x.dir = .store → y.dir = .store →
      exec (.dualMove x y) (withBroadcast s b1 b9) =
        mapNext (fun t => withBroadcast t b1 b9) (exec (.dualMove x y) s)) ∧
    (∀ bus mode ia m i k n a s1 t, IsLoad s mode (.dag k n) bus ia m i →
      addressOutput mode s ia m = .next (a, s1) → exec i s = .next t →
      SameDataBut s t (fun _ => False) ∧
      SameDagBut s t (fun j q => (mode = .post ∧ j = .i ∧ q = ia) ∨ IsDagDest (wordClass s.platform a) k n j q))
end

