-- ==== Sys2Proof/Laws/State.lean ====
section
/-! SUPPORT. One lemma per field per update of State: what each named update leaves as it was. -/

namespace Sys2Proof.Machine

/-! A DAG register write changes no other kind of state. -/

@[simp] theorem writeDag_rReg (s : State) (k : DagKind) (n : RegNum) (v : Word) :
    (writeDag s k n v).rReg = s.rReg := by cases k <;> rfl

@[simp] theorem writeDag_sReg (s : State) (k : DagKind) (n : RegNum) (v : Word) :
    (writeDag s k n v).sReg = s.sReg := by cases k <;> rfl

@[simp] theorem writeDag_mode1 (s : State) (k : DagKind) (n : RegNum) (v : Word) :
    (writeDag s k n v).mode1 = s.mode1 := by cases k <;> rfl

@[simp] theorem writeDag_mmaskCbufen (s : State) (k : DagKind) (n : RegNum) (v : Word) :
    (writeDag s k n v).mmaskCbufen = s.mmaskCbufen := by cases k <;> rfl

@[simp] theorem writeDag_stkyx (s : State) (k : DagKind) (n : RegNum) (v : Word) :
    (writeDag s k n v).stkyx = s.stkyx := by cases k <;> rfl

@[simp] theorem writeDag_stkyy (s : State) (k : DagKind) (n : RegNum) (v : Word) :
    (writeDag s k n v).stkyy = s.stkyy := by cases k <;> rfl

@[simp] theorem writeDag_latch (s : State) (k : DagKind) (n : RegNum) (v : Word) :
    (writeDag s k n v).latch = s.latch := by cases k <;> rfl

@[simp] theorem writeDag_pc (s : State) (k : DagKind) (n : RegNum) (v : Word) :
    (writeDag s k n v).pc = s.pc := by cases k <;> rfl

@[simp] theorem writeDag_mem (s : State) (k : DagKind) (n : RegNum) (v : Word) :
    (writeDag s k n v).mem = s.mem := by cases k <;> rfl

@[simp] theorem writeDag_program (s : State) (k : DagKind) (n : RegNum) (v : Word) :
    (writeDag s k n v).program = s.program := by cases k <;> rfl

@[simp] theorem writeDag_platform (s : State) (k : DagKind) (n : RegNum) (v : Word) :
    (writeDag s k n v).platform = s.platform := by cases k <;> rfl

@[simp] theorem writeDag_events (s : State) (k : DagKind) (n : RegNum) (v : Word) :
    (writeDag s k n v).events = s.events := by cases k <;> rfl

@[simp] theorem writeDag_condIn (s : State) (k : DagKind) (n : RegNum) (v : Word) :
    (writeDag s k n v).condIn = s.condIn := by cases k <;> rfl

@[simp] theorem writeDag_draws (s : State) (k : DagKind) (n : RegNum) (v : Word) :
    (writeDag s k n v).draws = s.draws := by cases k <;> rfl

/-! A data register write changes no other kind of state. -/

@[simp] theorem writeData_iReg (s : State) (d : DataReg) (v : Data) :
    (writeData s d v).iReg = s.iReg := by cases d <;> rfl

@[simp] theorem writeData_mReg (s : State) (d : DataReg) (v : Data) :
    (writeData s d v).mReg = s.mReg := by cases d <;> rfl

@[simp] theorem writeData_lReg (s : State) (d : DataReg) (v : Data) :
    (writeData s d v).lReg = s.lReg := by cases d <;> rfl

@[simp] theorem writeData_bReg (s : State) (d : DataReg) (v : Data) :
    (writeData s d v).bReg = s.bReg := by cases d <;> rfl

@[simp] theorem writeData_mode1 (s : State) (d : DataReg) (v : Data) :
    (writeData s d v).mode1 = s.mode1 := by cases d <;> rfl

@[simp] theorem writeData_mmaskCbufen (s : State) (d : DataReg) (v : Data) :
    (writeData s d v).mmaskCbufen = s.mmaskCbufen := by cases d <;> rfl

@[simp] theorem writeData_stkyx (s : State) (d : DataReg) (v : Data) :
    (writeData s d v).stkyx = s.stkyx := by cases d <;> rfl

@[simp] theorem writeData_stkyy (s : State) (d : DataReg) (v : Data) :
    (writeData s d v).stkyy = s.stkyy := by cases d <;> rfl

@[simp] theorem writeData_latch (s : State) (d : DataReg) (v : Data) :
    (writeData s d v).latch = s.latch := by cases d <;> rfl

@[simp] theorem writeData_pc (s : State) (d : DataReg) (v : Data) :
    (writeData s d v).pc = s.pc := by cases d <;> rfl

@[simp] theorem writeData_mem (s : State) (d : DataReg) (v : Data) :
    (writeData s d v).mem = s.mem := by cases d <;> rfl

@[simp] theorem writeData_program (s : State) (d : DataReg) (v : Data) :
    (writeData s d v).program = s.program := by cases d <;> rfl

@[simp] theorem writeData_platform (s : State) (d : DataReg) (v : Data) :
    (writeData s d v).platform = s.platform := by cases d <;> rfl

@[simp] theorem writeData_events (s : State) (d : DataReg) (v : Data) :
    (writeData s d v).events = s.events := by cases d <;> rfl

@[simp] theorem writeData_condIn (s : State) (d : DataReg) (v : Data) :
    (writeData s d v).condIn = s.condIn := by cases d <;> rfl

@[simp] theorem writeData_draws (s : State) (d : DataReg) (v : Data) :
    (writeData s d v).draws = s.draws := by cases d <;> rfl

/-! Going on to the next statement changes the program counter alone. -/

@[simp] theorem advance_iReg (s : State) :
    (advance s).iReg = s.iReg := rfl

@[simp] theorem advance_mReg (s : State) :
    (advance s).mReg = s.mReg := rfl

@[simp] theorem advance_lReg (s : State) :
    (advance s).lReg = s.lReg := rfl

@[simp] theorem advance_bReg (s : State) :
    (advance s).bReg = s.bReg := rfl

@[simp] theorem advance_rReg (s : State) :
    (advance s).rReg = s.rReg := rfl

@[simp] theorem advance_sReg (s : State) :
    (advance s).sReg = s.sReg := rfl

@[simp] theorem advance_mode1 (s : State) :
    (advance s).mode1 = s.mode1 := rfl

@[simp] theorem advance_mmaskCbufen (s : State) :
    (advance s).mmaskCbufen = s.mmaskCbufen := rfl

@[simp] theorem advance_stkyx (s : State) :
    (advance s).stkyx = s.stkyx := rfl

@[simp] theorem advance_stkyy (s : State) :
    (advance s).stkyy = s.stkyy := rfl

@[simp] theorem advance_latch (s : State) :
    (advance s).latch = s.latch := rfl

@[simp] theorem advance_mem (s : State) :
    (advance s).mem = s.mem := rfl

@[simp] theorem advance_program (s : State) :
    (advance s).program = s.program := rfl

@[simp] theorem advance_platform (s : State) :
    (advance s).platform = s.platform := rfl

@[simp] theorem advance_events (s : State) :
    (advance s).events = s.events := rfl

@[simp] theorem advance_condIn (s : State) :
    (advance s).condIn = s.condIn := rfl

@[simp] theorem advance_draws (s : State) :
    (advance s).draws = s.draws := rfl

/-! A field write changes no other kind of state. -/

@[simp] theorem setField_iReg (f : SysField) (b : Bool) (s : State) :
    (setField f b s).iReg = s.iReg := by cases f <;> rfl

@[simp] theorem setField_mReg (f : SysField) (b : Bool) (s : State) :
    (setField f b s).mReg = s.mReg := by cases f <;> rfl

@[simp] theorem setField_lReg (f : SysField) (b : Bool) (s : State) :
    (setField f b s).lReg = s.lReg := by cases f <;> rfl

@[simp] theorem setField_bReg (f : SysField) (b : Bool) (s : State) :
    (setField f b s).bReg = s.bReg := by cases f <;> rfl

@[simp] theorem setField_rReg (f : SysField) (b : Bool) (s : State) :
    (setField f b s).rReg = s.rReg := by cases f <;> rfl

@[simp] theorem setField_sReg (f : SysField) (b : Bool) (s : State) :
    (setField f b s).sReg = s.sReg := by cases f <;> rfl

@[simp] theorem setField_stkyy (f : SysField) (b : Bool) (s : State) :
    (setField f b s).stkyy = s.stkyy := by cases f <;> rfl

@[simp] theorem setField_latch (f : SysField) (b : Bool) (s : State) :
    (setField f b s).latch = s.latch := by cases f <;> rfl

@[simp] theorem setField_pc (f : SysField) (b : Bool) (s : State) :
    (setField f b s).pc = s.pc := by cases f <;> rfl

@[simp] theorem setField_mem (f : SysField) (b : Bool) (s : State) :
    (setField f b s).mem = s.mem := by cases f <;> rfl

@[simp] theorem setField_program (f : SysField) (b : Bool) (s : State) :
    (setField f b s).program = s.program := by cases f <;> rfl

@[simp] theorem setField_platform (f : SysField) (b : Bool) (s : State) :
    (setField f b s).platform = s.platform := by cases f <;> rfl

@[simp] theorem setField_events (f : SysField) (b : Bool) (s : State) :
    (setField f b s).events = s.events := by cases f <;> rfl

@[simp] theorem setField_condIn (f : SysField) (b : Bool) (s : State) :
    (setField f b s).condIn = s.condIn := by cases f <;> rfl

@[simp] theorem setField_draws (f : SysField) (b : Bool) (s : State) :
    (setField f b s).draws = s.draws := by cases f <;> rfl

/-! Overflow status changes STKYx and the latch alone. -/

@[simp] theorem noteOverflow_iReg (s : State) (n : RegNum) (w : Bool) :
    (noteOverflow s n w).iReg = s.iReg := by unfold noteOverflow; split <;> [rfl; (split <;> rfl)]

@[simp] theorem noteOverflow_mReg (s : State) (n : RegNum) (w : Bool) :
    (noteOverflow s n w).mReg = s.mReg := by unfold noteOverflow; split <;> [rfl; (split <;> rfl)]

@[simp] theorem noteOverflow_lReg (s : State) (n : RegNum) (w : Bool) :
    (noteOverflow s n w).lReg = s.lReg := by unfold noteOverflow; split <;> [rfl; (split <;> rfl)]

@[simp] theorem noteOverflow_bReg (s : State) (n : RegNum) (w : Bool) :
    (noteOverflow s n w).bReg = s.bReg := by unfold noteOverflow; split <;> [rfl; (split <;> rfl)]

@[simp] theorem noteOverflow_rReg (s : State) (n : RegNum) (w : Bool) :
    (noteOverflow s n w).rReg = s.rReg := by unfold noteOverflow; split <;> [rfl; (split <;> rfl)]

@[simp] theorem noteOverflow_sReg (s : State) (n : RegNum) (w : Bool) :
    (noteOverflow s n w).sReg = s.sReg := by unfold noteOverflow; split <;> [rfl; (split <;> rfl)]

@[simp] theorem noteOverflow_mode1 (s : State) (n : RegNum) (w : Bool) :
    (noteOverflow s n w).mode1 = s.mode1 := by unfold noteOverflow; split <;> [rfl; (split <;> rfl)]

@[simp] theorem noteOverflow_mmaskCbufen (s : State) (n : RegNum) (w : Bool) :
    (noteOverflow s n w).mmaskCbufen = s.mmaskCbufen := by unfold noteOverflow; split <;> [rfl; (split <;> rfl)]

@[simp] theorem noteOverflow_stkyy (s : State) (n : RegNum) (w : Bool) :
    (noteOverflow s n w).stkyy = s.stkyy := by unfold noteOverflow; split <;> [rfl; (split <;> rfl)]

@[simp] theorem noteOverflow_pc (s : State) (n : RegNum) (w : Bool) :
    (noteOverflow s n w).pc = s.pc := by unfold noteOverflow; split <;> [rfl; (split <;> rfl)]

@[simp] theorem noteOverflow_mem (s : State) (n : RegNum) (w : Bool) :
    (noteOverflow s n w).mem = s.mem := by unfold noteOverflow; split <;> [rfl; (split <;> rfl)]

@[simp] theorem noteOverflow_program (s : State) (n : RegNum) (w : Bool) :
    (noteOverflow s n w).program = s.program := by unfold noteOverflow; split <;> [rfl; (split <;> rfl)]

@[simp] theorem noteOverflow_platform (s : State) (n : RegNum) (w : Bool) :
    (noteOverflow s n w).platform = s.platform := by unfold noteOverflow; split <;> [rfl; (split <;> rfl)]

@[simp] theorem noteOverflow_events (s : State) (n : RegNum) (w : Bool) :
    (noteOverflow s n w).events = s.events := by unfold noteOverflow; split <;> [rfl; (split <;> rfl)]

@[simp] theorem noteOverflow_condIn (s : State) (n : RegNum) (w : Bool) :
    (noteOverflow s n w).condIn = s.condIn := by unfold noteOverflow; split <;> [rfl; (split <;> rfl)]

@[simp] theorem noteOverflow_draws (s : State) (n : RegNum) (w : Bool) :
    (noteOverflow s n w).draws = s.draws := by unfold noteOverflow; split <;> [rfl; (split <;> rfl)]

/-! MODIFY's overflow status changes STKYx, the latch and the draw counter alone. -/

@[simp] theorem noteModifyOverflow_iReg (s : State) (n : RegNum) (w : Bool) :
    (noteModifyOverflow s n w).iReg = s.iReg := by unfold noteModifyOverflow; split <;> [rfl; (split <;> rfl)]

@[simp] theorem noteModifyOverflow_mReg (s : State) (n : RegNum) (w : Bool) :
    (noteModifyOverflow s n w).mReg = s.mReg := by unfold noteModifyOverflow; split <;> [rfl; (split <;> rfl)]

@[simp] theorem noteModifyOverflow_lReg (s : State) (n : RegNum) (w : Bool) :
    (noteModifyOverflow s n w).lReg = s.lReg := by unfold noteModifyOverflow; split <;> [rfl; (split <;> rfl)]

@[simp] theorem noteModifyOverflow_bReg (s : State) (n : RegNum) (w : Bool) :
    (noteModifyOverflow s n w).bReg = s.bReg := by unfold noteModifyOverflow; split <;> [rfl; (split <;> rfl)]

@[simp] theorem noteModifyOverflow_rReg (s : State) (n : RegNum) (w : Bool) :
    (noteModifyOverflow s n w).rReg = s.rReg := by unfold noteModifyOverflow; split <;> [rfl; (split <;> rfl)]

@[simp] theorem noteModifyOverflow_sReg (s : State) (n : RegNum) (w : Bool) :
    (noteModifyOverflow s n w).sReg = s.sReg := by unfold noteModifyOverflow; split <;> [rfl; (split <;> rfl)]

@[simp] theorem noteModifyOverflow_mode1 (s : State) (n : RegNum) (w : Bool) :
    (noteModifyOverflow s n w).mode1 = s.mode1 := by unfold noteModifyOverflow; split <;> [rfl; (split <;> rfl)]

@[simp] theorem noteModifyOverflow_mmaskCbufen (s : State) (n : RegNum) (w : Bool) :
    (noteModifyOverflow s n w).mmaskCbufen = s.mmaskCbufen := by unfold noteModifyOverflow; split <;> [rfl; (split <;> rfl)]

@[simp] theorem noteModifyOverflow_stkyy (s : State) (n : RegNum) (w : Bool) :
    (noteModifyOverflow s n w).stkyy = s.stkyy := by unfold noteModifyOverflow; split <;> [rfl; (split <;> rfl)]

@[simp] theorem noteModifyOverflow_pc (s : State) (n : RegNum) (w : Bool) :
    (noteModifyOverflow s n w).pc = s.pc := by unfold noteModifyOverflow; split <;> [rfl; (split <;> rfl)]

@[simp] theorem noteModifyOverflow_mem (s : State) (n : RegNum) (w : Bool) :
    (noteModifyOverflow s n w).mem = s.mem := by unfold noteModifyOverflow; split <;> [rfl; (split <;> rfl)]

@[simp] theorem noteModifyOverflow_program (s : State) (n : RegNum) (w : Bool) :
    (noteModifyOverflow s n w).program = s.program := by unfold noteModifyOverflow; split <;> [rfl; (split <;> rfl)]

@[simp] theorem noteModifyOverflow_platform (s : State) (n : RegNum) (w : Bool) :
    (noteModifyOverflow s n w).platform = s.platform := by unfold noteModifyOverflow; split <;> [rfl; (split <;> rfl)]

@[simp] theorem noteModifyOverflow_events (s : State) (n : RegNum) (w : Bool) :
    (noteModifyOverflow s n w).events = s.events := by unfold noteModifyOverflow; split <;> [rfl; (split <;> rfl)]

@[simp] theorem noteModifyOverflow_condIn (s : State) (n : RegNum) (w : Bool) :
    (noteModifyOverflow s n w).condIn = s.condIn := by unfold noteModifyOverflow; split <;> [rfl; (split <;> rfl)]

/-! The status push changes MODE1 and the draw counter alone. -/

@[simp] theorem pushMode_iReg (s : State) (c : Bool) :
    (pushMode s c).iReg = s.iReg := rfl

@[simp] theorem pushMode_mReg (s : State) (c : Bool) :
    (pushMode s c).mReg = s.mReg := rfl

@[simp] theorem pushMode_lReg (s : State) (c : Bool) :
    (pushMode s c).lReg = s.lReg := rfl

@[simp] theorem pushMode_bReg (s : State) (c : Bool) :
    (pushMode s c).bReg = s.bReg := rfl

@[simp] theorem pushMode_rReg (s : State) (c : Bool) :
    (pushMode s c).rReg = s.rReg := rfl

@[simp] theorem pushMode_sReg (s : State) (c : Bool) :
    (pushMode s c).sReg = s.sReg := rfl

@[simp] theorem pushMode_mmaskCbufen (s : State) (c : Bool) :
    (pushMode s c).mmaskCbufen = s.mmaskCbufen := rfl

@[simp] theorem pushMode_stkyx (s : State) (c : Bool) :
    (pushMode s c).stkyx = s.stkyx := rfl

@[simp] theorem pushMode_stkyy (s : State) (c : Bool) :
    (pushMode s c).stkyy = s.stkyy := rfl

@[simp] theorem pushMode_latch (s : State) (c : Bool) :
    (pushMode s c).latch = s.latch := rfl

@[simp] theorem pushMode_pc (s : State) (c : Bool) :
    (pushMode s c).pc = s.pc := rfl

@[simp] theorem pushMode_mem (s : State) (c : Bool) :
    (pushMode s c).mem = s.mem := rfl

@[simp] theorem pushMode_program (s : State) (c : Bool) :
    (pushMode s c).program = s.program := rfl

@[simp] theorem pushMode_platform (s : State) (c : Bool) :
    (pushMode s c).platform = s.platform := rfl

@[simp] theorem pushMode_events (s : State) (c : Bool) :
    (pushMode s c).events = s.events := rfl

@[simp] theorem pushMode_condIn (s : State) (c : Bool) :
    (pushMode s c).condIn = s.condIn := rfl

/-! Interrupt entry changes MODE1 and the draw counter alone. -/

@[simp] theorem irqEntry_iReg (q : IrqKind) (s : State) :
    (irqEntry q s).iReg = s.iReg := by cases q <;> rfl

@[simp] theorem irqEntry_mReg (q : IrqKind) (s : State) :
    (irqEntry q s).mReg = s.mReg := by cases q <;> rfl

@[simp] theorem irqEntry_lReg (q : IrqKind) (s : State) :
    (irqEntry q s).lReg = s.lReg := by cases q <;> rfl

@[simp] theorem irqEntry_bReg (q : IrqKind) (s : State) :
    (irqEntry q s).bReg = s.bReg := by cases q <;> rfl

@[simp] theorem irqEntry_rReg (q : IrqKind) (s : State) :
    (irqEntry q s).rReg = s.rReg := by cases q <;> rfl

@[simp] theorem irqEntry_sReg (q : IrqKind) (s : State) :
    (irqEntry q s).sReg = s.sReg := by cases q <;> rfl

@[simp] theorem irqEntry_mmaskCbufen (q : IrqKind) (s : State) :
    (irqEntry q s).mmaskCbufen = s.mmaskCbufen := by cases q <;> rfl

@[simp] theorem irqEntry_stkyx (q : IrqKind) (s : State) :
    (irqEntry q s).stkyx = s.stkyx := by cases q <;> rfl

@[simp] theorem irqEntry_stkyy (q : IrqKind) (s : State) :
    (irqEntry q s).stkyy = s.stkyy := by cases q <;> rfl

@[simp] theorem irqEntry_latch (q : IrqKind) (s : State) :
    (irqEntry q s).latch = s.latch := by cases q <;> rfl

@[simp] theorem irqEntry_pc (q : IrqKind) (s : State) :
    (irqEntry q s).pc = s.pc := by cases q <;> rfl

@[simp] theorem irqEntry_mem (q : IrqKind) (s : State) :
    (irqEntry q s).mem = s.mem := by cases q <;> rfl

@[simp] theorem irqEntry_program (q : IrqKind) (s : State) :
    (irqEntry q s).program = s.program := by cases q <;> rfl

@[simp] theorem irqEntry_platform (q : IrqKind) (s : State) :
    (irqEntry q s).platform = s.platform := by cases q <;> rfl

@[simp] theorem irqEntry_events (q : IrqKind) (s : State) :
    (irqEntry q s).events = s.events := by cases q <;> rfl

@[simp] theorem irqEntry_condIn (q : IrqKind) (s : State) :
    (irqEntry q s).condIn = s.condIn := by cases q <;> rfl

/-! Consuming an arrival changes the schedule or the draw counter alone. -/

@[simp] theorem popEvent_iReg (s : State) :
    (popEvent s).iReg = s.iReg := by
  unfold popEvent; split <;> [split; skip] <;> rfl

@[simp] theorem popEvent_mReg (s : State) :
    (popEvent s).mReg = s.mReg := by
  unfold popEvent; split <;> [split; skip] <;> rfl

@[simp] theorem popEvent_lReg (s : State) :
    (popEvent s).lReg = s.lReg := by
  unfold popEvent; split <;> [split; skip] <;> rfl

@[simp] theorem popEvent_bReg (s : State) :
    (popEvent s).bReg = s.bReg := by
  unfold popEvent; split <;> [split; skip] <;> rfl

@[simp] theorem popEvent_rReg (s : State) :
    (popEvent s).rReg = s.rReg := by
  unfold popEvent; split <;> [split; skip] <;> rfl

@[simp] theorem popEvent_sReg (s : State) :
    (popEvent s).sReg = s.sReg := by
  unfold popEvent; split <;> [split; skip] <;> rfl

@[simp] theorem popEvent_mode1 (s : State) :
    (popEvent s).mode1 = s.mode1 := by
  unfold popEvent; split <;> [split; skip] <;> rfl

@[simp] theorem popEvent_mmaskCbufen (s : State) :
    (popEvent s).mmaskCbufen = s.mmaskCbufen := by
  unfold popEvent; split <;> [split; skip] <;> rfl

@[simp] theorem popEvent_stkyx (s : State) :
    (popEvent s).stkyx = s.stkyx := by
  unfold popEvent; split <;> [split; skip] <;> rfl

@[simp] theorem popEvent_stkyy (s : State) :
    (popEvent s).stkyy = s.stkyy := by
  unfold popEvent; split <;> [split; skip] <;> rfl

@[simp] theorem popEvent_latch (s : State) :
    (popEvent s).latch = s.latch := by
  unfold popEvent; split <;> [split; skip] <;> rfl

@[simp] theorem popEvent_pc (s : State) :
    (popEvent s).pc = s.pc := by
  unfold popEvent; split <;> [split; skip] <;> rfl

@[simp] theorem popEvent_mem (s : State) :
    (popEvent s).mem = s.mem := by
  unfold popEvent; split <;> [split; skip] <;> rfl

@[simp] theorem popEvent_program (s : State) :
    (popEvent s).program = s.program := by
  unfold popEvent; split <;> [split; skip] <;> rfl

@[simp] theorem popEvent_platform (s : State) :
    (popEvent s).platform = s.platform := by
  unfold popEvent; split <;> [split; skip] <;> rfl

@[simp] theorem popEvent_condIn (s : State) :
    (popEvent s).condIn = s.condIn := by
  unfold popEvent; split <;> [split; skip] <;> rfl

theorem popEvent_cons (s : State) (e : Option IrqKind) (es : List (Option IrqKind)) (h : s.events = e :: es) :
    popEvent s = { s with events := es } := by simp [popEvent, h]

theorem popEvent_nil (s : State) (h : s.events = []) :
    popEvent s = if s.platform.interrupts then { s with draws := s.draws + 1 } else s := by simp [popEvent, h]

/-! Consuming a condition's outcome changes the inputs and the draw counter alone. -/

@[simp] theorem popCond_iReg (s : State) (c : Option Cond) :
    (popCond s c).iReg = s.iReg := by unfold popCond; split <;> [rfl; (split <;> rfl)]

@[simp] theorem popCond_mReg (s : State) (c : Option Cond) :
    (popCond s c).mReg = s.mReg := by unfold popCond; split <;> [rfl; (split <;> rfl)]

@[simp] theorem popCond_lReg (s : State) (c : Option Cond) :
    (popCond s c).lReg = s.lReg := by unfold popCond; split <;> [rfl; (split <;> rfl)]

@[simp] theorem popCond_bReg (s : State) (c : Option Cond) :
    (popCond s c).bReg = s.bReg := by unfold popCond; split <;> [rfl; (split <;> rfl)]

@[simp] theorem popCond_rReg (s : State) (c : Option Cond) :
    (popCond s c).rReg = s.rReg := by unfold popCond; split <;> [rfl; (split <;> rfl)]

@[simp] theorem popCond_sReg (s : State) (c : Option Cond) :
    (popCond s c).sReg = s.sReg := by unfold popCond; split <;> [rfl; (split <;> rfl)]

@[simp] theorem popCond_mode1 (s : State) (c : Option Cond) :
    (popCond s c).mode1 = s.mode1 := by unfold popCond; split <;> [rfl; (split <;> rfl)]

@[simp] theorem popCond_mmaskCbufen (s : State) (c : Option Cond) :
    (popCond s c).mmaskCbufen = s.mmaskCbufen := by unfold popCond; split <;> [rfl; (split <;> rfl)]

@[simp] theorem popCond_stkyx (s : State) (c : Option Cond) :
    (popCond s c).stkyx = s.stkyx := by unfold popCond; split <;> [rfl; (split <;> rfl)]

@[simp] theorem popCond_stkyy (s : State) (c : Option Cond) :
    (popCond s c).stkyy = s.stkyy := by unfold popCond; split <;> [rfl; (split <;> rfl)]

@[simp] theorem popCond_latch (s : State) (c : Option Cond) :
    (popCond s c).latch = s.latch := by unfold popCond; split <;> [rfl; (split <;> rfl)]

@[simp] theorem popCond_pc (s : State) (c : Option Cond) :
    (popCond s c).pc = s.pc := by unfold popCond; split <;> [rfl; (split <;> rfl)]

@[simp] theorem popCond_mem (s : State) (c : Option Cond) :
    (popCond s c).mem = s.mem := by unfold popCond; split <;> [rfl; (split <;> rfl)]

@[simp] theorem popCond_program (s : State) (c : Option Cond) :
    (popCond s c).program = s.program := by unfold popCond; split <;> [rfl; (split <;> rfl)]

@[simp] theorem popCond_platform (s : State) (c : Option Cond) :
    (popCond s c).platform = s.platform := by unfold popCond; split <;> [rfl; (split <;> rfl)]

@[simp] theorem popCond_events (s : State) (c : Option Cond) :
    (popCond s c).events = s.events := by unfold popCond; split <;> [rfl; (split <;> rfl)]

/-! The draw for an instruction the elements disagree about changes the draw counter alone. -/

@[simp] theorem popChoice_iReg (s : State) (o : Bool × Bool) :
    (popChoice s o).iReg = s.iReg := by unfold popChoice; split <;> rfl

@[simp] theorem popChoice_mReg (s : State) (o : Bool × Bool) :
    (popChoice s o).mReg = s.mReg := by unfold popChoice; split <;> rfl

@[simp] theorem popChoice_lReg (s : State) (o : Bool × Bool) :
    (popChoice s o).lReg = s.lReg := by unfold popChoice; split <;> rfl

@[simp] theorem popChoice_bReg (s : State) (o : Bool × Bool) :
    (popChoice s o).bReg = s.bReg := by unfold popChoice; split <;> rfl

@[simp] theorem popChoice_rReg (s : State) (o : Bool × Bool) :
    (popChoice s o).rReg = s.rReg := by unfold popChoice; split <;> rfl

@[simp] theorem popChoice_sReg (s : State) (o : Bool × Bool) :
    (popChoice s o).sReg = s.sReg := by unfold popChoice; split <;> rfl

@[simp] theorem popChoice_mode1 (s : State) (o : Bool × Bool) :
    (popChoice s o).mode1 = s.mode1 := by unfold popChoice; split <;> rfl

@[simp] theorem popChoice_mmaskCbufen (s : State) (o : Bool × Bool) :
    (popChoice s o).mmaskCbufen = s.mmaskCbufen := by unfold popChoice; split <;> rfl

@[simp] theorem popChoice_stkyx (s : State) (o : Bool × Bool) :
    (popChoice s o).stkyx = s.stkyx := by unfold popChoice; split <;> rfl

@[simp] theorem popChoice_stkyy (s : State) (o : Bool × Bool) :
    (popChoice s o).stkyy = s.stkyy := by unfold popChoice; split <;> rfl

@[simp] theorem popChoice_latch (s : State) (o : Bool × Bool) :
    (popChoice s o).latch = s.latch := by unfold popChoice; split <;> rfl

@[simp] theorem popChoice_pc (s : State) (o : Bool × Bool) :
    (popChoice s o).pc = s.pc := by unfold popChoice; split <;> rfl

@[simp] theorem popChoice_mem (s : State) (o : Bool × Bool) :
    (popChoice s o).mem = s.mem := by unfold popChoice; split <;> rfl

@[simp] theorem popChoice_program (s : State) (o : Bool × Bool) :
    (popChoice s o).program = s.program := by unfold popChoice; split <;> rfl

@[simp] theorem popChoice_platform (s : State) (o : Bool × Bool) :
    (popChoice s o).platform = s.platform := by unfold popChoice; split <;> rfl

@[simp] theorem popChoice_events (s : State) (o : Bool × Bool) :
    (popChoice s o).events = s.events := by unfold popChoice; split <;> rfl

@[simp] theorem popChoice_condIn (s : State) (o : Bool × Bool) :
    (popChoice s o).condIn = s.condIn := by unfold popChoice; split <;> rfl

/-! A condition before an instruction changes the inputs and the draw counter alone. -/

@[simp] theorem afterCond_iReg (s : State) (c : Cond) :
    (afterCond s c).iReg = s.iReg := by simp [afterCond]

@[simp] theorem afterCond_mReg (s : State) (c : Cond) :
    (afterCond s c).mReg = s.mReg := by simp [afterCond]

@[simp] theorem afterCond_lReg (s : State) (c : Cond) :
    (afterCond s c).lReg = s.lReg := by simp [afterCond]

@[simp] theorem afterCond_bReg (s : State) (c : Cond) :
    (afterCond s c).bReg = s.bReg := by simp [afterCond]

@[simp] theorem afterCond_rReg (s : State) (c : Cond) :
    (afterCond s c).rReg = s.rReg := by simp [afterCond]

@[simp] theorem afterCond_sReg (s : State) (c : Cond) :
    (afterCond s c).sReg = s.sReg := by simp [afterCond]

@[simp] theorem afterCond_mode1 (s : State) (c : Cond) :
    (afterCond s c).mode1 = s.mode1 := by simp [afterCond]

@[simp] theorem afterCond_mmaskCbufen (s : State) (c : Cond) :
    (afterCond s c).mmaskCbufen = s.mmaskCbufen := by simp [afterCond]

@[simp] theorem afterCond_stkyx (s : State) (c : Cond) :
    (afterCond s c).stkyx = s.stkyx := by simp [afterCond]

@[simp] theorem afterCond_stkyy (s : State) (c : Cond) :
    (afterCond s c).stkyy = s.stkyy := by simp [afterCond]

@[simp] theorem afterCond_latch (s : State) (c : Cond) :
    (afterCond s c).latch = s.latch := by simp [afterCond]

@[simp] theorem afterCond_pc (s : State) (c : Cond) :
    (afterCond s c).pc = s.pc := by simp [afterCond]

@[simp] theorem afterCond_mem (s : State) (c : Cond) :
    (afterCond s c).mem = s.mem := by simp [afterCond]

@[simp] theorem afterCond_program (s : State) (c : Cond) :
    (afterCond s c).program = s.program := by simp [afterCond]

@[simp] theorem afterCond_platform (s : State) (c : Cond) :
    (afterCond s c).platform = s.platform := by simp [afterCond]

@[simp] theorem afterCond_events (s : State) (c : Cond) :
    (afterCond s c).events = s.events := by simp [afterCond]

@[simp] theorem advance_pc_succ (s : State) : (advance s).pc = s.pc + 1 := rfl

/-! A run of data register writes changes the data registers alone. -/

@[simp] theorem writeAll_iReg (s : State) (ws : List (DataReg × Data)) :
    (writeAll s ws).iReg = s.iReg := by
  induction ws generalizing s with
  | nil => rfl
  | cons w ws ih => simp [writeAll, ih]

@[simp] theorem writeAll_mReg (s : State) (ws : List (DataReg × Data)) :
    (writeAll s ws).mReg = s.mReg := by
  induction ws generalizing s with
  | nil => rfl
  | cons w ws ih => simp [writeAll, ih]

@[simp] theorem writeAll_lReg (s : State) (ws : List (DataReg × Data)) :
    (writeAll s ws).lReg = s.lReg := by
  induction ws generalizing s with
  | nil => rfl
  | cons w ws ih => simp [writeAll, ih]

@[simp] theorem writeAll_bReg (s : State) (ws : List (DataReg × Data)) :
    (writeAll s ws).bReg = s.bReg := by
  induction ws generalizing s with
  | nil => rfl
  | cons w ws ih => simp [writeAll, ih]

@[simp] theorem writeAll_mode1 (s : State) (ws : List (DataReg × Data)) :
    (writeAll s ws).mode1 = s.mode1 := by
  induction ws generalizing s with
  | nil => rfl
  | cons w ws ih => simp [writeAll, ih]

@[simp] theorem writeAll_mmaskCbufen (s : State) (ws : List (DataReg × Data)) :
    (writeAll s ws).mmaskCbufen = s.mmaskCbufen := by
  induction ws generalizing s with
  | nil => rfl
  | cons w ws ih => simp [writeAll, ih]

@[simp] theorem writeAll_stkyx (s : State) (ws : List (DataReg × Data)) :
    (writeAll s ws).stkyx = s.stkyx := by
  induction ws generalizing s with
  | nil => rfl
  | cons w ws ih => simp [writeAll, ih]

@[simp] theorem writeAll_stkyy (s : State) (ws : List (DataReg × Data)) :
    (writeAll s ws).stkyy = s.stkyy := by
  induction ws generalizing s with
  | nil => rfl
  | cons w ws ih => simp [writeAll, ih]

@[simp] theorem writeAll_latch (s : State) (ws : List (DataReg × Data)) :
    (writeAll s ws).latch = s.latch := by
  induction ws generalizing s with
  | nil => rfl
  | cons w ws ih => simp [writeAll, ih]

@[simp] theorem writeAll_pc (s : State) (ws : List (DataReg × Data)) :
    (writeAll s ws).pc = s.pc := by
  induction ws generalizing s with
  | nil => rfl
  | cons w ws ih => simp [writeAll, ih]

@[simp] theorem writeAll_mem (s : State) (ws : List (DataReg × Data)) :
    (writeAll s ws).mem = s.mem := by
  induction ws generalizing s with
  | nil => rfl
  | cons w ws ih => simp [writeAll, ih]

@[simp] theorem writeAll_program (s : State) (ws : List (DataReg × Data)) :
    (writeAll s ws).program = s.program := by
  induction ws generalizing s with
  | nil => rfl
  | cons w ws ih => simp [writeAll, ih]

@[simp] theorem writeAll_platform (s : State) (ws : List (DataReg × Data)) :
    (writeAll s ws).platform = s.platform := by
  induction ws generalizing s with
  | nil => rfl
  | cons w ws ih => simp [writeAll, ih]

@[simp] theorem writeAll_events (s : State) (ws : List (DataReg × Data)) :
    (writeAll s ws).events = s.events := by
  induction ws generalizing s with
  | nil => rfl
  | cons w ws ih => simp [writeAll, ih]

@[simp] theorem writeAll_condIn (s : State) (ws : List (DataReg × Data)) :
    (writeAll s ws).condIn = s.condIn := by
  induction ws generalizing s with
  | nil => rfl
  | cons w ws ih => simp [writeAll, ih]

@[simp] theorem writeAll_draws (s : State) (ws : List (DataReg × Data)) :
    (writeAll s ws).draws = s.draws := by
  induction ws generalizing s with
  | nil => rfl
  | cons w ws ih => simp [writeAll, ih]

/-! A DAG register load changes the DAG registers alone. -/

@[simp] theorem loadDag_rReg (s : State) (c : WordClass) (k : DagKind) (n : RegNum) (v : Long) :
    (loadDag s c k n v).rReg = s.rReg := by
  cases c <;> simp [loadDag]

@[simp] theorem loadDag_sReg (s : State) (c : WordClass) (k : DagKind) (n : RegNum) (v : Long) :
    (loadDag s c k n v).sReg = s.sReg := by
  cases c <;> simp [loadDag]

@[simp] theorem loadDag_mode1 (s : State) (c : WordClass) (k : DagKind) (n : RegNum) (v : Long) :
    (loadDag s c k n v).mode1 = s.mode1 := by
  cases c <;> simp [loadDag]

@[simp] theorem loadDag_mmaskCbufen (s : State) (c : WordClass) (k : DagKind) (n : RegNum) (v : Long) :
    (loadDag s c k n v).mmaskCbufen = s.mmaskCbufen := by
  cases c <;> simp [loadDag]

@[simp] theorem loadDag_stkyx (s : State) (c : WordClass) (k : DagKind) (n : RegNum) (v : Long) :
    (loadDag s c k n v).stkyx = s.stkyx := by
  cases c <;> simp [loadDag]

@[simp] theorem loadDag_stkyy (s : State) (c : WordClass) (k : DagKind) (n : RegNum) (v : Long) :
    (loadDag s c k n v).stkyy = s.stkyy := by
  cases c <;> simp [loadDag]

@[simp] theorem loadDag_latch (s : State) (c : WordClass) (k : DagKind) (n : RegNum) (v : Long) :
    (loadDag s c k n v).latch = s.latch := by
  cases c <;> simp [loadDag]

@[simp] theorem loadDag_pc (s : State) (c : WordClass) (k : DagKind) (n : RegNum) (v : Long) :
    (loadDag s c k n v).pc = s.pc := by
  cases c <;> simp [loadDag]

@[simp] theorem loadDag_mem (s : State) (c : WordClass) (k : DagKind) (n : RegNum) (v : Long) :
    (loadDag s c k n v).mem = s.mem := by
  cases c <;> simp [loadDag]

@[simp] theorem loadDag_program (s : State) (c : WordClass) (k : DagKind) (n : RegNum) (v : Long) :
    (loadDag s c k n v).program = s.program := by
  cases c <;> simp [loadDag]

@[simp] theorem loadDag_platform (s : State) (c : WordClass) (k : DagKind) (n : RegNum) (v : Long) :
    (loadDag s c k n v).platform = s.platform := by
  cases c <;> simp [loadDag]

@[simp] theorem loadDag_events (s : State) (c : WordClass) (k : DagKind) (n : RegNum) (v : Long) :
    (loadDag s c k n v).events = s.events := by
  cases c <;> simp [loadDag]

@[simp] theorem loadDag_condIn (s : State) (c : WordClass) (k : DagKind) (n : RegNum) (v : Long) :
    (loadDag s c k n v).condIn = s.condIn := by
  cases c <;> simp [loadDag]

@[simp] theorem loadDag_draws (s : State) (c : WordClass) (k : DagKind) (n : RegNum) (v : Long) :
    (loadDag s c k n v).draws = s.draws := by
  cases c <;> simp [loadDag]

/-! A load's register writes change registers alone. -/

@[simp] theorem loadReg_mode1 (s : State) (c : WordClass) (u : Ureg) (v : Long) (bc : Bool) :
    (loadReg s c u v bc).mode1 = s.mode1 := by
  cases u <;> simp [loadReg]

@[simp] theorem loadReg_mmaskCbufen (s : State) (c : WordClass) (u : Ureg) (v : Long) (bc : Bool) :
    (loadReg s c u v bc).mmaskCbufen = s.mmaskCbufen := by
  cases u <;> simp [loadReg]

@[simp] theorem loadReg_stkyx (s : State) (c : WordClass) (u : Ureg) (v : Long) (bc : Bool) :
    (loadReg s c u v bc).stkyx = s.stkyx := by
  cases u <;> simp [loadReg]

@[simp] theorem loadReg_stkyy (s : State) (c : WordClass) (u : Ureg) (v : Long) (bc : Bool) :
    (loadReg s c u v bc).stkyy = s.stkyy := by
  cases u <;> simp [loadReg]

@[simp] theorem loadReg_latch (s : State) (c : WordClass) (u : Ureg) (v : Long) (bc : Bool) :
    (loadReg s c u v bc).latch = s.latch := by
  cases u <;> simp [loadReg]

@[simp] theorem loadReg_pc (s : State) (c : WordClass) (u : Ureg) (v : Long) (bc : Bool) :
    (loadReg s c u v bc).pc = s.pc := by
  cases u <;> simp [loadReg]

@[simp] theorem loadReg_mem (s : State) (c : WordClass) (u : Ureg) (v : Long) (bc : Bool) :
    (loadReg s c u v bc).mem = s.mem := by
  cases u <;> simp [loadReg]

@[simp] theorem loadReg_program (s : State) (c : WordClass) (u : Ureg) (v : Long) (bc : Bool) :
    (loadReg s c u v bc).program = s.program := by
  cases u <;> simp [loadReg]

@[simp] theorem loadReg_platform (s : State) (c : WordClass) (u : Ureg) (v : Long) (bc : Bool) :
    (loadReg s c u v bc).platform = s.platform := by
  cases u <;> simp [loadReg]

@[simp] theorem loadReg_events (s : State) (c : WordClass) (u : Ureg) (v : Long) (bc : Bool) :
    (loadReg s c u v bc).events = s.events := by
  cases u <;> simp [loadReg]

@[simp] theorem loadReg_condIn (s : State) (c : WordClass) (u : Ureg) (v : Long) (bc : Bool) :
    (loadReg s c u v bc).condIn = s.condIn := by
  cases u <;> simp [loadReg]

@[simp] theorem loadReg_draws (s : State) (c : WordClass) (u : Ureg) (v : Long) (bc : Bool) :
    (loadReg s c u v bc).draws = s.draws := by
  cases u <;> simp [loadReg]

/-! Settling the registers two loads share changes the data registers and the draw counter alone. -/

@[simp] theorem settle_iReg (s : State) (ds : List DataReg) : (settle s ds).iReg = s.iReg := by
  induction ds generalizing s with
  | nil => rfl
  | cons d ds ih => simp [settle, ih]

@[simp] theorem dualWrites_iReg (s : State) (ws vs : List (DataReg × Data)) :
    (dualWrites s ws vs).iReg = s.iReg := by
  simp [dualWrites]

@[simp] theorem settle_mReg (s : State) (ds : List DataReg) : (settle s ds).mReg = s.mReg := by
  induction ds generalizing s with
  | nil => rfl
  | cons d ds ih => simp [settle, ih]

@[simp] theorem dualWrites_mReg (s : State) (ws vs : List (DataReg × Data)) :
    (dualWrites s ws vs).mReg = s.mReg := by
  simp [dualWrites]

@[simp] theorem settle_lReg (s : State) (ds : List DataReg) : (settle s ds).lReg = s.lReg := by
  induction ds generalizing s with
  | nil => rfl
  | cons d ds ih => simp [settle, ih]

@[simp] theorem dualWrites_lReg (s : State) (ws vs : List (DataReg × Data)) :
    (dualWrites s ws vs).lReg = s.lReg := by
  simp [dualWrites]

@[simp] theorem settle_bReg (s : State) (ds : List DataReg) : (settle s ds).bReg = s.bReg := by
  induction ds generalizing s with
  | nil => rfl
  | cons d ds ih => simp [settle, ih]

@[simp] theorem dualWrites_bReg (s : State) (ws vs : List (DataReg × Data)) :
    (dualWrites s ws vs).bReg = s.bReg := by
  simp [dualWrites]

@[simp] theorem settle_mode1 (s : State) (ds : List DataReg) : (settle s ds).mode1 = s.mode1 := by
  induction ds generalizing s with
  | nil => rfl
  | cons d ds ih => simp [settle, ih]

@[simp] theorem dualWrites_mode1 (s : State) (ws vs : List (DataReg × Data)) :
    (dualWrites s ws vs).mode1 = s.mode1 := by
  simp [dualWrites]

@[simp] theorem settle_mmaskCbufen (s : State) (ds : List DataReg) : (settle s ds).mmaskCbufen = s.mmaskCbufen := by
  induction ds generalizing s with
  | nil => rfl
  | cons d ds ih => simp [settle, ih]

@[simp] theorem dualWrites_mmaskCbufen (s : State) (ws vs : List (DataReg × Data)) :
    (dualWrites s ws vs).mmaskCbufen = s.mmaskCbufen := by
  simp [dualWrites]

@[simp] theorem settle_stkyx (s : State) (ds : List DataReg) : (settle s ds).stkyx = s.stkyx := by
  induction ds generalizing s with
  | nil => rfl
  | cons d ds ih => simp [settle, ih]

@[simp] theorem dualWrites_stkyx (s : State) (ws vs : List (DataReg × Data)) :
    (dualWrites s ws vs).stkyx = s.stkyx := by
  simp [dualWrites]

@[simp] theorem settle_stkyy (s : State) (ds : List DataReg) : (settle s ds).stkyy = s.stkyy := by
  induction ds generalizing s with
  | nil => rfl
  | cons d ds ih => simp [settle, ih]

@[simp] theorem dualWrites_stkyy (s : State) (ws vs : List (DataReg × Data)) :
    (dualWrites s ws vs).stkyy = s.stkyy := by
  simp [dualWrites]

@[simp] theorem settle_latch (s : State) (ds : List DataReg) : (settle s ds).latch = s.latch := by
  induction ds generalizing s with
  | nil => rfl
  | cons d ds ih => simp [settle, ih]

@[simp] theorem dualWrites_latch (s : State) (ws vs : List (DataReg × Data)) :
    (dualWrites s ws vs).latch = s.latch := by
  simp [dualWrites]

@[simp] theorem settle_pc (s : State) (ds : List DataReg) : (settle s ds).pc = s.pc := by
  induction ds generalizing s with
  | nil => rfl
  | cons d ds ih => simp [settle, ih]

@[simp] theorem dualWrites_pc (s : State) (ws vs : List (DataReg × Data)) :
    (dualWrites s ws vs).pc = s.pc := by
  simp [dualWrites]

@[simp] theorem settle_mem (s : State) (ds : List DataReg) : (settle s ds).mem = s.mem := by
  induction ds generalizing s with
  | nil => rfl
  | cons d ds ih => simp [settle, ih]

@[simp] theorem dualWrites_mem (s : State) (ws vs : List (DataReg × Data)) :
    (dualWrites s ws vs).mem = s.mem := by
  simp [dualWrites]

@[simp] theorem settle_program (s : State) (ds : List DataReg) : (settle s ds).program = s.program := by
  induction ds generalizing s with
  | nil => rfl
  | cons d ds ih => simp [settle, ih]

@[simp] theorem dualWrites_program (s : State) (ws vs : List (DataReg × Data)) :
    (dualWrites s ws vs).program = s.program := by
  simp [dualWrites]

@[simp] theorem settle_platform (s : State) (ds : List DataReg) : (settle s ds).platform = s.platform := by
  induction ds generalizing s with
  | nil => rfl
  | cons d ds ih => simp [settle, ih]

@[simp] theorem dualWrites_platform (s : State) (ws vs : List (DataReg × Data)) :
    (dualWrites s ws vs).platform = s.platform := by
  simp [dualWrites]

@[simp] theorem settle_events (s : State) (ds : List DataReg) : (settle s ds).events = s.events := by
  induction ds generalizing s with
  | nil => rfl
  | cons d ds ih => simp [settle, ih]

@[simp] theorem dualWrites_events (s : State) (ws vs : List (DataReg × Data)) :
    (dualWrites s ws vs).events = s.events := by
  simp [dualWrites]

@[simp] theorem settle_condIn (s : State) (ds : List DataReg) : (settle s ds).condIn = s.condIn := by
  induction ds generalizing s with
  | nil => rfl
  | cons d ds ih => simp [settle, ih]

@[simp] theorem dualWrites_condIn (s : State) (ws vs : List (DataReg × Data)) :
    (dualWrites s ws vs).condIn = s.condIn := by
  simp [dualWrites]

end Sys2Proof.Machine
end

