-- ==== Sys2Proof/Laws/Memory.lean ====
section
/-! SUPPORT. The laws of memory: a read after a write, and the canonical form. -/

namespace Sys2Proof.Machine

theorem readByte_of_lt {m : Memory} {a : Nat} (h : ∀ c ∈ m, a < c.1) : readByte m a = none := by
  cases m with
  | nil => rfl
  | cons c m =>
    have := h c (by simp)
    simp [readByte, this, Nat.ne_of_lt this]

@[simp] theorem readByte_writeByte_same (m : Memory) (a : Nat) (v : Byte) :
    readByte (writeByte m a v) a = some v := by
  induction m with
  | nil => simp [writeByte, readByte]
  | cons c m ih =>
    simp only [writeByte]
    split
    · simp [readByte]
    · split
      · simp [readByte]
      · simp_all [readByte]

theorem readByte_writeByte_other {m : Memory} {a b : Nat} (v : Byte) (h : b ≠ a) :
    readByte (writeByte m a v) b = readByte m b := by
  induction m with
  | nil =>
    by_cases hb : b < a <;> simp [writeByte, readByte, h]
  | cons c m ih =>
    obtain ⟨k, w⟩ := c
    simp only [writeByte]
    split
    · subst_vars; simp [readByte, h]
    · split
      · rename_i h1 h2
        by_cases hb : b < a
        · simp [readByte, h, hb, show b ≠ k by omega, show b < k by omega]
        · simp [readByte, h, hb]
      · simp only [readByte, ih]

theorem readByte_writeByte (m : Memory) (a b : Nat) (v : Byte) :
    readByte (writeByte m a v) b = if b = a then some v else readByte m b := by
  split
  · subst_vars; simp
  · exact readByte_writeByte_other v ‹_›

theorem mem_writeByte {m : Memory} {a : Nat} {v : Byte} {c : Host.Cell} (h : c ∈ writeByte m a v) :
    c = (a, v) ∨ c ∈ m := by
  induction m with
  | nil => simpa [writeByte] using h
  | cons d m ih =>
    simp only [writeByte] at h
    split at h
    · simp at h ⊢; tauto
    · split at h
      · simp at h ⊢; tauto
      · simp at h ⊢
        rcases h with h | h
        · tauto
        · rcases ih h with h | h <;> tauto

/-- A byte write keeps the canonical form. -/
theorem writeByte_wf {m : Memory} (a : Nat) (v : Byte) (h : Memory.wf m) : Memory.wf (writeByte m a v) := by
  induction m with
  | nil => simp [writeByte, Memory.wf]
  | cons d m ih =>
    obtain ⟨k, w⟩ := d
    simp only [Memory.wf, List.pairwise_cons] at h
    simp only [writeByte]
    split
    · subst_vars; simpa [Memory.wf] using h
    · split
      · simp only [Memory.wf, List.pairwise_cons, List.mem_cons]
        refine ⟨?_, h.1, h.2⟩
        rintro c (rfl | hc)
        · assumption
        · exact Nat.lt_trans (by omega) (h.1 c hc)
      · simp only [Memory.wf, List.pairwise_cons]
        refine ⟨fun c hc => ?_, ih h.2⟩
        rcases mem_writeByte hc with rfl | hc
        · simp; omega
        · exact h.1 c hc

/-- A run of byte writes keeps the canonical form. -/
theorem writeBytes_wf {m : Memory} (a n v : Nat) (h : Memory.wf m) : Memory.wf (writeBytes m a n v) := by
  induction n generalizing m a v with
  | zero => simpa [writeBytes] using h
  | succ n ih => exact ih _ _ (writeByte_wf _ _ h)

/-- A run of byte writes leaves every other byte as it was. -/
theorem readByte_writeBytes_other {m : Memory} {a n b : Nat} (v : Nat) (h : b < a ∨ a + n ≤ b) :
    readByte (writeBytes m a n v) b = readByte m b := by
  induction n generalizing m a v with
  | zero => rfl
  | succ n ih =>
    rw [writeBytes, ih _ (by omega), readByte_writeByte_other _ (by omega)]

/-- Reading a run of bytes depends on those bytes alone. -/
theorem readBytes_congr {m m' : Memory} {a n : Nat} (h : ∀ b, a ≤ b → b < a + n → readByte m b = readByte m' b) :
    readBytes m a n = readBytes m' a n := by
  induction n generalizing a with
  | zero => rfl
  | succ n ih =>
    rw [readBytes, readBytes, h a (by omega) (by omega), ih fun b h1 h2 => h b (by omega) (by omega)]

/-- A run of bytes written reads as the number written, in its low bytes. -/
theorem readBytes_writeBytes_same (m : Memory) (a n v : Nat) :
    readBytes (writeBytes m a n v) a n = some (v % 256 ^ n) := by
  induction n generalizing m a v with
  | zero => simp [readBytes, Nat.mod_one]
  | succ n ih =>
    rw [writeBytes, readBytes, ih, readByte_writeBytes_other _ (by omega)]
    simp only [readByte_writeByte_same]
    rw [BitVec.toNat_ofNat, show 256 ^ (n + 1) = 256 * 256 ^ n from Nat.pow_succ', Nat.mod_mul]

/-- A run of byte writes leaves a run of bytes apart from it as it was. -/
theorem readBytes_writeBytes_other {m : Memory} {a n b k : Nat} (v : Nat) (h : b + k ≤ a ∨ a + n ≤ b) :
    readBytes (writeBytes m a n v) b k = readBytes m b k :=
  readBytes_congr fun c h1 h2 => readByte_writeBytes_other v (by omega)

/-- What a run of bytes reads as fits in it. -/
theorem readBytes_lt {m : Memory} {a n v : Nat} (h : readBytes m a n = some v) : v < 256 ^ n := by
  induction n generalizing a v with
  | zero => simp [readBytes] at h; subst h; simp
  | succ n ih =>
    simp only [readBytes] at h
    split at h
    · rename_i b r hb hr
      have := ih hr
      have := b.isLt
      simp at h
      subst h
      rw [Nat.pow_succ']
      omega
    · simp at h

end Sys2Proof.Machine
end

