-- ==== Sys2Proof/Laws/Ops.lean ====
section
/-! SUPPORT. For each shared operation, what it does when it answers a next state. -/

namespace Sys2Proof.Machine

/-! ## Chains -/

theorem andThen_next {α β : Type} {o : Res α} {f : α → Res β} {b : β} :
    andThen o f = .next b ↔ ∃ a, o = .next a ∧ f a = .next b := by
  cases o <;> simp [andThen]

@[simp] theorem andThen_of_next {α β : Type} (a : α) (f : α → Res β) : andThen (.next a) f = f a := rfl

@[simp] theorem andThen_of_refused {α β : Type} (r : Refusal) (f : α → Res β) :
    andThen (.refused r) f = .refused r := rfl

@[simp] theorem andThen_of_fault {α β : Type} (r : Fault) (f : α → Res β) :
    andThen (.fault r) f = .fault r := rfl

theorem require_next {c : Bool} {r : Refusal} {u : Unit} : require c r = .next u ↔ c = true := by
  cases c <;> simp [require]

@[simp] theorem require_true (r : Refusal) : require true r = .next () := rfl

@[simp] theorem require_false (r : Refusal) : require false r = .refused r := rfl

/-! ## Registers -/

/-! The roles of register numbers at their defaults. -/

theorem dagOf_eq (n : RegNum) : dagOf n = if n.val ≤ 7 then .dag1 else .dag2 := rfl

@[simp] theorem ovfReg_dag1 : Config.roles.ovfReg .dag1 = (7 : RegNum) := rfl

@[simp] theorem ovfReg_dag2 : Config.roles.ovfReg .dag2 = (15 : RegNum) := rfl

@[simp] theorem brReg_dag1 : Config.roles.brReg .dag1 = (0 : RegNum) := rfl

@[simp] theorem brReg_dag2 : Config.roles.brReg .dag2 = (8 : RegNum) := rfl

/-- A vector of registers after a write, register by register. -/
theorem get_set {α : Type} (v : Vector α 16) (n m : RegNum) (x : α) :
    (v.set n x)[m] = if m = n then x else v[m] := by
  simp [Vector.getElem_set, Fin.val_inj, eq_comm]

theorem readDag_writeDag_same (s : State) (k : DagKind) (n : RegNum) (v : Word) :
    readDag (writeDag s k n v) k n = v := by
  cases k <;> simp [readDag, writeDag]

/-- A DAG register write leaves every other DAG register as it was, but a B write also writes I. -/
theorem readDag_writeDag_other {s : State} {k j : DagKind} {n m : RegNum} (v : Word)
    (h : j ≠ k ∨ m ≠ n) (hb : k = .b → j = .i → m ≠ n) :
    readDag (writeDag s k n v) j m = readDag s j m := by
  have e : ∀ {a b : RegNum}, a ≠ b → (b : Nat) ≠ a := fun h e => h (Fin.ext e.symm)
  cases k <;> cases j <;> simp_all [readDag, writeDag]

theorem readData_writeData (s : State) (d e : DataReg) (v : Data) :
    readData (writeData s d v) e = if e = d then v else readData s e := by
  cases d <;> cases e <;> simp [readData, writeData, Vector.getElem_set, Fin.val_inj, eq_comm]

theorem readData_writeAll_of_not_mem {s : State} {ws : List (DataReg × Data)} {d : DataReg}
    (h : ∀ v, (d, v) ∉ ws) : readData (writeAll s ws) d = readData s d := by
  induction ws generalizing s with
  | nil => rfl
  | cons w ws ih =>
    obtain ⟨e, u⟩ := w
    rw [writeAll, ih fun v hv => h v (by simp [hv]), readData_writeData, if_neg]
    rintro rfl
    exact h u (by simp)

@[simp] theorem readData_advance (s : State) (d : DataReg) : readData (advance s) d = readData s d := rfl

@[simp] theorem readDag_advance (s : State) (k : DagKind) (n : RegNum) : readDag (advance s) k n = readDag s k n := rfl

theorem pairOf_ne (n : RegNum) : pairOf n ≠ n := by revert n; decide

theorem dataPairOf_ne (x : DregNum) : dataPairOf x ≠ x := by revert x; decide

theorem pairOf_pairOf (n : RegNum) : pairOf (pairOf n) = n := by revert n; decide

theorem dagOf_pairOf (n : RegNum) : dagOf (pairOf n) = dagOf n := by revert n; decide

theorem hi32_widen (v : Word) : hi32 (widen v) = v := by
  apply BitVec.eq_of_toNat_eq
  have h : (widen v).toNat = v.toNat <<< 8 ||| 0 := BitVec.toNat_append v (0 : BitVec 8)
  have := v.isLt
  rw [hi32, BitVec.extractLsb'_toNat, h, Nat.or_zero, Nat.shiftLeft_shiftRight]
  omega

/-! ## Memory and the platform -/

theorem place_next {p : Platform} {bus : Bus} {a : Word} {pl : Place} (h : place p bus a = .next pl) :
    admits p bus a = true ∧ ∃ r, regionOf p a = some r ∧ pl = placeIn r a := by
  unfold place at h
  split at h
  · simp_all
  · simp at h

theorem memRead_next {s t : State} {a : Word} {pl : Place} {v : Long} (h : memRead s a pl = .next (v, t)) :
    (touches pl s.platform.shared = true ∧ v = freeValue s pl ∧ t = { s with draws := s.draws + 1 }) ∨
    (touches pl s.platform.shared = false ∧ t = s ∧
      ∃ n, readBytes s.mem pl.start (placeBytes pl) = some n ∧ v = BitVec.ofNat 64 n) := by
  unfold memRead at h
  split at h
  · simp at h; exact .inl ⟨‹_›, h.1.symm, h.2.symm⟩
  · split at h
    · simp at h; exact .inr ⟨eq_false_of_ne_true ‹_›, h.2.symm, _, ‹_›, h.1.symm⟩
    · simp at h

theorem memWrite_next {s t : State} {pl : Place} {v : Long} (h : memWrite s pl v = .next t) :
    touches pl s.platform.text = false ∧
      t = { s with mem := writeBytes s.mem pl.start (placeBytes pl) v.toNat } := by
  simp only [memWrite, andThen_next, require_next] at h
  obtain ⟨-, h1, h2⟩ := h
  simp at h1 h2
  exact ⟨h1, h2.symm⟩

theorem dataPlace_next {p : Platform} {bus : Bus} {a : Word} {pl : Place} (h : dataPlace p bus a = .next pl) :
    place p bus a = .next pl ∧ pl.cls ≠ .short16 ∧ pl.cls ≠ .notData := by
  simp only [dataPlace, andThen_next, require_next] at h
  obtain ⟨q, h1, -, h2, h3⟩ := h
  simp at h2 h3
  subst h3
  refine ⟨h1, h2, ?_⟩
  obtain ⟨ha, r, hr, rfl⟩ := place_next h1
  simp [admits, hr] at ha
  exact ha.2

theorem dataPlace_notAdmitted {p : Platform} {bus : Bus} {a : Word} (h : admits p bus a = false) :
    dataPlace p bus a = .fault (.notAdmitted bus a) := by
  simp [dataPlace, place, h]

theorem dataPlace_short {p : Platform} {bus : Bus} {a : Word} (h : admits p bus a = true)
    (hc : wordClass p a = .short16) : dataPlace p bus a = .refused .shortWordDataPath := by
  unfold wordClass at hc
  split at hc
  · simp [dataPlace, place, *, placeIn]
  · cases hc

/-- A word reached by a load or store has a byte at least. -/
theorem dataPlace_pos {p : Platform} {bus : Bus} {a : Word} {pl : Place} (h : dataPlace p bus a = .next pl) :
    0 < placeBytes pl := by
  have := dataPlace_next h
  unfold placeBytes wordBytes; cases hc : pl.cls <;> simp_all

/-- Places with bytes that share no storage lie one after the other. -/
theorem apart_of_samePlace {a b : Place} (ha : 0 < placeBytes a) (hb : 0 < placeBytes b) (h : samePlace a b = false) :
    a.start + placeBytes a ≤ b.start ∨ b.start + placeBytes b ≤ a.start := by
  simp only [samePlace, overlap, Bool.and_eq_false_iff, decide_eq_false_iff_not] at h; omega

/-! ## Addresses -/

theorem operand_next {s : State} {bus : Bus} {ia : RegNum} {w : Nat} {md : Modifier} {m : Word}
    (h : operand s bus ia w md = .next m) :
    dagOf ia = dagOfBus bus ∧
      ((∃ b, md = .reg b ∧ dagOf b = dagOf ia ∧ m = s.mReg[b]) ∨
       (∃ v, md = .imm v ∧ immFits w v = true ∧ m = immWord v)) := by
  simp only [operand, indexOnBus, andThen_next, require_next] at h
  obtain ⟨-, h1, h2⟩ := h
  refine ⟨by simpa using h1, ?_⟩
  cases md with
  | reg b =>
    simp only [modifyValue, andThen_next, require_next] at h2
    obtain ⟨-, h3, h4⟩ := h2
    simp at h3 h4
    exact .inl ⟨b, rfl, h3, h4.symm⟩
  | imm v =>
    simp only [modifyValue, immediate, andThen_next, require_next] at h2
    obtain ⟨-, h3, h4⟩ := h2
    simp at h4
    exact .inr ⟨v, rfl, h3, h4.symm⟩

/-- What the circular update answers: the index was in its buffer, and the value written back is in it too. -/
theorem circularNext_next {cur base len m : Word} {u : Update} (h : circularNext cur base len m = .next u) :
    len.toNat < 2 ^ 31 ∧ base.toNat + len.toNat ≤ 2 ^ 32 ∧
    inBuffer base.toNat len.toNat cur.toNat = true ∧
    inBuffer base.toNat len.toNat (corrected base.toNat len.toNat (sval m) (cur.toNat + sval m)) = true ∧
    u = { value := BitVec.ofInt 32 (corrected base.toNat len.toNat (sval m) (cur.toNat + sval m)),
          wrapped := decide (corrected base.toNat len.toNat (sval m) (cur.toNat + sval m) ≠ cur.toNat + sval m) } := by
  simp only [circularNext, andThen_next, require_next] at h
  obtain ⟨-, h1, -, h2, -, h3, -, h4, h5⟩ := h
  simp only [Host.Outcome.next.injEq] at h5
  exact ⟨by simpa using h1, by simpa using h2, h3, h4, h5.symm⟩

theorem postModify_next {s t : State} {n : RegNum} {m a : Word} (h : postModify s n m = .next (a, t)) :
    (bitReversed s n && circLS s n) = false ∧ a = outAddr s n s.iReg[n] ∧
    ∃ u, nextIndex s n m (circLS s n) = .next u ∧ t = noteOverflow (writeDag s .i n u.value) n u.wrapped := by
  simp only [postModify, andThen_next, require_next] at h
  obtain ⟨-, h1, u, h2, h3⟩ := h
  simp only [Host.Outcome.next.injEq, Prod.mk.injEq] at h3
  exact ⟨by simpa only [Bool.not_eq_true'] using h1, h3.1.symm, u, h2, h3.2.symm⟩

/-- The index adder of width 32 is addition modulo 2^32. -/
@[simp] theorem addIndex_eq (a m : Word) : addIndex a m = a + m := by
  apply BitVec.eq_of_toNat_eq
  rw [addIndex, BitVec.toNat_ofNat, BitVec.toNat_add, Nat.mod_mod_of_dvd _ (dvd_refl _)]

theorem preModify_next {s t : State} {n : RegNum} {m a : Word} (h : preModify s n m = .next (a, t)) :
    circLS s n = false ∧ a = outAddr s n (s.iReg[n] + m) ∧ t = s := by
  simp only [preModify, andThen_next, require_next] at h
  obtain ⟨-, h1, h3⟩ := h
  simp only [Host.Outcome.next.injEq, Prod.mk.injEq, addIndex_eq] at h3
  exact ⟨by simpa using h1, h3.1.symm, h3.2.symm⟩

/-- A post-modify whose update is given answers the old index value's address. -/
theorem postModify_of {s : State} {n : RegNum} {m : Word} {u : Update} (h : (bitReversed s n && circLS s n) = false)
    (hu : nextIndex s n m (circLS s n) = .next u) :
    postModify s n m = .next (outAddr s n s.iReg[n], noteOverflow (writeDag s .i n u.value) n u.wrapped) := by
  simp only [postModify, h, Bool.not_false, require_true, andThen_of_next, hu]

/-! What post-modify of I[n] reads is as it was after a post-modify of another index register. -/

theorem iReg_after (s : State) {n k : RegNum} (v : Word) (w : Bool) (hk : n ≠ k) :
    (noteOverflow (writeDag s .i k v) k w).iReg[n] = s.iReg[n] := by
  simp only [noteOverflow_iReg, writeDag, get_set, hk, if_false]

theorem bitReversed_after (s : State) (n k : RegNum) (v : Word) (w : Bool) :
    bitReversed (noteOverflow (writeDag s .i k v) k w) n = bitReversed s n := by simp [bitReversed]

theorem circLS_after (s : State) (n k : RegNum) (v : Word) (w : Bool) :
    circLS (noteOverflow (writeDag s .i k v) k w) n = circLS s n := by simp [circLS, writeDag]

theorem nextIndex_after (s : State) {n k : RegNum} (m : Word) (c : Bool) (v : Word) (w : Bool) (hk : n ≠ k) :
    nextIndex (noteOverflow (writeDag s .i k v) k w) n m c = nextIndex s n m c := by
  unfold nextIndex; rw [iReg_after s v w hk]; simp [writeDag]

/-- A post-modify is the same after one of another index register, but for what that one has written. -/
theorem postModify_after {s : State} {n k : RegNum} {m : Word} {u : Update} (v : Word) (w : Bool) (hk : n ≠ k)
    (h : (bitReversed s n && circLS s n) = false) (hu : nextIndex s n m (circLS s n) = .next u) :
    postModify (noteOverflow (writeDag s .i k v) k w) n m = .next (outAddr s n s.iReg[n],
      noteOverflow (writeDag (noteOverflow (writeDag s .i k v) k w) .i n u.value) n u.wrapped) := by
  rw [postModify_of (by rw [bitReversed_after, circLS_after]; exact h)
    (by rw [circLS_after, nextIndex_after s m _ v w hk]; exact hu)]
  simp only [outAddr, iReg_after s v w hk, bitReversed_after]

/-- What putting an address out changes: I[n] alone, and the overflow status where it wraps. -/
theorem addressOutput_next {s t : State} {mode : AddrMode} {n : RegNum} {m a : Word}
    (h : addressOutput mode s n m = .next (a, t)) :
    (mode = .pre ∧ t = s) ∨ (mode = .post ∧ ∃ v w, t = noteOverflow (writeDag s .i n v) n w) := by
  cases mode with
  | post => exact .inr ⟨rfl, _, _, (postModify_next h).2.2.choose_spec.2⟩
  | pre => exact .inl ⟨rfl, (preModify_next h).2.2⟩

theorem modifyIndex_next {s t : State} {n : RegNum} {m : Word} (h : modifyIndex s n m = .next t) :
    ∃ u, nextIndex s n m (circMOD s n) = .next u ∧ t = noteModifyOverflow (writeDag s .i n u.value) n u.wrapped := by
  simp only [modifyIndex, andThen_next] at h
  obtain ⟨u, h1, h2⟩ := h
  simp only [Host.Outcome.next.injEq] at h2
  exact ⟨u, h1, h2.symm⟩

/-! ## Loads and stores -/

theorem loadGuard_next {s : State} {mode : AddrMode} {bus : Bus} {ia : RegNum} {u : Ureg} {x : Unit}
    (h : loadGuard s mode bus ia u = .next x) :
    isGiven u = true ∧ (updates mode && ofDagOf ia u) = false ∧ s.mode1.peyen = false ∧
      (broadcast s bus ia && isSReg u) = false := by
  simp only [loadGuard, andThen_next, require_next] at h
  obtain ⟨-, h1, -, h2, -, h3, h4⟩ := h
  simp only [Bool.not_eq_true'] at h1 h3 h4
  exact ⟨h2, h3, h1, h4⟩

theorem storeGuard_next {s : State} {ia : RegNum} {u : Ureg} {x : Unit} (h : storeGuard s ia u = .next x) :
    isGiven u = true ∧ ofDagOf ia u = false ∧ s.mode1.peyen = false := by
  simp only [storeGuard, andThen_next, require_next] at h
  obtain ⟨-, h1, -, h2, h3⟩ := h
  exact ⟨h2, by simpa using h3, by simpa using h1⟩

/-- What a load does when it answers a next state. -/
theorem loadForm_next {mode : AddrMode} {u : Ureg} {bus : Bus} {ia : RegNum} {md : Modifier} {w : Nat} {s t : State}
    (h : loadForm mode u bus ia md w s = .next t) :
    ∃ m a s1 pl v s2,
      operand s bus ia w md = .next m ∧ loadGuard s mode bus ia u = .next () ∧
      addressOutput mode s ia m = .next (a, s1) ∧ dataPlace s1.platform bus a = .next pl ∧
      memRead s1 a pl = .next (v, s2) ∧ t = advance (loadReg s2 pl.cls u v (broadcast s1 bus ia)) := by
  simp only [loadForm, loadInto, andThen_next] at h
  obtain ⟨m, h1, ⟨⟩, h2, ⟨a, s1⟩, h3, t', ⟨pl, h4, ⟨v, s2⟩, h5, h6⟩, h7⟩ := h
  simp only [Host.Outcome.next.injEq] at h6 h7
  subst h6
  exact ⟨m, a, s1, pl, v, s2, h1, h2, h3, h4, h5, h7.symm⟩

/-- What a store does when it answers a next state. -/
theorem storeForm_next {mode : AddrMode} {u : Ureg} {bus : Bus} {ia : RegNum} {md : Modifier} {w : Nat} {s t : State}
    (h : storeForm mode u bus ia md w s = .next t) :
    ∃ m a s1 pl,
      operand s bus ia w md = .next m ∧ storeGuard s ia u = .next () ∧
      addressOutput mode s ia m = .next (a, s1) ∧ dataPlace s1.platform bus a = .next pl ∧
      touches pl s1.platform.text = false ∧
      t = advance { s1 with
        mem := writeBytes s1.mem pl.start (placeBytes pl) (storeWord s pl.cls u).toNat } := by
  simp only [storeForm, storeFrom, andThen_next] at h
  obtain ⟨m, h1, ⟨⟩, h2, ⟨a, s1⟩, h3, t', ⟨pl, h4, h5⟩, h7⟩ := h
  obtain ⟨h8, rfl⟩ := memWrite_next h5
  simp only [Host.Outcome.next.injEq] at h7
  exact ⟨m, a, s1, pl, h1, h2, h3, h4, h8, h7.symm⟩

/-- What one side of a dual move does when it answers. -/
theorem sideAccess_next {old s t : State} {bus : Bus} {a : Access} {d : DataReg} {adr : Word} {pl : Place}
    {ws : List (DataReg × Data)} (h : sideAccess old s bus a d adr pl = .next (ws, t)) :
    (a.dir = .load ∧ ∃ v, memRead s adr pl = .next (v, t) ∧ ws = loadWrites pl.cls d v (broadcast old bus a.idx)) ∨
    (a.dir = .store ∧ ws = [] ∧ memWrite s pl (dataWord old pl.cls d) = .next t) := by
  unfold sideAccess at h
  split at h
  · rename_i hd
    simp only [andThen_next, Host.Outcome.next.injEq, Prod.mk.injEq] at h
    obtain ⟨⟨v, t'⟩, h1, h2, h3⟩ := h
    subst h3
    exact .inl ⟨hd, v, h1, h2.symm⟩
  · rename_i hd
    simp only [andThen_next, Host.Outcome.next.injEq, Prod.mk.injEq] at h
    obtain ⟨t', h1, h2, h3⟩ := h
    subst h3
    exact .inr ⟨hd, h2.symm, h1⟩

theorem sideOperands_next {a : Access} {d : DataReg} {b : RegNum} (h : sideOperands a = .next (d, b)) :
    a.reg = .data d ∧ a.mode = .post ∧ a.modifier = .reg b := by
  unfold sideOperands at h
  split at h
  · simp_all
  · simp at h

/-- What a dual move does when it answers a next state. -/
theorem execDualMove_next {x y : Access} {s t : State} (h : execDualMove x y s = .next t) :
    ∃ dx bx dy bM mx my ax s1 ay s2 px py wx s3 wy s4,
      sideOperands x = .next (dx, bx) ∧ sideOperands y = .next (dy, bM) ∧
      operand s .dm x.idx 0 (.reg bx) = .next mx ∧ operand s .pm y.idx 0 (.reg bM) = .next my ∧
      s.mode1.peyen = false ∧ doubleLoad x y = false ∧ sideGuard s .dm x = .next () ∧ sideGuard s .pm y = .next () ∧
      postModify s x.idx mx = .next (ax, s1) ∧ postModify s1 y.idx my = .next (ay, s2) ∧
      dataPlace s.platform .dm ax = .next px ∧ dataPlace s.platform .pm ay = .next py ∧
      (samePlace px py && someStore x y) = false ∧
      sideAccess s s2 .dm x dx ax px = .next (wx, s3) ∧ sideAccess s s3 .pm y dy ay py = .next (wy, s4) ∧
      t = advance (dualWrites s4 wx wy) := by
  simp only [execDualMove, andThen_next, require_next] at h
  obtain ⟨⟨dx, bx⟩, h1, ⟨dy, bM⟩, h2, mx, h3, my, h4, -, h0, -, h5, ⟨⟩, h6, ⟨⟩, h7, ⟨ax, s1⟩, h8, ⟨ay, s2⟩, h9, px, h10,
    py, h11, -, h12, ⟨wx, s3⟩, h13, ⟨wy, s4⟩, h14, h15⟩ := h
  simp only [Host.Outcome.next.injEq] at h15
  simp only [Bool.not_eq_true'] at h0 h5 h12
  exact ⟨dx, bx, dy, bM, mx, my, ax, s1, ay, s2, px, py, wx, s3, wy, s4, h1, h2, h3, h4, h0, h5, h6, h7,
    h8, h9, h10, h11, h12, h13, h14, h15.symm⟩

end Sys2Proof.Machine
end

