-- ==== Sys2Proof/Laws/Frames.lean ====
section
/-! SUPPORT. What the shared operations leave as it was, and the forms of the loads and stores as chains of operations. -/

namespace Sys2Proof.Machine

/-- Every field an address output never writes is as it was. -/
structure KeptByAddress (s t : State) : Prop where
  mReg : t.mReg = s.mReg
  lReg : t.lReg = s.lReg
  bReg : t.bReg = s.bReg
  rReg : t.rReg = s.rReg
  sReg : t.sReg = s.sReg
  mode1 : t.mode1 = s.mode1
  mmaskCbufen : t.mmaskCbufen = s.mmaskCbufen
  stkyy : t.stkyy = s.stkyy
  pc : t.pc = s.pc
  mem : t.mem = s.mem
  program : t.program = s.program
  platform : t.platform = s.platform
  events : t.events = s.events
  condIn : t.condIn = s.condIn
  draws : t.draws = s.draws

theorem addressOutput_kept {s t : State} {mode : AddrMode} {n : RegNum} {m a : Word}
    (h : addressOutput mode s n m = .next (a, t)) : KeptByAddress s t := by
  rcases addressOutput_next h with ⟨-, rfl⟩ | ⟨-, v, w, rfl⟩
  · constructor <;> rfl
  · constructor <;> simp [writeDag]

/-- A memory read changes the count of draws at most. -/
theorem memRead_kept {s t : State} {a : Word} {pl : Place} {v : Long} (h : memRead s a pl = .next (v, t)) :
    ∃ d, t = { s with draws := d } := by
  rcases memRead_next h with ⟨-, -, rfl⟩ | ⟨-, rfl, -⟩
  · exact ⟨_, rfl⟩
  · exact ⟨t.draws, rfl⟩

/-- A side of a dual move changes the count of draws and memory at its place at most. -/
theorem sideAccess_kept {old s t : State} {bus : Bus} {a : Access} {d : DataReg} {adr : Word} {pl : Place}
    {ws : List (DataReg × Data)} (h : sideAccess old s bus a d adr pl = .next (ws, t)) :
    ∃ d m, t = { s with draws := d, mem := m } ∧
      (m = s.mem ∨ a.dir = .store ∧ ∃ v, m = writeBytes s.mem pl.start (placeBytes pl) v) := by
  rcases sideAccess_next h with ⟨-, v, h1, -⟩ | ⟨hd, -, h1⟩
  · obtain ⟨d, rfl⟩ := memRead_kept h1
    exact ⟨d, s.mem, rfl, .inl rfl⟩
  · obtain ⟨-, rfl⟩ := memWrite_next h1
    exact ⟨s.draws, _, rfl, .inr ⟨hd, _, rfl⟩⟩

/-- What a move under a condition does when it answers: one of its three shapes. -/
theorem moveEffect_next {s t : State} {c : Bool × Bool} {dst src : Ureg} (h : moveEffect s c dst src = .next t) :
    (∃ k n j m, dst = .dag k n ∧ src = .dag j m ∧ t = dagToDag s c k n (readDag s j m)) ∨
    (∃ k n x, dst = .dag k n ∧ src = .data (.r x) ∧ t = dataToDag s c k n x) ∨
    (∃ k n x, dst = .data (.r x) ∧ src = .dag k n ∧ t = dagToData s c x (readDag s k n)) := by
  unfold moveEffect sRegMove at h
  split at h <;> first | (split at h <;> simp at h) | skip
  all_goals simp at h
  · subst h; exact .inl ⟨_, _, _, _, rfl, rfl, rfl⟩
  · subst h; exact .inr (.inl ⟨_, _, _, rfl, rfl, rfl⟩)
  · subst h; exact .inr (.inr ⟨_, _, _, rfl, rfl, rfl⟩)

/-- What an instruction under a condition does: it is a register move that is given the condition, or it goes ahead as it
would without one, or it is passed over. -/
theorem runUnder_cases (ex : Instr → State → Res State) (c : Cond) (i : Instr) (s : State) :
    (∃ dst src, i.under c = .instr (.uregMove (some c) dst src) ∧
      runUnder ex c i s = ex (.uregMove (some c) dst src) s) ∨
    (i.under c = .cond c i ∧ (skippable (afterCond s c) i = true → holdsFor s c = true) ∧
      runUnder ex c i s = ex i (afterCond s c)) ∨
    (i.under c = .cond c i ∧ skippable (afterCond s c) i = true ∧ holdsFor s c = false ∧
      runUnder ex c i s = .next (advance (afterCond s c))) := by
  have h : (∃ dst src, i.under c = .instr (.uregMove (some c) dst src)) ∨ i.under c = .cond c i := by
    cases i <;> first | exact .inr rfl | exact .inl ⟨_, _, rfl⟩
  rcases h with ⟨dst, src, h⟩ | h
  · exact .inl ⟨dst, src, h, by simp [runUnder, h]⟩
  · simp only [runUnder, h]
    cases hs : skippable (afterCond s c) i <;> cases hc : holdsFor s c <;> simp

/-- What a step does when it answers: an instruction, at once or after a condition's outcome has been consumed, a condition
alone, a field write or the entry of an interrupt. -/
theorem step_next {s t : State} (h : step s = .next t) :
    (∃ i u, exec i u = .next t ∧ (u = popEvent s ∨ ∃ c, u = afterCond (popEvent s) c)) ∨
      (∃ c, t = advance (afterCond (popEvent s) c)) ∨ (∃ f b, t = advance (setField f b (popEvent s))) ∨
      (∃ k, t = irqEntry k (popEvent s)) := by
  unfold step stepWith at h
  split at h
  · simp at h; exact .inr (.inr (.inr ⟨_, h.symm⟩))
  · unfold runFetched at h
    split at h
    · unfold runText at h
      split at h
      · unfold runStatement at h
        split at h
        · exact .inl ⟨_, _, h, .inl rfl⟩
        · rename_i c i _
          rcases runUnder_cases exec c i (popEvent s) with ⟨_, _, -, e⟩ | ⟨-, -, e⟩ | ⟨-, -, -, e⟩ <;> rw [e] at h
          · exact .inl ⟨_, _, h, .inl rfl⟩
          · exact .inl ⟨_, _, h, .inr ⟨c, rfl⟩⟩
          · simp at h; exact .inr (.inl ⟨c, h.symm⟩)
        · simp at h; exact .inr (.inr (.inl ⟨_, _, h.symm⟩))
      · simp at h
    · simp at h

/-! ## Operands -/

theorem operand_reg (s : State) (bus : Bus) (ia : RegNum) (w : Nat) (b : RegNum) :
    operand s bus ia w (.reg b) =
      if dagOf ia = dagOfBus bus ∧ dagOf b = dagOf ia then .next s.mReg[b] else .refused .wrongDag := by
  unfold operand indexOnBus modifyValue
  by_cases h1 : dagOf ia = dagOfBus bus
  · by_cases h2 : dagOf b = dagOf ia
    · simp only [h1, h2, decide_true, require_true, andThen_of_next, and_self, if_true]
    · simp only [h1, decide_true, require_true, andThen_of_next]
      rw [h1] at h2; simp [h2]
  · simp [h1]

theorem operand_imm (s : State) (bus : Bus) (ia : RegNum) (w : Nat) (v : Int) :
    operand s bus ia w (.imm v) =
      if dagOf ia = dagOfBus bus then (if immFits w v = true then .next (immWord v) else .refused .immediateTooWide)
      else .refused .wrongDag := by
  unfold operand indexOnBus modifyValue immediate
  by_cases h1 : dagOf ia = dagOfBus bus
  · by_cases h2 : immFits w v = true <;> simp [h1, h2]
  · simp [h1]

/-- A load of any form, as its chain of operations. -/
theorem exec_of_isLoad {s : State} {mode : AddrMode} {u : Ureg} {bus : Bus} {ia : RegNum} {m : Word} {i : Instr}
    (h : IsLoad s mode u bus ia m i) :
    exec i s = andThen (loadGuard s mode bus ia u) fun _ => andThen (addressOutput mode s ia m) fun a =>
      andThen (loadInto a.2 u bus ia a.1) fun t => .next (advance t) := by
  obtain ⟨h0, h⟩ := h
  cases mode <;> rcases h with ⟨mb, rfl, h1, rfl⟩ | ⟨v, rfl, h1, rfl⟩ <;>
    simp [exec, execLoadPostM, execLoadPostImm, execLoadPreM, execLoadPreImm, loadForm, operand_reg, operand_imm, h0, h1]

/-- A store of any form, as its chain of operations. -/
theorem exec_of_isStore {s : State} {mode : AddrMode} {u : Ureg} {bus : Bus} {ia : RegNum} {m : Word} {i : Instr}
    (h : IsStore s mode u bus ia m i) :
    exec i s = andThen (storeGuard s ia u) fun _ => andThen (addressOutput mode s ia m) fun a =>
      andThen (storeFrom s a.2 u bus a.1) fun t => .next (advance t) := by
  obtain ⟨h0, h⟩ := h
  cases mode <;> rcases h with ⟨mb, rfl, h1, rfl⟩ | ⟨v, rfl, h1, rfl⟩ <;>
    simp [exec, execStorePostM, execStorePostImm, execStorePreM, execStorePreImm, storeForm, operand_reg, operand_imm,
      h0, h1]

/-- A MODIFY of either form, as its chain of operations. -/
theorem exec_of_isModify {s : State} {ia : RegNum} {m : Word} {i : Instr} (h : IsModify s ia m i) :
    exec i s = andThen (modifyIndex s ia m) fun t => .next (advance t) := by
  rcases h with ⟨mb, rfl, h1, rfl⟩ | ⟨v, rfl, h1, rfl⟩
  · simp [exec, execModifyM, modifyValue, h1]
  · simp [exec, execModifyImm, modifyValue, immediate, h1]

/-- The DM and the PM side of a dual move have two index registers. -/
theorem idx_ne_of_bus {a b : RegNum} (h1 : dagOf a = dagOfBus .dm) (h2 : dagOf b = dagOfBus .pm) : b ≠ a := by
  rintro rfl; rw [h1] at h2; cases h2

theorem SideAdmitted.guard {s : State} {bus : Bus} {x : Access} {d : DataReg} {b : RegNum}
    (h : SideAdmitted s bus x d b) (hp : s.mode1.peyen = false) : sideGuard s bus x = .next () := by
  unfold sideGuard
  cases hd : x.dir
  · have := h.noSBroadcast hd
    simp only [loadGuard, h.reg, isGiven, ofDagOf, hp, this]; rfl
  · simp only [storeGuard, h.reg, isGiven, ofDagOf, hp]; rfl

theorem DualReady.admitted {s : State} {x y : Access} {dx dy : DataReg} {bx bM : RegNum} {ux uy : Update}
    (h : DualReady s x y dx dy bx bM ux uy) : DualAdmitted s x y dx dy bx bM :=
  ⟨h.simdOff, h.dm.toSideAdmitted, h.pm.toSideAdmitted, h.twoRegs⟩

/-- A dual move that passes the checks before its addresses, as its chain of operations. -/
theorem exec_of_dualAdmitted {s : State} {x y : Access} {dx dy : DataReg} {bx bM : RegNum}
    (h : DualAdmitted s x y dx dy bx bM) :
    exec (.dualMove x y) s =
      andThen (postModify s x.idx s.mReg[bx]) fun ax =>
      andThen (postModify ax.2 y.idx s.mReg[bM]) fun ay =>
      andThen (dataPlace s.platform .dm ax.1) fun px =>
      andThen (dataPlace s.platform .pm ay.1) fun py =>
      andThen (require (!(samePlace px py && someStore x y)) .dualSameStorage) fun _ =>
      andThen (sideAccess s ay.2 .dm x dx ax.1 px) fun tx =>
      andThen (sideAccess s tx.2 .pm y dy ay.1 py) fun ty =>
      .next (advance (dualWrites ty.2 tx.1 ty.1)) := by
  obtain ⟨hp, hx, hy, hd⟩ := h
  have ox : sideOperands x = .next (dx, bx) := by unfold sideOperands; simp [hx.reg, hx.post, hx.modifier]
  have oy : sideOperands y = .next (dy, bM) := by unfold sideOperands; simp [hy.reg, hy.post, hy.modifier]
  simp only [exec, execDualMove, ox, oy, andThen_of_next, operand_reg, hx.onBus, hx.sameDag, hy.onBus, hy.sameDag,
    and_self, if_true, hp, hd, Bool.not_false, require_true, hx.guard hp, hy.guard hp]

/-- The state of a dual move after both addresses have been put out. -/
def afterDualAddresses (s : State) (x y : Access) (ux uy : Update) : State :=
  noteOverflow (writeDag (noteOverflow (writeDag s .i x.idx ux.value) x.idx ux.wrapped) .i y.idx uy.value) y.idx uy.wrapped

/-- A dual move whose sides put their addresses out, as its chain of operations. -/
theorem exec_of_dualReady {s : State} {x y : Access} {dx dy : DataReg} {bx bM : RegNum} {ux uy : Update}
    (h : DualReady s x y dx dy bx bM ux uy) :
    exec (.dualMove x y) s =
      andThen (dataPlace s.platform .dm (outAddr s x.idx s.iReg[x.idx])) fun px =>
      andThen (dataPlace s.platform .pm (outAddr s y.idx s.iReg[y.idx])) fun py =>
      andThen (require (!(samePlace px py && someStore x y)) .dualSameStorage) fun _ =>
      andThen (sideAccess s (afterDualAddresses s x y ux uy) .dm x dx (outAddr s x.idx s.iReg[x.idx]) px) fun tx =>
      andThen (sideAccess s tx.2 .pm y dy (outAddr s y.idx s.iReg[y.idx]) py) fun ty =>
      .next (advance (dualWrites ty.2 tx.1 ty.1)) := by
  rw [exec_of_dualAdmitted h.admitted, postModify_of h.dm.notReversed h.dm.update, andThen_of_next,
    postModify_after _ _ (idx_ne_of_bus h.dm.onBus h.pm.onBus) h.pm.notReversed h.pm.update, andThen_of_next]
  rfl

/-- Putting a dual move's addresses out changes the two index registers and the overflow status alone. -/
theorem afterDualAddresses_kept (s : State) (x y : Access) (ux uy : Update) :
    KeptByAddress s (afterDualAddresses s x y ux uy) := by
  constructor <;> simp [afterDualAddresses, writeDag]

theorem afterDualAddresses_iReg {s : State} {x y : Access} {dx dy : DataReg} {bx bM : RegNum} {ux uy : Update}
    (h : DualReady s x y dx dy bx bM ux uy) :
    (afterDualAddresses s x y ux uy).iReg[x.idx] = ux.value ∧ (afterDualAddresses s x y ux uy).iReg[y.idx] = uy.value := by
  have hne := (idx_ne_of_bus h.dm.onBus h.pm.onBus).symm
  constructor
  · simp only [afterDualAddresses, noteOverflow_iReg, writeDag, get_set, hne, if_false, if_true]
  · simp only [afterDualAddresses, noteOverflow_iReg, writeDag, get_set, if_true]

/-! ## The writes of a dual move -/

theorem readData_settle {s : State} {ds : List DataReg} {d : DataReg} (h : d ∉ ds) :
    readData (settle s ds) d = readData s d := by
  induction ds generalizing s with
  | nil => rfl
  | cons e ds ih =>
    simp only [List.mem_cons, not_or] at h
    rw [settle, ih h.2, readData_writeData, if_neg h.1]
    cases d <;> rfl

theorem mem_clashes {ws vs : List (DataReg × Data)} {d : DataReg} (h : d ∈ clashes ws vs) :
    (∃ v, (d, v) ∈ ws) ∧ ∃ v, (d, v) ∈ vs := by
  simp only [clashes, List.mem_filter, List.mem_map, List.any_eq_true, decide_eq_true_eq] at h
  obtain ⟨⟨⟨a, b⟩, h1, rfl⟩, c, ⟨⟨a', b'⟩, h3, rfl⟩, h4⟩ := h
  simp only at h4
  exact ⟨⟨b, h1⟩, ⟨b', by rw [h4]; exact h3⟩⟩

/-- A register only the first side loads holds the first side's value. -/
theorem readData_dualWrites_first {s : State} {ws vs : List (DataReg × Data)} {d : DataReg} (h : ∀ v, (d, v) ∉ vs) :
    readData (dualWrites s ws vs) d = readData (writeAll s ws) d := by
  rw [dualWrites, readData_settle, readData_writeAll_of_not_mem h]
  intro hc; obtain ⟨-, v, hv⟩ := mem_clashes hc; exact h v hv

/-- A register only the second side loads holds the second side's value. -/
theorem readData_dualWrites_second {s : State} {ws vs : List (DataReg × Data)} {d : DataReg} (h : ∀ v, (d, v) ∉ ws) :
    readData (dualWrites s ws vs) d = readData (writeAll (writeAll s ws) vs) d := by
  rw [dualWrites, readData_settle]
  intro hc; obtain ⟨⟨v, hv⟩, -⟩ := mem_clashes hc; exact h v hv

end Sys2Proof.Machine
end

