-- ==== Sys2Proof/Laws/PerInstr.lean ====
section
/-! SUPPORT. The units of every instruction parse back to it, one lemma per constructor, and the lemmas about names they
rest on. -/

namespace Sys2Proof

/-! ## Names -/

theorem uregOf_uregText (u : Ureg) : uregOf (uregText u) = some u := by
  rcases u with ⟨k, n⟩ | (x | x) | q
  · cases k <;> revert n <;> decide +kernel
  · revert x; decide +kernel
  · revert x; decide +kernel
  · cases q <;> decide +kernel

theorem busOfText_busText (b : Bus) : busOfText (busText b) = some b := by
  cases b <;> decide

@[simp] theorem itemOf_indexToken (n : RegNum) : itemOf (indexToken n) = some (.index n) := by
  simp [itemOf, indexToken, uregOf_uregText]

@[simp] theorem itemOf_modifyToken (n : RegNum) : itemOf (modifyToken n) = some (.modify n) := by
  simp [itemOf, modifyToken, uregOf_uregText]

@[simp] theorem itemOf_num (v : Int) : itemOf (.num v) = some (.imm v) := rfl

theorem letterOf_letterByte (l : Fin 26) : letterOf (letterByte l) = some l := by
  revert l; decide +kernel

theorem lettersOf_map (ls : List (Fin 26)) : lettersOf (ls.map letterByte) = some ls := by
  induction ls with
  | nil => rfl
  | cons l ls ih => simp [lettersOf, letterOf_letterByte, ih]

theorem condOf_condText (c : Cond) : condOf (condText c) = some c := by
  rw [condOf, condText, lettersOf_map]

theorem fieldOf_fieldText (f : SysField) : fieldOf (fieldText f).1 (fieldText f).2 = some f := by
  cases f <;> decide +kernel

/-! ## Accesses -/

theorem operandOf_post (idx : RegNum) (md : Modifier) :
    operandOf (indexToken idx) (modifierToken md) = some (.post, idx, md) := by
  cases md <;> simp [operandOf, modifierToken]

theorem operandOf_pre (idx : RegNum) (md : Modifier) :
    operandOf (modifierToken md) (indexToken idx) = some (.pre, idx, md) := by
  cases md <;> simp [operandOf, modifierToken]

/-- The units of an access read as that access. -/
theorem accessOf_accessTokens (bus : Bus) (a : Access) : accessOf (accessTokens bus a) = some (bus, a) := by
  rcases a with ⟨_ | _, u, _ | _, idx, md⟩ <;>
    simp [accessTokens, loadTokens, storeTokens, operandTokens, accessOf, uregOf_uregText, busOfText_busText,
      operandOf_post, operandOf_pre]

/-- No unit of an access is a semicolon. -/
theorem beforeSemi_append {ts : List Token} (h : ∀ t ∈ ts, t ≠ .semi) : beforeSemi (ts ++ [.semi]) = some ts := by
  induction ts with
  | nil => rfl
  | cons t ts ih =>
    have ht := h t (by simp)
    have := ih fun t ht => h t (by simp [ht])
    cases t <;> first | exact absurd rfl ht | simp [beforeSemi, this]

theorem accessTokens_no_semi (bus : Bus) (a : Access) : ∀ t ∈ accessTokens bus a, t ≠ .semi := by
  rcases a with ⟨_ | _, u, _ | _, idx, _ | _⟩ <;>
    simp [accessTokens, loadTokens, storeTokens, operandTokens, indexToken, modifierToken, modifyToken]

/-- The units of one access read as its single load or store. -/
theorem instructionOf_access (bus : Bus) (a : Access) :
    instructionOf (accessTokens bus a) = some (instrOfAccess bus a) := by
  have h : singleOf (accessTokens bus a) = some (instrOfAccess bus a) := by
    rw [singleOf, accessOf_accessTokens]; rfl
  rcases a with ⟨_ | _, u, _ | _, idx, md⟩ <;>
    simp [instructionOf, firstOf, pushOf, loadImmOf, moveOf, operationOf, accessTokens, loadTokens, storeTokens,
      operandTokens] at h ⊢ <;> rw [h]

/-- The units of a named operation read as `namedOf` reads them. -/
theorem instructionOf_named {w : List Byte} {x y : Token} {i : Instr} (h : namedOf w x y = some i) :
    instructionOf (namedTokens w x y) = some i := by
  simp [instructionOf, firstOf, pushOf, loadImmOf, moveOf, operationOf, namedTokens, h]

/-- The units of a dual move read as it. -/
theorem instructionOf_dual (x y : Access) :
    instructionOf (accessTokens .dm x ++ [.comma] ++ accessTokens .pm y) = some (.dualMove x y) := by
  have h1 := accessOf_accessTokens .dm x
  have h2 := accessOf_accessTokens .pm y
  rcases x with ⟨_ | _, u, _ | _, idx, md⟩ <;>
    simp [instructionOf, firstOf, pushOf, loadImmOf, moveOf, operationOf, singleOf, dualOf, accessTokens, loadTokens,
      storeTokens, operandTokens, accessOf] at h1 h2 ⊢ <;>
    simp [h1, h2]

/-! ## Every instruction -/

/-- An instruction without the condition a register move may carry. -/
def Instr.bare : Instr → Instr
  | .uregMove _ dst src => .uregMove none dst src
  | i => i

/-- The units of an instruction without its condition read as it. -/
theorem instructionOf_bareTokens (i : Instr) : instructionOf (bareTokens i) = some i.bare := by
  cases i with
  | loadPostM u bus ia mb => exact instructionOf_access bus ⟨.load, u, .post, ia, .reg mb⟩
  | storePostM bus ia mb u => exact instructionOf_access bus ⟨.store, u, .post, ia, .reg mb⟩
  | loadPostImm u bus ia imm => exact instructionOf_access bus ⟨.load, u, .post, ia, .imm imm⟩
  | storePostImm bus ia imm u => exact instructionOf_access bus ⟨.store, u, .post, ia, .imm imm⟩
  | loadPreM u bus mb ia => exact instructionOf_access bus ⟨.load, u, .pre, ia, .reg mb⟩
  | storePreM bus mb ia u => exact instructionOf_access bus ⟨.store, u, .pre, ia, .reg mb⟩
  | loadPreImm u bus imm ia => exact instructionOf_access bus ⟨.load, u, .pre, ia, .imm imm⟩
  | storePreImm bus imm ia u => exact instructionOf_access bus ⟨.store, u, .pre, ia, .imm imm⟩
  | dualMove x y => exact instructionOf_dual x y
  | modifyM ia mb => exact instructionOf_named (by simp [namedOf, Instr.bare])
  | modifyImm ia imm => exact instructionOf_named (by simp [namedOf, Instr.bare])
  | jumpIndirect md ic => exact instructionOf_named (by simp [namedOf, Instr.bare])
  | pushSts => decide +kernel
  | bitrevImm ia imm =>
    exact instructionOf_named (by simp [namedOf, Instr.bare, show bytesOf "BITREV" ≠ bytesOf "MODIFY" by decide])
  | dagregLoadImm k n imm =>
    simp [bareTokens, Instr.bare, instructionOf, firstOf, pushOf, loadImmOf, uregOf_uregText]
  | uregMove cond dst src =>
    simp [bareTokens, Instr.bare, moveTokens, instructionOf, firstOf, pushOf, loadImmOf, moveOf, uregOf_uregText]

/-- No unit of an instruction is a semicolon. -/
theorem bareTokens_no_semi (i : Instr) : ∀ t ∈ bareTokens i, t ≠ .semi := by
  cases i with
  | loadPostM u bus ia mb => exact accessTokens_no_semi bus ⟨.load, u, .post, ia, .reg mb⟩
  | storePostM bus ia mb u => exact accessTokens_no_semi bus ⟨.store, u, .post, ia, .reg mb⟩
  | loadPostImm u bus ia imm => exact accessTokens_no_semi bus ⟨.load, u, .post, ia, .imm imm⟩
  | storePostImm bus ia imm u => exact accessTokens_no_semi bus ⟨.store, u, .post, ia, .imm imm⟩
  | loadPreM u bus mb ia => exact accessTokens_no_semi bus ⟨.load, u, .pre, ia, .reg mb⟩
  | storePreM bus mb ia u => exact accessTokens_no_semi bus ⟨.store, u, .pre, ia, .reg mb⟩
  | loadPreImm u bus imm ia => exact accessTokens_no_semi bus ⟨.load, u, .pre, ia, .imm imm⟩
  | storePreImm bus imm ia u => exact accessTokens_no_semi bus ⟨.store, u, .pre, ia, .imm imm⟩
  | dualMove x y =>
    have h1 := accessTokens_no_semi .dm x
    have h2 := accessTokens_no_semi .pm y
    simp only [bareTokens, List.mem_append, List.mem_singleton]
    rintro t ((h | rfl) | h)
    · exact h1 t h
    · simp
    · exact h2 t h
  | _ => simp [bareTokens, namedTokens, moveTokens, indexToken, modifyToken]

/-- The units of an instruction under a condition read as the statement that carries it. -/
theorem conditionalOf_tokens (c : Cond) (i : Instr) :
    conditionalOf (conditionTokens c ++ bareTokens i) = some (i.under c) := by
  have h : i.bare.under c = i.under c := by cases i <;> rfl
  simp [conditionalOf, conditionTokens, condOf_condText, instructionOf_bareTokens, h]

theorem accessOf_words (a b : List Byte) (ts : List Token) : accessOf (.word a :: .word b :: ts) = none := by
  unfold accessOf; split <;> simp_all

/-- Units that begin with a condition are no instruction without one. -/
theorem instructionOf_condition (c : Cond) (ts : List Token) : instructionOf (conditionTokens c ++ ts) = none := by
  have hp : bytesOf "IF" ≠ bytesOf "PUSH" := by decide
  have hd : dualOf (.word (bytesOf "IF") :: .word (condText c) :: ts) = none := by
    unfold dualOf; split <;> simp [accessOf_words]
  have h1 : pushOf (.word (bytesOf "IF") :: .word (condText c) :: ts) = none := by
    cases ts <;> simp [pushOf, hp]
  simp [conditionTokens, instructionOf, firstOf, h1, loadImmOf, moveOf, operationOf, singleOf, accessOf_words, hd]

/-- The units of an instruction under a condition and a semicolon parse to the statement that carries it. -/
theorem parse_cond (c : Cond) (i : Instr) : parse (conditionTokens c ++ bareTokens i ++ [.semi]) = some (i.under c) := by
  have hs : ∀ t ∈ conditionTokens c ++ bareTokens i, t ≠ .semi := by
    have := bareTokens_no_semi i
    simp only [conditionTokens, List.mem_append, List.mem_cons, List.not_mem_nil, or_false]
    rintro t ((rfl | rfl) | h)
    · simp
    · simp
    · exact this t h
  rw [parse, beforeSemi_append hs]
  simp only [statementOf, firstOf, instructionOf_condition, Option.map_none, conditionalOf_tokens]

/-- The units of an instruction without a condition and a semicolon parse to it. -/
theorem parse_bare (i : Instr) : parse (bareTokens i ++ [.semi]) = some (.instr i.bare) := by
  rw [parse, beforeSemi_append (bareTokens_no_semi i)]
  simp [statementOf, firstOf, instructionOf_bareTokens]

/-- An instruction the decoder puts under a condition is no register move. -/
theorem under_of_decode {bs : List Byte} {c : Cond} {i : Instr} (h : decode bs = .ok (.cond c i)) :
    i.under c = .cond c i := by
  have key {ts : List Token} (h : statementOf ts = some (.cond c i)) : i.under c = .cond c i := by
    unfold statementOf firstOf at h
    split at h
    · rename_i st h1
      cases hi : instructionOf ts <;> simp_all
    · unfold firstOf at h
      split at h
      · rename_i st h1
        unfold conditionalOf at h1
        split at h1
        · split at h1
          · split at h1
            · rename_i d j _ _
              simp only [Option.some.injEq] at h h1
              subst h
              cases j <;> simp [Instr.under] at h1 <;> obtain ⟨rfl, rfl⟩ := h1 <;> rfl
            · simp at h1
          · simp at h1
        · simp at h1
      · unfold firstOf at h
        split at h
        · rename_i st h1
          unfold setFieldOf at h1
          simp only [Option.some.injEq] at h
          subst h
          repeat' split at h1
          all_goals simp at h1
        · simp [firstOf] at h
  unfold decode at h
  split at h
  · split at h
    · rename_i st hp
      simp only [Except.ok.injEq] at h
      subst h
      unfold parse at hp
      split at hp
      · exact key hp
      · simp at hp
    · simp at h
  · simp at h

end Sys2Proof

namespace Sys2Proof.Laws.ParsesBack

/-- The units the encoder gives an instruction, with their semicolon, parse to that instruction. -/
def Statement (i : Instr) : Prop := parse (statementTokens (.instr i) ++ [.semi]) = some (.instr i)

theorem loadPostM (u : Ureg) (bus : Bus) (ia mb : RegNum) : Statement (.loadPostM u bus ia mb) :=
  parse_bare (.loadPostM u bus ia mb)

theorem storePostM (bus : Bus) (ia mb : RegNum) (u : Ureg) : Statement (.storePostM bus ia mb u) :=
  parse_bare (.storePostM bus ia mb u)

theorem loadPostImm (u : Ureg) (bus : Bus) (ia : RegNum) (imm : Int) : Statement (.loadPostImm u bus ia imm) :=
  parse_bare (.loadPostImm u bus ia imm)

theorem storePostImm (bus : Bus) (ia : RegNum) (imm : Int) (u : Ureg) : Statement (.storePostImm bus ia imm u) :=
  parse_bare (.storePostImm bus ia imm u)

theorem loadPreM (u : Ureg) (bus : Bus) (mb ia : RegNum) : Statement (.loadPreM u bus mb ia) :=
  parse_bare (.loadPreM u bus mb ia)

theorem storePreM (bus : Bus) (mb ia : RegNum) (u : Ureg) : Statement (.storePreM bus mb ia u) :=
  parse_bare (.storePreM bus mb ia u)

theorem loadPreImm (u : Ureg) (bus : Bus) (imm : Int) (ia : RegNum) : Statement (.loadPreImm u bus imm ia) :=
  parse_bare (.loadPreImm u bus imm ia)

theorem storePreImm (bus : Bus) (imm : Int) (ia : RegNum) (u : Ureg) : Statement (.storePreImm bus imm ia u) :=
  parse_bare (.storePreImm bus imm ia u)

theorem dualMove (x y : Access) : Statement (.dualMove x y) :=
  parse_bare (.dualMove x y)

theorem modifyM (ia mb : RegNum) : Statement (.modifyM ia mb) :=
  parse_bare (.modifyM ia mb)

theorem modifyImm (ia : RegNum) (imm : Int) : Statement (.modifyImm ia imm) :=
  parse_bare (.modifyImm ia imm)

theorem jumpIndirect (md ic : RegNum) : Statement (.jumpIndirect md ic) :=
  parse_bare (.jumpIndirect md ic)

theorem pushSts : Statement .pushSts :=
  parse_bare .pushSts

theorem bitrevImm (ia : RegNum) (imm : Int) : Statement (.bitrevImm ia imm) :=
  parse_bare (.bitrevImm ia imm)

theorem dagregLoadImm (k : DagKind) (n : RegNum) (imm : Int) : Statement (.dagregLoadImm k n imm) :=
  parse_bare (.dagregLoadImm k n imm)

theorem uregMove (cond : Option Cond) (dst src : Ureg) : Statement (.uregMove cond dst src) := by
  cases cond with
  | none => exact parse_bare (.uregMove none dst src)
  | some c => exact parse_cond c (.uregMove none dst src)

end Sys2Proof.Laws.ParsesBack
end

