-- ==== Sys2Proof/Laws/Text.lean ====
section
/-! SUPPORT. The lexer reads back the text of well-formed units. -/

namespace Sys2Proof

theorem lexFrom_extend {r r' : Reading} {b : Byte} {bs} (h : extend b r = some r') : lexFrom r (b :: bs) = lexFrom r' bs := by
  simp [lexFrom, h]

theorem lexFrom_extend_all {r r' : Reading} {ds bs : List Byte} (h : ds.foldlM (fun r b => extend b r) r = some r') :
    lexFrom r (ds ++ bs) = lexFrom r' bs := by
  induction ds generalizing r with
  | nil => simp at h; subst h; rfl
  | cons d ds ih =>
    simp only [List.foldlM_cons, Option.bind_eq_bind, Option.bind_eq_some_iff] at h
    obtain ⟨r1, h1, h2⟩ := h
    rw [List.cons_append, lexFrom_extend h1, ih h2]

/-- A blank ends any reading. -/
theorem extend_blank (r : Reading) : extend 32 r = none := by
  have a : isLetter (32 : Byte) = false := by decide
  have b : isDigit (32 : Byte) = false := by decide
  have c : isHexMark (32 : Byte) = false := by decide
  have d : hexValue (32 : Byte) = none := by decide
  have e : (32 : Byte).toNat ≠ 48 := by decide
  cases r <;> simp only [extend, a, b, c, d] <;> simp

theorem lexFrom_blank {r : Reading} {ts bs us} (h : finish r = .ok ts) (hr : lexFrom .idle bs = .ok us) :
    lexFrom r (32 :: bs) = .ok (ts ++ us) := by
  have : start 32 = .ok ([], .idle) := by rfl
  rw [lexFrom, extend_blank]; simp only [h, this, hr]; simp

theorem lexFrom_idle {b : Byte} {bs us ts r} (h : start b = .ok (us, r)) (hr : lexFrom r bs = .ok ts) : lexFrom .idle (b :: bs) = .ok (us ++ ts) := by
  simp [lexFrom, extend, finish, h, hr]

/-- A byte a word of the text may go on with. -/
def upperOrDigit (b : Byte) : Bool := isUpper b || isDigit b
/-- A word as the lexer reads it: an upper case letter, then upper case letters and digits. -/
def wordOk : List Byte → Bool
  | [] => false
  | b :: w => isUpper b && w.all upperOrDigit

theorem extend_word_byte : ∀ b : Byte, upperOrDigit b = true → ((isLetter b || isDigit b) = true ∧ upper b = b) := by decide +kernel
theorem start_word : ∀ b : Byte, isUpper b = true → (start b) = Except.ok ([], Reading.word [b]) := by
  intro b h
  have h1 : punctuation b = none := by revert h; revert b; decide +kernel
  have h2 : isBlank b = false := by revert h h1; revert b; decide +kernel
  have h3 : isLetter b = true := by revert h h1 h2; revert b; decide +kernel
  have h4 : upper b = b := by revert h h1 h2 h3; revert b; decide +kernel
  simp [start, h1, h2, h3, h4]

theorem extend_word (rev w : List Byte) (h : w.all upperOrDigit = true) :
    w.foldlM (fun r b => extend b r) (Reading.word rev) = some (.word (w.reverse ++ rev)) := by
  induction w generalizing rev with
  | nil => rfl
  | cons b w ih =>
    simp only [List.all_cons, Bool.and_eq_true] at h
    have := extend_word_byte b h.1
    have e : extend b (.word rev) = some (.word (b :: rev)) := by simp [extend, this]
    rw [List.foldlM_cons, e, Option.bind_eq_bind, Option.bind_some, ih _ h.2]; simp

theorem lex_word {w bs us} (hw : wordOk w = true) (hr : lexFrom .idle bs = .ok us) : lexFrom .idle (w ++ 32 :: bs) = .ok (.word w :: us) := by
  cases w with
  | nil => simp [wordOk] at hw
  | cons b w =>
    simp only [wordOk, Bool.and_eq_true] at hw
    have h2 := extend_word [b] w hw.2
    have := lexFrom_blank (r := .word (w.reverse ++ [b])) (by simp [finish]; rfl) hr
    rw [← lexFrom_extend_all h2] at this
    simpa using lexFrom_idle (start_word b hw.1) this

/-- A decimal digit but zero. -/
def leadingDigit (d : Byte) : Prop := 49 ≤ d.toNat ∧ d.toNat ≤ 57

theorem digit_ofNat (v : Nat) : (BitVec.ofNat 8 (48 + v % 10)).toNat = 48 + v % 10 := by
  rw [BitVec.toNat_ofNat]; omega

theorem extend_digits (neg : Bool) (fuel v : Nat) (hv : 0 < v) (hf : v < fuel) :
    ∃ d ds, digitsText fuel v = d :: ds ∧ leadingDigit d ∧
      ds.foldlM (fun r b => extend b r) (Reading.dec neg (d.toNat - 48)) = some (.dec neg v) := by
  induction fuel generalizing v with
  | zero => omega
  | succ fuel ih =>
    by_cases h : v < 10
    · refine ⟨BitVec.ofNat 8 (48 + v % 10), [], by simp [digitsText, h], ?_, ?_⟩
      · unfold leadingDigit; rw [digit_ofNat]; omega
      · rw [digit_ofNat]; simp; omega
    · obtain ⟨d, ds, h1, h2, h3⟩ := ih (v / 10) (by omega) (by omega)
      refine ⟨d, ds ++ [BitVec.ofNat 8 (48 + v % 10)], by simp [digitsText, h, h1], h2, ?_⟩
      rw [List.foldlM_append, h3]
      have hd := digit_ofNat v
      have : isDigit (BitVec.ofNat 8 (48 + v % 10)) = true := by
        simp only [isDigit, hd, decide_eq_true_eq]; omega
      simp only [Option.bind_eq_bind, Option.bind_some, List.foldlM_cons, List.foldlM_nil, extend, this, if_true, hd]
      simp; omega

theorem start_digit (d : Byte) (h : leadingDigit d) : start d = .ok ([], .dec false (d.toNat - 48)) := by
  unfold leadingDigit at h
  have h1 : punctuation d = none := by simp only [punctuation]; repeat (rw [if_neg (by omega)])
  have h2 : isBlank d = false := by simp only [isBlank, decide_eq_false_iff_not]; omega
  have h3 : isLetter d = false := by simp only [isLetter, isUpper, isLower, Bool.or_eq_false_iff, decide_eq_false_iff_not]; omega
  have h4 : isDigit d = true := by simp only [isDigit, decide_eq_true_eq]; omega
  simp [start, h1, h2, h3, h4, show d.toNat ≠ 48 by omega]

theorem extend_minus_digit (d : Byte) (h : leadingDigit d) : extend d .minus = some (.dec true (d.toNat - 48)) := by
  unfold leadingDigit at h
  have h4 : isDigit d = true := by simp only [isDigit, decide_eq_true_eq]; omega
  simp [extend, h4, show d.toNat ≠ 48 by omega]

theorem lex_num {v : Int} {bs us} (hr : lexFrom .idle bs = .ok us) : lexFrom .idle (intText v ++ 32 :: bs) = .ok (.num v :: us) := by
  unfold intText
  split
  · rename_i hv
    obtain ⟨d, ds, h1, h2, h3⟩ := extend_digits true (v.natAbs + 1) v.natAbs (by omega) (by omega)
    rw [h1]
    have := lexFrom_blank (r := .dec true v.natAbs) rfl hr
    rw [← lexFrom_extend_all h3, ← lexFrom_extend (extend_minus_digit d h2)] at this
    have h := lexFrom_idle (b := 45) (us := []) (r := .minus) rfl this
    rw [show signed true v.natAbs = v by simp only [signed, if_true]; omega] at h
    exact h
  · rename_i hv
    by_cases h0 : v = 0
    · subst h0
      have := lexFrom_blank (r := .zero false) rfl hr
      exact lexFrom_idle (b := 48) (us := []) (r := .zero false) rfl this
    · obtain ⟨d, ds, h1, h2, h3⟩ := extend_digits false (v.natAbs + 1) v.natAbs (by omega) (by omega)
      rw [h1]
      have := lexFrom_blank (r := .dec false v.natAbs) rfl hr
      rw [← lexFrom_extend_all h3] at this
      have h := lexFrom_idle (start_digit d h2) this
      rw [show signed false v.natAbs = v by simp only [signed]; simp; omega] at h
      exact h

/-- A unit whose text reads back: any but an ill-formed word. -/
def tokOk : Token → Bool
  | .word w => wordOk w
  | _ => true

/-- The text of well-formed units reads as them. -/
theorem lex_render (ts : List Token) (h : ∀ t ∈ ts, tokOk t = true) : lexFrom .idle (render ts) = .ok ts := by
  induction ts with
  | nil => rfl
  | cons t ts ih =>
    have hr := ih fun t ht => h t (by simp [ht])
    have ht := h t (by simp)
    have hb := lexFrom_blank (r := .idle) rfl hr
    rw [render]
    cases t with
    | word w => exact lex_word ht hr
    | num v => exact lex_num hr
    | lpar => exact lexFrom_idle (b := 40) (us := [.lpar]) (r := .idle) rfl hb
    | rpar => exact lexFrom_idle (b := 41) (us := [.rpar]) (r := .idle) rfl hb
    | comma => exact lexFrom_idle (b := 44) (us := [.comma]) (r := .idle) rfl hb
    | equals => exact lexFrom_idle (b := 61) (us := [.equals]) (r := .idle) rfl hb
    | dot => exact lexFrom_idle (b := 46) (us := [.dot]) (r := .idle) rfl hb
    | semi => exact lexFrom_idle (b := 59) (us := [.semi]) (r := .idle) rfl hb

theorem wordOk_uregText (u : Ureg) : wordOk (uregText u) = true := by
  rcases u with ⟨k, n⟩ | (x | x) | q
  · cases k <;> revert n <;> decide +kernel
  · revert x; decide +kernel
  · revert x; decide +kernel
  · cases q <;> decide +kernel

theorem wordOk_busText (u : Bus) : wordOk (busText u) = true := by cases u <;> decide
theorem wordOk_condText (c : Cond) : wordOk (condText c) = true := by
  have h : ∀ l : Fin 26, isUpper (letterByte l) = true := by decide +kernel
  simp only [condText, List.map_cons, wordOk, h, Bool.true_and, List.all_eq_true, List.mem_map]
  rintro b ⟨l, -, rfl⟩
  simp [upperOrDigit, h]

end Sys2Proof
end

