-- ==== Sys2Proof/Laws/Values.lean ====
section
/-! SUPPORT. The data path in numbers: what the parts of words and registers are, and that a stored value fits its word. -/

namespace Sys2Proof.Machine

theorem widen_toNat (v : Word) : (widen v).toNat = v.toNat * 256 := by
  have h : (widen v).toNat = v.toNat <<< 8 ||| 0 := BitVec.toNat_append v (0 : BitVec 8)
  rw [h, Nat.or_zero, Nat.shiftLeft_eq]

theorem hi32_toNat (d : Data) : (hi32 d).toNat = d.toNat / 256 := by
  have := d.isLt
  rw [hi32, BitVec.extractLsb'_toNat, Nat.shiftRight_eq_div_pow]; omega

theorem low32_ofNat (v : Nat) : low32 (BitVec.ofNat 64 v) = BitVec.ofNat 32 v := by
  apply BitVec.eq_of_toNat_eq
  rw [low32, BitVec.extractLsb'_toNat, BitVec.toNat_ofNat, BitVec.toNat_ofNat]
  simp

theorem high32_ofNat (v : Nat) (h : v < 2 ^ 64) : high32 (BitVec.ofNat 64 v) = BitVec.ofNat 32 (v / 2 ^ 32) := by
  apply BitVec.eq_of_toNat_eq
  rw [high32, BitVec.extractLsb'_toNat, BitVec.toNat_ofNat, BitVec.toNat_ofNat, Nat.shiftRight_eq_div_pow]
  omega

theorem widen_low32 (v : Nat) : widen (low32 (BitVec.ofNat 64 v)) = BitVec.ofNat 40 (v % 2 ^ 32 * 256) := by
  apply BitVec.eq_of_toNat_eq
  rw [widen_toNat, low32_ofNat, BitVec.toNat_ofNat, BitVec.toNat_ofNat]; omega

theorem widen_high32 (v : Nat) (h : v < 2 ^ 64) :
    widen (high32 (BitVec.ofNat 64 v)) = BitVec.ofNat 40 (v / 2 ^ 32 * 256) := by
  apply BitVec.eq_of_toNat_eq
  rw [widen_toNat, high32_ofNat v h, BitVec.toNat_ofNat, BitVec.toNat_ofNat]; omega

theorem extract_whole (v : Nat) : (BitVec.ofNat 64 v).extractLsb' 0 40 = BitVec.ofNat 40 v := by
  apply BitVec.eq_of_toNat_eq
  rw [BitVec.extractLsb'_toNat, BitVec.toNat_ofNat, BitVec.toNat_ofNat]; simp

theorem extract_upper (v : Nat) (h : v < 2 ^ 40) :
    (BitVec.ofNat 64 v).extractLsb' 8 32 = BitVec.ofNat 32 (v / 256) := by
  apply BitVec.eq_of_toNat_eq
  rw [BitVec.extractLsb'_toNat, BitVec.toNat_ofNat, BitVec.toNat_ofNat, Nat.shiftRight_eq_div_pow]; omega

theorem append_toNat (x y : Word) : ((x ++ y : Long)).toNat = x.toNat * 2 ^ 32 + y.toNat := by
  rw [BitVec.toNat_append, Nat.shiftLeft_eq, Nat.mul_comm, Nat.two_pow_add_eq_or_of_lt y.isLt]

/-- The word stored, as the number the spec gives. -/
theorem storeWord_toNat (s : State) (c : WordClass) (u : Ureg) (hc : c ≠ .short16) (hn : c ≠ .notData)
    (hg : isGiven u = true) : (storeWord s c u).toNat = storedValue s c u := by
  rcases u with ⟨k, n⟩ | d | q
  · have := (readDag s k n).isLt
    have := (readDag s k (pairOf n)).isLt
    cases c <;> simp_all [storeWord, dagWord, storedValue, widen_toNat, append_toNat] <;> omega
  · have := (readData s d).isLt
    cases c <;> simp_all [storeWord, dataWord, storedValue, hi32_toNat, append_toNat] <;> omega
  · simp [isGiven] at hg

/-- The stored value fits the word. -/
theorem storedValue_lt (s : State) (pl : Place) (u : Ureg) : storedValue s pl.cls u < 256 ^ placeBytes pl := by
  unfold placeBytes
  rcases u with ⟨k, n⟩ | d | q
  · have := (readDag s k n).isLt
    have := (readDag s k (pairOf n)).isLt
    cases pl.cls <;> simp only [storedValue, wordBytes] <;> norm_num <;> omega
  · have := (readData s d).isLt
    have := (readData s (dataPair d)).isLt
    cases pl.cls <;> simp only [storedValue, wordBytes] <;> norm_num <;> omega
  · cases pl.cls <;> simp [storedValue, wordBytes]

/-! ## The writes of a load -/

theorem dataPair_ne (d : DataReg) : dataPair d ≠ d := by cases d <;> simp [dataPair, dataPairOf_ne]

theorem writeAll_append (s : State) (a b : List (DataReg × Data)) :
    writeAll s (a ++ b) = writeAll (writeAll s a) b := by
  induction a generalizing s with
  | nil => rfl
  | cons p a ih => obtain ⟨d, v⟩ := p; simp [writeAll, ih]

/-- A lane's writes go to the register and, for a long word, to its pair partner. -/
theorem laneWrites_dest {c : WordClass} {d e : DataReg} {v : Long} {x : Data} (h : (e, x) ∈ laneWrites c d v) :
    e = d ∨ (c = .long64 ∧ e = dataPair d) := by
  cases c <;> simp [laneWrites] at h <;> tauto

/-- What a lane's writes leave in the register. -/
theorem laneWrites_named (s : State) (c : WordClass) (d : DataReg) (v : Nat) (hc : c ≠ .short16) (hn : c ≠ .notData) :
    readData (writeAll s (laneWrites c d (BitVec.ofNat 64 v))) d = namedValue c v := by
  cases c
  · exact absurd rfl hc
  · simp only [laneWrites, writeAll, readData_writeData, if_true, namedValue, widen_low32]
  · simp only [laneWrites, writeAll, readData_writeData, if_true, namedValue, extract_whole]
  · have := (dataPair_ne d).symm
    simp only [laneWrites, writeAll, readData_writeData, if_true, this, if_false, namedValue, widen_low32]
  · exact absurd rfl hn

/-- What a lane's writes of a long word leave in the pair partner. -/
theorem laneWrites_partner (s : State) (d : DataReg) (v : Nat) (hv : v < 2 ^ 64) :
    readData (writeAll s (laneWrites .long64 d (BitVec.ofNat 64 v))) (dataPair d) = partnerValue v := by
  simp only [laneWrites, writeAll, readData_writeData, if_true, partnerValue, widen_high32 v hv]

/-- Every register a load writes is one of its destinations. -/
theorem loadWrites_dest {c : WordClass} {d e : DataReg} {v : Long} {b : Bool} {x : Data}
    (h : (e, x) ∈ loadWrites c d v b) : IsLoadDest c b d e := by
  cases b <;> cases d <;> simp only [loadWrites, List.mem_append] at h
  case true.r y =>
    rcases h with h | h <;> rcases laneWrites_dest h with h | h
    · exact .inl h
    · exact .inr (.inl h)
    · exact .inr (.inr ⟨rfl, y, rfl, .inl h⟩)
    · exact .inr (.inr ⟨rfl, y, rfl, .inr h⟩)
  all_goals
    rcases laneWrites_dest h with h | h
    · exact .inl h
    · exact .inr (.inl h)

/-- What a load leaves in the named register, broadcast or not. -/
theorem loadWrites_named (s : State) (c : WordClass) (d : DataReg) (v : Nat) (b : Bool) (hc : c ≠ .short16)
    (hn : c ≠ .notData) : readData (writeAll s (loadWrites c d (BitVec.ofNat 64 v) b)) d = namedValue c v := by
  cases b <;> cases d <;> simp only [loadWrites, writeAll_append]
  case true.r x =>
    rw [readData_writeAll_of_not_mem, laneWrites_named s c _ v hc hn]
    intro w hw; rcases laneWrites_dest hw with h | ⟨-, h⟩ <;> simp [dataPair] at h
  all_goals exact laneWrites_named s c _ v hc hn

/-- What a load of a long word leaves in the pair partner, broadcast or not. -/
theorem loadWrites_partner (s : State) (d : DataReg) (v : Nat) (b : Bool) (hv : v < 2 ^ 64) :
    readData (writeAll s (loadWrites .long64 d (BitVec.ofNat 64 v) b)) (dataPair d) = partnerValue v := by
  cases b <;> cases d <;> simp only [loadWrites, writeAll_append]
  case true.r x =>
    rw [readData_writeAll_of_not_mem, laneWrites_partner s _ v hv]
    intro w hw; rcases laneWrites_dest hw with h | ⟨-, h⟩ <;> simp [dataPair] at h
  all_goals exact laneWrites_partner s _ v hv

/-- What a load leaves in its data registers: the named one and its pair partner, under broadcast PEy's too. -/
theorem loadWrites_holds (s : State) (c : WordClass) (d : DataReg) (v : Nat) (b : Bool) (hv : v < 2 ^ 64)
    (hc : c ≠ .short16) (hn : c ≠ .notData) :
    HoldsData (writeAll s (loadWrites c d (BitVec.ofNat 64 v) b)) c d v ∧
    (b = true → ∀ x, d = .r x → HoldsData (writeAll s (loadWrites c d (BitVec.ofNat 64 v) b)) c (.s x) v) := by
  refine ⟨⟨loadWrites_named s c d v b hc hn, ?_⟩, ?_⟩
  · rintro rfl; exact loadWrites_partner s d v b hv
  · rintro rfl x rfl
    simp only [loadWrites, writeAll_append]
    refine ⟨laneWrites_named _ c _ v hc hn, ?_⟩
    rintro rfl; exact laneWrites_partner _ _ v hv

/-- A free value fits its word. -/
theorem freeValue_eq (s : State) (pl : Place) :
    ∃ n, freeValue s pl = BitVec.ofNat 64 n ∧ (freeValue s pl).toNat = n ∧ n < 256 ^ placeBytes pl := by
  have h : (Config.freeWord s.draws).toNat % 256 ^ placeBytes pl < 256 ^ placeBytes pl := Nat.mod_lt _ (by positivity)
  refine ⟨_, rfl, ?_, h⟩
  rw [freeValue, BitVec.toNat_ofNat, Nat.mod_eq_of_lt (lt_of_lt_of_le h ?_)]
  unfold placeBytes wordBytes; cases pl.cls <;> norm_num

end Sys2Proof.Machine
end

