-- ==== Sys2Proof/Tests/Slice0.lean ====
section
/-! SUPPORT. Tests: ill-formed terms, texts written out from the grammar, the vectors of 95_test_vectors.md one step each,
and for every statement with hypotheses a state and operands that meet them. -/

namespace Sys2Proof.Tests

set_option Elab.async false

open Sys2Proof.Machine

/-! ## Building a small state -/

/-- The platform of the vectors of 95_test_vectors.md: every address a 32-bit normal word, admitted on both buses, from
storage byte 0 on, every immediate 32 bits wide. -/
def plain : Platform where
  map := [{ base := 0, size := 2 ^ 32, cls := .normal32, dm := true, pm := true, origin := 0 }]
  text := []
  shared := []
  immWidth := { loadPost := 32, storePost := 32, loadPre := 32, storePre := 32, modify := 32, bitrev := 32, loadImm := 32 }
  interrupts := false

/-- The plain platform with every word of one class. -/
def platformOf (c : WordClass) : Platform :=
  { plain with map := [{ base := 0, size := 2 ^ 32, cls := c, dm := true, pm := true, origin := 0 }] }

/-- The state after reset on a platform. -/
def on (p : Platform) : State := { State.reset with platform := p }

/-- The state after reset on the plain platform. -/
def start : State := on plain

/-- The word of a class at an address, placed in memory. -/
def withWord (c : WordClass) (a v : Nat) (s : State) : State :=
  { s with mem := writeBytes s.mem (a * wordBytes c) (wordBytes c) v }

/-- The word of a class at an address, as memory holds it. -/
def wordAt (c : WordClass) (a : Nat) (s : State) : Option Nat :=
  readBytes s.mem (a * wordBytes c) (wordBytes c)

def setI (n : RegNum) (v : Word) (s : State) : State := writeDag s .i n v
def setM (n : RegNum) (v : Word) (s : State) : State := writeDag s .m n v
def setL (n : RegNum) (v : Word) (s : State) : State := writeDag s .l n v
def setB (n : RegNum) (v : Word) (s : State) : State := writeDag s .b n v
def setR (x : DregNum) (v : Data) (s : State) : State := writeData s (.r x) v
def setS (x : DregNum) (v : Data) (s : State) : State := writeData s (.s x) v

/-- The outcomes of the conditions to come. -/
def withCond (cs : List (Bool × Bool)) (s : State) : State := { s with condIn := cs }

/-- One step at a text. -/
def run (text : String) (s : State) : Res State := step (withText s (bytesOf text))

/-- The answer is a next state of which p holds. -/
def next? (o : Res State) (p : State → Bool) : Bool :=
  match o with
  | .next t => p t
  | _ => false

/-- The name an answer is refused by. -/
def refusal? {α : Type} (o : Res α) : Option Refusal :=
  match o with
  | .refused r => some r
  | _ => none

/-- The name an answer is stopped by. -/
def fault? {α : Type} (o : Res α) : Option Fault :=
  match o with
  | .fault r => some r
  | _ => none

theorem exists_next {o : Res State} (h : next? o (fun _ => true) = true) : ∃ t, o = .next t := by
  unfold next? at h
  split at h
  · exact ⟨_, rfl⟩
  · cases h

/-! ## Ill-formed terms, one for each check (R71, R82, R114, R66) -/

theorem test_illformed_ureg : (Instr.loadPostM (.sys .mode1) .dm 0 1).wellFormed = false := by decide
theorem test_illformed_bus : (Instr.storePostImm .pm 7 1 (.data (.r 0))).wellFormed = false := by decide
theorem test_illformed_modifier_dag : (Instr.loadPreM (.data (.r 0)) .dm 8 7).wellFormed = false := by decide
theorem test_illformed_modify_dag : (Instr.modifyM 7 8).wellFormed = false := by decide
theorem test_illformed_jump_dag : (Instr.jumpIndirect 8 7).wellFormed = false := by decide
theorem test_illformed_move : (Instr.uregMove none (.data (.r 0)) (.data (.r 1))).wellFormed = false ∧
    (Instr.uregMove none (.dag .i 0) (.data (.s 1))).wellFormed = false := by decide

/-- A DM side and a PM side that are well formed together. -/
def dmLoad : Access := { dir := .load, reg := .data (.r 0), mode := .post, idx := 1, modifier := .reg 2 }
def pmLoad : Access := { dir := .load, reg := .data (.r 4), mode := .post, idx := 9, modifier := .reg 8 }

theorem test_wellformed_dual : (Instr.dualMove dmLoad pmLoad).wellFormed = true := by decide
theorem test_illformed_dual_register : (Instr.dualMove { dmLoad with reg := .dag .l 8 } pmLoad).wellFormed = false := by
  decide
theorem test_illformed_dual_mode : (Instr.dualMove dmLoad { pmLoad with mode := .pre }).wellFormed = false := by decide
theorem test_illformed_dual_immediate :
    (Instr.dualMove { dmLoad with modifier := .imm 1 } pmLoad).wellFormed = false := by decide
theorem test_illformed_dual_bus : (Instr.dualMove pmLoad dmLoad).wellFormed = false := by decide
theorem test_illformed_dual_same : (Instr.dualMove dmLoad { pmLoad with reg := .data (.r 0) }).wellFormed = false := by
  decide

/-! ## Texts written out from the grammar of 30_encoding.md R61 to R66, a form each -/

theorem test_decode_loadPostM :
    decode (bytesOf "R2 = DM(I3, M4);") = .ok (.instr (.loadPostM (.data (.r 2)) .dm 3 4)) := by decide +kernel
theorem test_decode_storePostM :
    decode (bytesOf "DM( I0 , M1 ) =R1 ;") = .ok (.instr (.storePostM .dm 0 1 (.data (.r 1)))) := by decide +kernel
theorem test_decode_loadPostImm :
    decode (bytesOf "R0 = DM(I2, 1);") = .ok (.instr (.loadPostImm (.data (.r 0)) .dm 2 1)) := by decide +kernel
theorem test_decode_storePostImm :
    decode (bytesOf "PM(I8, -4) = R2;") = .ok (.instr (.storePostImm .pm 8 (-4) (.data (.r 2)))) := by decide +kernel
theorem test_decode_loadPreM :
    decode (bytesOf "L2 = DM(M0, I1);") = .ok (.instr (.loadPreM (.dag .l 2) .dm 0 1)) := by decide +kernel
theorem test_decode_storePreM :
    decode (bytesOf "PM(M15, I8) = SF15;") = .ok (.instr (.storePreM .pm 15 8 (.data (.s 15)))) := by decide +kernel
theorem test_decode_loadPreImm :
    decode (bytesOf "B3 = PM(0x10, I9);") = .ok (.instr (.loadPreImm (.dag .b 3) .pm 16 9)) := by decide +kernel
theorem test_decode_storePreImm :
    decode (bytesOf "DM(-1, I7) = F10;") = .ok (.instr (.storePreImm .dm (-1) 7 (.data (.r 10)))) := by decide +kernel
theorem test_decode_dualMove :
    decode (bytesOf "R0 = DM(I1, M2), PM(I9, M8) = R4;") =
      .ok (.instr (.dualMove dmLoad { pmLoad with dir := .store })) := by decide +kernel
theorem test_decode_modifyM : decode (bytesOf "MODIFY(I4, M5);") = .ok (.instr (.modifyM 4 5)) := by decide +kernel
theorem test_decode_modifyImm : decode (bytesOf "MODIFY(I9, -4);") = .ok (.instr (.modifyImm 9 (-4))) := by
  decide +kernel
theorem test_decode_jumpIndirect : decode (bytesOf "JUMP (M8, I12);") = .ok (.instr (.jumpIndirect 8 12)) := by
  decide +kernel
theorem test_decode_pushSts : decode (bytesOf "PUSH STS;") = .ok (.instr .pushSts) := by decide +kernel
theorem test_decode_bitrevImm : decode (bytesOf "BITREV(I1, 8);") = .ok (.instr (.bitrevImm 1 8)) := by decide +kernel
theorem test_decode_dagregLoadImm :
    decode (bytesOf "B3=0x00050000;") = .ok (.instr (.dagregLoadImm .b 3 0x50000)) := by decide +kernel
theorem test_decode_uregMove :
    decode (bytesOf "IF EQ I4 = R5;") =
      .ok (.instr (.uregMove (some { head := 4, tail := [16] }) (.dag .i 4) (.data (.r 5)))) ∧
    decode (bytesOf "m9 = m1;") = .ok (.instr (.uregMove none (.dag .m 9) (.dag .m 1))) := by decide +kernel
/-- IF before a form that has no condition among its operands, and what is no instruction under one (R65). -/
theorem test_decode_condition :
    decode (bytesOf "IF EQ MODIFY(I4, M5);") = .ok (.cond { head := 4, tail := [16] } (.modifyM 4 5)) ∧
    decode (bytesOf "if lt R0 = DM(I1, M2), R4 = PM(I9, M8);") =
      .ok (.cond { head := 11, tail := [19] } (.dualMove dmLoad pmLoad)) ∧
    decode (bytesOf "IF EQ PUSH STS;") = .ok (.cond { head := 4, tail := [16] } .pushSts) ∧
    decode (bytesOf "IF EQ IF NE PUSH STS;") = .error .unknownForm ∧
    decode (bytesOf "IF EQ SetField(MODE1.CBUFEN, 1);") = .error .unknownForm ∧
    decode (bytesOf "IF EQ;") = .error .unknownForm := by decide +kernel
theorem test_decode_setField :
    decode (bytesOf "SetField(MODE1.CBUFEN, 1);") = .ok (.setField .mode1Cbufen true) := by decide +kernel

/-- A blank ends a word, a number and a sign (log entry 12). -/
theorem test_decode_blanks :
    decode (bytesOf "R 1 = M2;") = .error .unknownForm ∧ decode (bytesOf "L2 = 1 0;") = .error .unknownForm ∧
    decode (bytesOf "MODIFY(I9, - 4);") = .error .badNumber ∧ decode (bytesOf "PUSHSTS;") = .error .unknownForm := by
  decide +kernel

/-- Each name the decoder rejects by, and forms that are not those of R66 (R67). -/
theorem test_decode_rejects :
    decode (bytesOf "R2 = DM(I3 + M4);") = .error (.badCharacter 43) ∧
    decode (bytesOf "L2 = 0x;") = .error .badNumber ∧
    decode (bytesOf "L2 = 8") = .error .unknownForm ∧
    decode (bytesOf "R2 = DM(M3, M4);") = .error .unknownForm ∧
    decode (bytesOf "I16 = 8;") = .error .unknownForm ∧
    decode (bytesOf "POP STS;") = .error .unknownForm ∧
    decode (bytesOf "R4 = PM(I9, M8), R0 = DM(I1, M2);") = .error .unknownForm := by decide +kernel

/-- The text PUSH STS; as one number, its first byte the lowest. -/
theorem test_table_word : decodeTableWord 72 0x3B5354532048535550 = some .pushSts ∧
    fetch (State.reset.withFetchWord 72 0x3B5354532048535550) = some (bytesOf "PUSH STS;") := by decide +kernel
/-- Right after reset, on whatever platform, the text placed for the next step runs. -/
theorem test_first_step :
    next? (step (State.reset.withFetchWord 72 0x3B5354532048535550)) (fun t => t.pc == 1 && !t.mode1.cbufen) = true := by
  decide +kernel

/-! ## Vectors of 95_test_vectors.md, family 40 -/

/-- V40.1, V40.3: the sum wraps at the top of the address space; `hi32` is stored and an immediate updates. -/
theorem test_loadPostM_wraps_address :
    next? (run "R2 = DM(I3, M4);" (start |> setI 3 0xFFFFFFFF |> setM 4 1 |> withWord .normal32 0xFFFFFFFF 0x42))
      (fun t => t.rReg[2] == 0x0000004200 && t.iReg[3] == 0) = true := by decide +kernel
theorem test_storePostImm_hi32 :
    next? (run "PM(I8, -4) = R2;" (start |> setI 8 0x60004 |> setR 2 0x0000000999))
      (fun t => wordAt .normal32 0x60004 t == some 9 && t.iReg[8] == 0x60000) = true := by decide +kernel
/-- V40.5, V40.6: pre-modify on a circular index. -/
theorem test_loadPreM_circular :
    refusal? (run "R0 = DM(M2, I1);" (start |> setB 1 0x50000 |> setL 1 5 |> setM 2 3 |> setField .mode1Cbufen true))
      = some .preModifyOnCircularIndex ∧
    next? (run "R0 = DM(M2, I1);" (start |> setB 1 0x50000 |> setL 1 5 |> setM 2 3 |> withWord .normal32 0x50003 5))
      (fun t => t.rReg[0] == 0x0000000500 && t.iReg[1] == 0x50000) = true := by decide +kernel
/-- V40.7, V40.8, V40.10, V40.12, V40.22: stops of the loads and stores. -/
theorem test_load_stops :
    refusal? (run "R0 = DM(I9, M8);" start) = some .wrongDag ∧
    refusal? (run "R0 = DM(I1, M9);" start) = some .wrongDag ∧
    refusal? (run "L2 = DM(I1, M0);" start) = some .hazardClass2 ∧
    refusal? (run "DM(M2, I1) = I0;" start) = some .hazardClass2 ∧
    refusal? (run "R0 = DM(I1, M2);" (setField .mode1Peyen true start)) = some .simdMemoryAccess ∧
    refusal? (run "L2 = DM(I1, M0);" (setField .mode1Peyen true start)) = some .simdMemoryAccess ∧
    fault? (run "R0 = DM(I1, M2);" (on { plain with map := [] })) = some (.notAdmitted .dm 0) := by
  decide +kernel
/-- V40.9: a pre-modify load of a DAG register through its own DAG. -/
theorem test_loadPreM_own_dag :
    next? (run "L2 = DM(M0, I1);" (start |> setI 1 0x50000 |> setM 0 1 |> withWord .normal32 0x50001 0x10))
      (fun t => t.lReg[2] == 0x10 && t.iReg[1] == 0x50000) = true := by decide +kernel
/-- V40.11, V40.19: a DAG2 register stored through DAG1; no wrap with CBUFEN clear. -/
theorem test_storePostM_dag2 :
    next? (run "DM(I1, M2) = I8;" (start |> setI 1 0x50000 |> setM 2 1 |> setI 8 0x61234))
      (fun t => wordAt .normal32 0x50000 t == some 0x61234 && t.iReg[1] == 0x50001) = true := by decide +kernel
theorem test_storePostM_no_wrap :
    next? (run "DM(I0, M1) = R1;" (start |> setB 0 0x50000 |> setI 0 0x50003 |> setL 0 5 |> setM 1 2))
      (fun t => t.iReg[0] == 0x50005) = true := by decide +kernel
/-- V40.13 and the refusals of V40.14, V40.15. -/
theorem test_dualMove_stores_old :
    next? (run "R0 = DM(I1, M2), PM(I9, M8) = R0;"
        (start |> setR 0 0x0000AAAA00 |> setI 1 0x50000 |> setM 2 1 |> setI 9 0x60000 |> setM 8 1 |>
          withWord .normal32 0x50000 1))
      (fun t => wordAt .normal32 0x60000 t == some 0xAAAA && t.rReg[0] == 0x0000000100 && t.iReg[1] == 0x50001 &&
        t.iReg[9] == 0x60001) = true := by decide +kernel
theorem test_dualMove_refused :
    refusal? (run "R0 = DM(I1, M2), R0 = PM(I9, M8);" start) = some .dualLoadSameDest ∧
    refusal? (run "R0 = DM(I1, M2), PM(I9, M8) = R1;" (start |> setI 1 0x50000 |> setI 9 0x50000)) =
      some .dualSameStorage := by decide +kernel
/-- V40.16, V40.17, V40.18: MODIFY. -/
theorem test_modifyM :
    next? (run "MODIFY(I4, M5);" (start |> setI 4 0x100 |> setM 5 0xFFFFFF00)) (fun t => t.iReg[4] == 0) = true ∧
    next? (run "MODIFY(I0, M1);" (start |> setB 0 0x50000 |> setI 0 0x50003 |> setL 0 5 |> setM 1 2))
      (fun t => t.iReg[0] == 0x50000) = true := by decide +kernel
theorem test_modifyImm : next? (run "MODIFY(I9, -1);" start) (fun t => t.iReg[9] == 0xFFFFFFFF) = true := by
  decide +kernel
/-- V40.23: a 40-bit word loaded whole. -/
theorem test_loadPreImm_extended :
    next? (run "R3 = DM(0, I1);" (on (platformOf .ext40) |> setI 1 0x100 |> withWord .ext40 0x100 0x12345678AB))
      (fun t => t.rReg[3] == 0x12345678AB) = true := by decide +kernel
theorem test_storePreImm_extended :
    next? (run "DM(-1, I1) = R3;" (on (platformOf .ext40) |> setI 1 0x100 |> setR 3 0x12345678AB))
      (fun t => wordAt .ext40 0xFF t == some 0x12345678AB && t.iReg[1] == 0x100) = true := by decide +kernel
/-- V40.24: a long word loaded into a data register pair, by its even and its odd register. -/
theorem test_loadPostM_long :
    next? (run "R2 = DM(I1, M2);" (on (platformOf .long64) |> setI 1 0x100 |> withWord .long64 0x100 0x0006000A00050000))
      (fun t => t.rReg[2] == 0x0005000000 && t.rReg[3] == 0x0006000A00) = true ∧
    next? (run "R3 = DM(I1, M2);" (on (platformOf .long64) |> setI 1 0x100 |> withWord .long64 0x100 0x0006000A00050000))
      (fun t => t.rReg[3] == 0x0005000000 && t.rReg[2] == 0x0006000A00) = true := by decide +kernel
/-- V40.25, V40.26, and a load of a word nothing has written (R36). -/
theorem test_stops_by_name :
    refusal? (run "R0 = DM(I1, M2);" (on (platformOf .short16))) = some .shortWordDataPath ∧
    refusal? (run "JUMP(M8, I8);" start) = some .controlTransferNotInSource ∧
    fault? (run "R0 = DM(I1, M2);" start) = some (.unwrittenMemory 0) := by decide +kernel

/-! ## Family 41 -/

/-- The value and the wrap of an update, where there is one. -/
def update? (o : Res Update) : Option (Word × Bool) :=
  match o with
  | .next u => some (u.value, u.wrapped)
  | _ => none

/-- V41.1 to V41.7. -/
theorem test_circular_values :
    update? (circularNext 0x50003 0x50000 5 2) = some (0x50000, true) ∧
    update? (circularNext 0x50004 0x50000 5 1) = some (0x50000, true) ∧
    update? (circularNext 0x50000 0x50000 5 0xFFFFFFFF) = some (0x50004, true) ∧
    update? (circularNext 0x50001 0x50000 5 0xFFFFFFFD) = some (0x50003, true) ∧
    update? (circularNext 0x50002 0x50000 5 5) = some (0x50002, true) ∧
    update? (circularNext 0x50002 0x50000 5 0) = some (0x50002, false) ∧
    update? (circularNext 0x50002 0x50000 5 6) = some (0x50003, true) := by decide +kernel
/-- V41.8 to V41.13. -/
theorem test_circular_edges :
    refusal? (circularNext 0x50000 0x50000 5 0xFFFFFFFA) = some .stepTooLong ∧
    refusal? (circularNext 0x50005 0x50000 5 1) = some .indexOutsideBuffer ∧
    update? (circularNext 0xFFFFFFFF 0xFFFFFFF0 0x10 1) = some (0xFFFFFFF0, true) ∧
    refusal? (circularNext 0xFFFFFFF0 0xFFFFFFF0 0x11 1) = some .bufferPastTopOfSpace ∧
    refusal? (circularNext 0x10 0x10 0x80000000 1) = some .lengthNotPositive ∧
    update? (circularNext 0 0 1 1) = some (0, true) := by decide +kernel
/-- V41.17: a wrap of I7 is reported. -/
theorem test_overflow_reported :
    next? (run "R3 = DM(I7, M0);" (start |> setB 7 0x51000 |> setI 7 0x51003 |> setL 7 4 |> setM 0 3 |>
        setField .mode1Cbufen true |> withWord .normal32 0x51003 9))
      (fun t => t.rReg[3] == 0x0000000900 && t.iReg[7] == 0x51002 && t.stkyx.cb7s && t.latch.cb7i && !t.stkyx.cb15s)
      = true := by decide +kernel
/-- V41.18, V41.22: a wrap of I6 is not; an immediate wraps like an M register. -/
theorem test_loadPostImm_wraps :
    next? (run "R3 = DM(I6, 3);" (start |> setB 6 0x51000 |> setI 6 0x51003 |> setL 6 4 |>
        setField .mode1Cbufen true |> withWord .normal32 0x51003 9))
      (fun t => t.iReg[6] == 0x51002 && !t.stkyx.cb7s) = true := by decide +kernel
/-- V41.20, V41.21: PUSH STS under the two values of the mask bit. -/
theorem test_pushSts :
    next? (run "PUSH STS;" (start |> setField .mode1Cbufen true |> setField .mmaskCbufen true))
      (fun t => !t.mode1.cbufen && !t.mode1.bdcst1) = true ∧
    next? (run "PUSH STS;" (start |> setField .mode1Cbufen true)) (fun t => t.mode1.cbufen) = true := by
  decide +kernel

/-! ## Family 42 -/

/-- V42.1. -/
theorem test_rev32 :
    rev32 1 = 0x80000000 ∧ rev32 0x80000000 = 1 ∧ rev32 0x40000 = 0x2000 ∧ rev32 0x50000 = 0xA000 ∧
    rev32 0x12345678 = 0x1E6A2C48 ∧ rev32 0xFFFF0000 = 0x0000FFFF ∧ rev32 0xFFFFFFFE = 0x7FFFFFFF := by decide +kernel
/-- V42.2, V42.3, V42.4: the address put out through I0 is reversed, that through I1 is not. -/
theorem test_bit_reversed_output :
    next? (run "R0 = DM(I0, M1);" (start |> setField .mode1Br0 true |> setI 0 0x40000 |> setM 1 0x20000 |>
        withWord .normal32 0x2000 7)) (fun t => t.rReg[0] == 0x700 && t.iReg[0] == 0x60000) = true ∧
    next? (run "R0 = DM(M1, I0);" (start |> setField .mode1Br0 true |> setI 0 0x40000 |> setM 1 0x20000 |>
        withWord .normal32 0x6000 7)) (fun t => t.rReg[0] == 0x700 && t.iReg[0] == 0x40000) = true ∧
    next? (run "R0 = DM(I1, M1);" (start |> setField .mode1Br0 true |> setI 1 0x40000 |>
        withWord .normal32 0x40000 7)) (fun t => t.rReg[0] == 0x700) = true := by decide +kernel
/-- V42.6. -/
theorem test_bit_reverse_circular :
    refusal? (run "R0 = DM(I0, M1);" (start |> setField .mode1Br0 true |> setField .mode1Cbufen true |> setL 0 5))
      = some .bitReverseWithCircular := by decide +kernel
/-- V42.7, V42.8, V42.10. -/
theorem test_bitrevImm :
    next? (run "BITREV(I1, 8);" (start |> setI 1 0x12345670)) (fun t => t.iReg[1] == 0x1E6A2C48) = true ∧
    next? (run "BITREV(I5, 1);" (start |> setI 5 0xFFFFFFFF)) (fun t => t.iReg[5] == 0) = true ∧
    refusal? (run "BITREV(I2, 0);" (start |> setL 2 5)) = some .bitrevOnCircularIndex := by decide +kernel

/-! ## Family 43 -/

/-- V43.1, V43.2, V43.8. -/
theorem test_broadcast_load :
    next? (run "R0 = DM(I1, M2);" (start |> setField .mode1Bdcst1 true |> setS 0 0xFFFFFFFFFF |>
        withWord .normal32 0 0x11111111)) (fun t => t.rReg[0] == 0x1111111100 && t.sReg[0] == 0x1111111100) = true ∧
    next? (run "R0 = DM(I2, M2);" (start |> setField .mode1Bdcst1 true |> setS 0 0xFFFFFFFFFF |>
        withWord .normal32 0 0x11111111)) (fun t => t.rReg[0] == 0x1111111100 && t.sReg[0] == 0xFFFFFFFFFF) = true ∧
    refusal? (run "S0 = DM(I1, M2);" (start |> setField .mode1Bdcst1 true)) = some .broadcastToSReg := by
  decide +kernel
/-- V43.6: each side of a dual move by its own bit. -/
theorem test_broadcast_dual :
    next? (run "R0 = DM(I1, M2), R4 = PM(I9, M8);" (start |> setField .mode1Bdcst1 true |> setS 4 0xFFFFFFFFFF |>
        setI 9 0x60000 |> withWord .normal32 0 0x11111111 |> withWord .normal32 0x60000 0x22222222))
      (fun t => t.rReg[0] == 0x1111111100 && t.sReg[0] == 0x1111111100 && t.rReg[4] == 0x2222222200 &&
        t.sReg[4] == 0xFFFFFFFFFF) = true := by decide +kernel
/-- V43.9: a broadcast long word load. -/
theorem test_broadcast_long :
    next? (run "R2 = PM(I9, M8);" (on (platformOf .long64) |> setField .mode1Bdcst9 true |>
        withWord .long64 0 0x0006000A00050000))
      (fun t => t.rReg[2] == 0x0005000000 && t.sReg[2] == 0x0005000000 && t.rReg[3] == 0x0006000A00 &&
        t.sReg[3] == 0x0006000A00) = true := by decide +kernel

/-! ## Family 44 -/

/-- V44.1, V44.2, V44.3. -/
theorem test_dagregLoadImm :
    next? (run "M3 = -2;" start) (fun t => t.mReg[3] == 0xFFFFFFFE) = true ∧
    next? (run "B3 = 0x00050000;" start) (fun t => t.bReg[3] == 0x50000 && t.iReg[3] == 0x50000) = true ∧
    next? (run "I3 = 0x00050002;" (setB 3 0x50000 start)) (fun t => t.iReg[3] == 0x50002 && t.bReg[3] == 0x50000)
      = true := by decide +kernel
/-- V44.4, V44.5, V44.7, V44.19. -/
theorem test_uregMove_sisd :
    next? (run "I4 = R5;" (setR 5 0x0005000012 start)) (fun t => t.iReg[4] == 0x50000) = true ∧
    next? (run "R6 = I4;" (setI 4 0x50000 start)) (fun t => t.rReg[6] == 0x0005000000 && t.sReg[6] == 0) = true ∧
    next? (run "B6 = R7;" (setR 7 0x0005100000 start)) (fun t => t.bReg[6] == 0x51000 && t.iReg[6] == 0x51000)
      = true ∧
    refusal? (run "I4 = S5;" start) = some .sRegInSisdMove := by decide +kernel
/-- V44.9, V44.10, V44.11, V44.12, V44.13. -/
theorem test_uregMove_simd :
    next? (run "R2 = M3;" (start |> setField .mode1Peyen true |> setM 3 0xFFFFFFFE))
      (fun t => t.rReg[2] == 0xFFFFFFFE00 && t.sReg[2] == 0xFFFFFFFE00) = true ∧
    next? (run "IF EQ R2 = M3;" (withCond [(false, true)] (start |> setField .mode1Peyen true |> setM 3 0xFFFFFFFE)))
      (fun t => t.rReg[2] == 0 && t.sReg[2] == 0xFFFFFFFE00) = true ∧
    next? (run "I2 = R1;" (start |> setField .mode1Peyen true |> setR 1 0x0005000000 |> setS 1 0x0007000000))
      (fun t => t.iReg[2] == 0x50000) = true ∧
    next? (run "IF EQ I2 = R1;" (withCond [(false, true)]
        (start |> setField .mode1Peyen true |> setR 1 0x0005000000 |> setS 1 0x0007000000)))
      (fun t => t.iReg[2] == 0x70000) = true ∧
    next? (run "IF EQ I2 = R1;" (withCond [(false, false)]
        (start |> setField .mode1Peyen true |> setR 1 0x0005000000 |> setS 1 0x0007000000)))
      (fun t => t.iReg[2] == 0) = true := by decide +kernel
/-- V44.16: a 40-bit word and a DAG register. -/
theorem test_extended_dag :
    next? (run "M12 = DM(I1, M2);" (on (platformOf .ext40) |> withWord .ext40 0 0x12345678AB))
      (fun t => t.mReg[12] == 0x12345678) = true ∧
    next? (run "DM(I1, M2) = M12;" (on (platformOf .ext40) |> setM 12 0x12345678))
      (fun t => wordAt .ext40 0 t == some 0x1234567800) = true := by decide +kernel
/-- E5: long word transfers of a DAG register pair. -/
theorem test_long_dag :
    next? (run "I1 = PM(I9, M8);" (on (platformOf .long64) |> withWord .long64 0 0x0006000A00050000))
      (fun t => t.iReg[1] == 0x50000 && t.iReg[0] == 0x6000A) = true ∧
    next? (run "B3 = PM(I9, M8);" (on (platformOf .long64) |> withWord .long64 0 0x0006000A00050000))
      (fun t => t.bReg[3] == 0x50000 && t.iReg[3] == 0x50000 && t.bReg[2] == 0x6000A && t.iReg[2] == 0x6000A) = true ∧
    next? (run "PM(I9, M8) = I3;" (on (platformOf .long64) |> setI 2 0x22 |> setI 3 0x33))
      (fun t => wordAt .long64 0 t == some 0x0000002200000033) = true := by decide +kernel

/-! ## Conditions before the other forms (R65, D33) -/

/-- With SIMD mode disabled condX alone decides: a store and its index update happen or do not, and the outcome is used
up. -/
theorem test_condition_store :
    (let s := start |> setI 2 0x100 |> setM 3 4 |> setR 1 0x700
     next? (run "IF EQ DM(I2, M3) = R1;" (withCond [(false, true)] s))
       (fun t => t.iReg[2] == 0x100 && wordAt .normal32 0x100 t == none && t.pc == 1 && t.condIn == []) = true ∧
     next? (run "IF EQ DM(I2, M3) = R1;" (withCond [(true, false)] s))
       (fun t => t.iReg[2] == 0x104 && wordAt .normal32 0x100 t == some 7 && t.pc == 1) = true) := by decide +kernel

/-- With SIMD mode enabled an agreed outcome decides; a store has no meaning there (R111), and an immediate that does not
fit (R64) or a register of the wrong DAG (R71) is refused whether the condition holds or not. -/
theorem test_condition_simd_and_refused :
    next? (run "IF EQ MODIFY(I2, 4);" (withCond [(false, false)] (start |> setField .mode1Peyen true)))
      (fun t => t.iReg[2] == 0 && t.pc == 1) = true ∧
    next? (run "IF EQ MODIFY(I2, 4);" (withCond [(true, true)] (start |> setField .mode1Peyen true)))
      (fun t => t.iReg[2] == 4) = true ∧
    refusal? (run "IF EQ DM(I2, M3) = R1;" (withCond [(false, false)] (start |> setField .mode1Peyen true))) =
      some .simdMemoryAccess ∧
    refusal? (run "IF EQ L0 = 0x100000000;" (withCond [(false, false)] start)) = some .immediateTooWide ∧
    refusal? (run "IF EQ MODIFY(I2, M8);" (withCond [(false, false)] start)) = some .wrongDag := by decide +kernel

/-- The model's choice: a class 2 shape and a broadcast load of an S register are passed over where the condition
does not hold, and refused where it does (log entry 44). -/
theorem test_condition_class2 :
    next? (run "IF EQ DM(I1, M2) = I0;" (withCond [(false, false)] start)) (fun t => t.pc == 1) = true ∧
    refusal? (run "IF EQ DM(I1, M2) = I0;" (withCond [(true, true)] start)) = some .hazardClass2 ∧
    next? (run "IF EQ S0 = DM(I1, M2);" (withCond [(false, false)] (start |> setField .mode1Bdcst1 true)))
      (fun t => t.pc == 1 && t.iReg[1] == 0) = true ∧
    refusal? (run "IF EQ S0 = DM(I1, M2);" (withCond [(true, true)] (start |> setField .mode1Bdcst1 true))) =
      some .broadcastToSReg := by decide +kernel

/-! ## Interrupt entry -/

/-- V60.1, V60.2. -/
theorem test_irqEntry :
    next? (step { (start |> setField .mode1Cbufen true |> setField .mmaskCbufen true |> setL 2 5) with
        platform := { plain with interrupts := true }, events := [some .timer] })
      (fun t => !t.mode1.cbufen && t.lReg[2] == 5 && t.pc == 0) = true ∧
    (irqEntry .external (start |> setField .mode1Cbufen true)).mode1.cbufen = true := by decide +kernel

/-- The arrival on an empty schedule is a draw where the platform lets interrupts occur, and there is none elsewhere
(R125). -/
theorem test_free_arrival :
    (let s := { start with platform := { plain with interrupts := true }, draws := 3 }
     arriving s = Config.freeArrival 3 ∧ (popEvent s).draws = 4) ∧
    arriving start = none ∧ popEvent start = start := by
  refine ⟨⟨rfl, rfl⟩, rfl, rfl⟩

/-! ## Witnesses: for each statement with hypotheses, a state and operands that meet them together -/

/-- The answer is the next value a. -/
def is? {α : Type} [DecidableEq α] (o : Res α) (a : α) : Bool :=
  match o with
  | .next b => decide (b = a)
  | _ => false

theorem eq_of_is {α : Type} [DecidableEq α] {o : Res α} {a : α} (h : is? o a = true) : o = .next a := by
  unfold is? at h
  split at h
  · simp at h; rw [h]
  · cases h

/-- The state after an address is put out. -/
def after (o : Res (Word × State)) : State :=
  match o with
  | .next (_, t) => t
  | _ => start

/-- The address put out is a. -/
def outs? (o : Res (Word × State)) (a : Word) : Bool :=
  match o with
  | .next (b, _) => decide (b = a)
  | _ => false

theorem eq_of_outs {o : Res (Word × State)} {a : Word} (h : outs? o a = true) : o = .next (a, after o) := by
  unfold outs? at h
  split at h
  · simp at h; subst h; rfl
  · cases h

/-- The conditions of LoadRuns but the form, as a computation. -/
def loadCheck (s : State) (mode : AddrMode) (u : Ureg) (bus : Bus) (ia : RegNum) (m a : Word) (pl : Place) (v : Nat) :
    Bool :=
  isGiven u && !(updates mode && ofDagOf ia u) && !s.mode1.peyen && !(broadcast s bus ia && isSReg u) &&
    outs? (addressOutput mode s ia m) a && is? (dataPlace s.platform bus a) pl && !touches pl s.platform.shared &&
    decide (readBytes s.mem pl.start (placeBytes pl) = some v)

theorem loadRuns_of {s : State} {mode : AddrMode} {u : Ureg} {bus : Bus} {ia : RegNum} {m : Word} {i : Instr} {a : Word}
    {pl : Place} {v : Nat} (hf : IsLoad s mode u bus ia m i) (h : loadCheck s mode u bus ia m a pl v = true) :
    LoadRuns s mode u bus ia m i a (after (addressOutput mode s ia m)) pl v := by
  simp only [loadCheck, Bool.and_eq_true, Bool.not_eq_true', decide_eq_true_eq] at h
  obtain ⟨⟨⟨⟨⟨⟨⟨h1, h2⟩, h3⟩, h4⟩, h5⟩, h6⟩, h7⟩, h8⟩ := h
  exact ⟨hf, h1, h2, h3, h4, eq_of_outs h5, eq_of_is h6, h7, h8⟩

/-- The conditions of StoreRuns but the form, as a computation. -/
def storeCheck (s : State) (mode : AddrMode) (u : Ureg) (bus : Bus) (ia : RegNum) (m a : Word) (pl : Place) : Bool :=
  isGiven u && !ofDagOf ia u && !s.mode1.peyen && outs? (addressOutput mode s ia m) a &&
    is? (dataPlace s.platform bus a) pl && !touches pl s.platform.text

theorem storeRuns_of {s : State} {mode : AddrMode} {u : Ureg} {bus : Bus} {ia : RegNum} {m : Word} {i : Instr}
    {a : Word} {pl : Place} (hf : IsStore s mode u bus ia m i) (h : storeCheck s mode u bus ia m a pl = true) :
    StoreRuns s mode u bus ia m i a (after (addressOutput mode s ia m)) pl := by
  simp only [storeCheck, Bool.and_eq_true, Bool.not_eq_true'] at h
  obtain ⟨⟨⟨⟨⟨h1, h2⟩, h3⟩, h4⟩, h5⟩, h6⟩ := h
  exact ⟨hf, h1, h2, h3, eq_of_outs h4, eq_of_is h5, h6⟩

/-- The conditions of SideReady, as a computation. -/
def sideCheck (s : State) (bus : Bus) (x : Access) (d : DataReg) (b : RegNum) (u : Update) : Bool :=
  decide (x.reg = .data d) && decide (x.mode = .post) && decide (x.modifier = .reg b) &&
    decide (dagOf x.idx = dagOfBus bus) && decide (dagOf b = dagOf x.idx) &&
    !(broadcast s bus x.idx && isSReg (.data d)) && !(bitReversed s x.idx && circLS s x.idx) &&
    is? (nextIndex s x.idx s.mReg[b] (circLS s x.idx)) u

theorem sideReady_of {s : State} {bus : Bus} {x : Access} {d : DataReg} {b : RegNum} {u : Update}
    (h : sideCheck s bus x d b u = true) : SideReady s bus x d b u := by
  simp only [sideCheck, Bool.and_eq_true, Bool.not_eq_true', decide_eq_true_eq] at h
  obtain ⟨⟨⟨⟨⟨⟨⟨h1, h2⟩, h3⟩, h4⟩, h5⟩, h6⟩, h7⟩, h8⟩ := h
  exact ⟨⟨h1, h2, h3, h4, h5, fun _ => h6⟩, h7, eq_of_is h8⟩

/-- The conditions of DualReady, as a computation. -/
def readyCheck (s : State) (x y : Access) (dx dy : DataReg) (bx bM : RegNum) (ux uy : Update) : Bool :=
  !s.mode1.peyen && sideCheck s .dm x dx bx ux && sideCheck s .pm y dy bM uy && !doubleLoad x y

theorem dualReady_of {s : State} {x y : Access} {dx dy : DataReg} {bx bM : RegNum} {ux uy : Update}
    (h : readyCheck s x y dx dy bx bM ux uy = true) : DualReady s x y dx dy bx bM ux uy := by
  simp only [readyCheck, Bool.and_eq_true, Bool.not_eq_true'] at h
  obtain ⟨⟨⟨h1, h2⟩, h3⟩, h4⟩ := h
  exact ⟨h1, sideReady_of h2, sideReady_of h3, h4⟩

/-- The conditions of SideAccesses where no other agent writes the storage, as a computation. -/
def accessCheck (s : State) (bus : Bus) (x : Access) (pl : Place) (v : Nat) : Bool :=
  is? (dataPlace s.platform bus (outAddr s x.idx s.iReg[x.idx])) pl && !touches pl s.platform.shared &&
    !touches pl s.platform.text && decide (x.dir = .load → readBytes s.mem pl.start (placeBytes pl) = some v)

theorem sideAccesses_of {s : State} {bus : Bus} {x : Access} {pl : Place} {k v : Nat}
    (h : accessCheck s bus x pl v = true) : SideAccesses s bus x pl k v := by
  simp only [accessCheck, Bool.and_eq_true, Bool.not_eq_true', decide_eq_true_eq] at h
  obtain ⟨⟨⟨h1, h2⟩, h3⟩, h4⟩ := h
  exact ⟨eq_of_is h1, fun hl => .inl ⟨h2, h4 hl⟩, fun _ => h3⟩

/-- A side that loads storage another agent may write meets the free value. -/
theorem sideAccesses_shared {s : State} {bus : Bus} {x : Access} {pl : Place} {k : Nat} (hx : x.dir = .load)
    (h : (is? (dataPlace s.platform bus (outAddr s x.idx s.iReg[x.idx])) pl && touches pl s.platform.shared) = true) :
    SideAccesses s bus x pl k (freeValue { s with draws := k } pl).toNat := by
  simp only [Bool.and_eq_true] at h
  exact ⟨eq_of_is h.1, fun _ => .inr ⟨h.2, rfl⟩, fun hs => by rw [hx] at hs; cases hs⟩

/-! ### Fetch, step and reset -/

theorem witness_StepRunsDecodedStatement :
    (let s := withText start (bytesOf "PUSH STS;")
     arriving s = none ∧ fetch s = some (bytesOf "PUSH STS;") ∧ decode (bytesOf "PUSH STS;") = .ok (.instr .pushSts) ∧
       s.platform.interrupts = false) ∧
    (let s := { withText start (bytesOf "SetField(STKYX.CB15S, 0);") with
        platform := { plain with interrupts := true }, events := [none, some .timer] }
     arriving s = none ∧ fetch s = some (bytesOf "SetField(STKYX.CB15S, 0);") ∧
       decode (bytesOf "SetField(STKYX.CB15S, 0);") = .ok (.setField .stkyxCb15s false) ∧
       s.events = [none, some .timer]) ∧
    start.events = [] ∧ arriving start = none := by decide +kernel

/-- An instruction under a condition: one that is passed over, one that goes ahead, and one that no condition passes over. -/
theorem witness_StepRunsDecodedStatement_condition :
    (let s := withCond [(false, true)] (withText start (bytesOf "IF EQ PUSH STS;"))
     arriving s = none ∧ fetch s = some (bytesOf "IF EQ PUSH STS;") ∧
       decode (bytesOf "IF EQ PUSH STS;") = .ok (.cond { head := 4, tail := [16] } .pushSts) ∧
       skippable (afterCond (popEvent s) { head := 4, tail := [16] }) .pushSts = true ∧
       holdsFor (popEvent s) { head := 4, tail := [16] } = false) ∧
    (let s := withCond [(true, true)] (withText start (bytesOf "IF EQ PUSH STS;"))
     arriving s = none ∧ fetch s = some (bytesOf "IF EQ PUSH STS;") ∧
       holdsFor (popEvent s) { head := 4, tail := [16] } = true) ∧
    (let s := withCond [(false, false)] (withText start (bytesOf "IF EQ JUMP (M8, I12);"))
     arriving s = none ∧ fetch s = some (bytesOf "IF EQ JUMP (M8, I12);") ∧
       decode (bytesOf "IF EQ JUMP (M8, I12);") = .ok (.cond { head := 4, tail := [16] } (.jumpIndirect 8 12)) ∧
       skippable (afterCond (popEvent s) { head := 4, tail := [16] }) (.jumpIndirect 8 12) = false) := by decide +kernel

theorem witness_StepStopsOnOtherText :
    (let s := withText start (bytesOf "RTI;")
     arriving s = none ∧ fetch s = some (bytesOf "RTI;") ∧ decode (bytesOf "RTI;") = .error .unknownForm) ∧
    arriving start = none ∧ fetch start = none := by decide +kernel

theorem witness_StepEntersInterrupt :
    (let s := { start with platform := { plain with interrupts := true }, events := [some .other] }
     s.platform.interrupts = true ∧ s.events = [some .other] ∧ arriving s = some .other) ∧
    (let s := { start with platform := { plain with interrupts := true } }
     s.platform.interrupts = true ∧ s.events = []) ∧
    start.platform.interrupts = false := by decide +kernel

theorem witness_StepKeepsMemoryCanonical :
    ∃ s t, Memory.wf s.mem ∧ s.mem ≠ [] ∧ step s = .next t :=
  ⟨withText (start |> setI 1 0xFFFFFFFF |> withWord .normal32 0xFFFFFFFF 1) (bytesOf "DM(I1, 1) = R1;"),
    (exists_next (by decide +kernel)).choose, by decide +kernel, by decide +kernel,
    (exists_next (by decide +kernel)).choose_spec⟩

theorem witness_StepKeepsProgramAndPlatform : ∃ s t, step s = .next t :=
  ⟨withText start (bytesOf "PUSH STS;"), exists_next (by decide +kernel)⟩

/-! ### Rules of the whole machine -/

theorem witness_BaseChangeLoadsIndex :
    next? (exec (.uregMove none (.dag .b 15) (.dag .m 0)) (setM 0 5 start))
      (fun t => decide (t.bReg[15] ≠ (setM 0 5 start).bReg[15])) = true := by decide +kernel

theorem witness_OverflowStatusSticky :
    ∃ s t : State, s.stkyx.cb7s = true ∧ s.stkyx.cb15s = true ∧ s.latch.cb7i = true ∧ s.latch.cb15i = true ∧
      exec (.modifyImm 7 1) s = .next t :=
  ⟨{ start with stkyx := { cb7s := true, cb15s := true }, latch := { cb7i := true, cb15i := true } },
    (exists_next (by decide +kernel)).choose, rfl, rfl, rfl, rfl, (exists_next (by decide +kernel)).choose_spec⟩

/-- The hypothesis of OnlyReportingIndexSetsOverflow, ModeBitsNeverSet and CompletionAdvancesPc. -/
theorem witness_completes : ∃ t, exec (.bitrevImm 15 0) start = .next t := exists_next (by decide +kernel)

/-- The second clause: an immediate that does not fit, a memory operand in SIMD mode, the jump. -/
theorem witness_IllFormedIsRefused :
    (Instr.modifyM 7 8).wellFormed = false ∧ skippable start (.modifyImm 0 (2 ^ 31)) = false ∧
    skippable (start |> setField .mode1Peyen true) (.loadPostM (.data (.r 0)) .dm 1 2) = false ∧
    skippable start (.loadPostM (.data (.r 0)) .dm 1 2) = true ∧ skippable start (.jumpIndirect 8 12) = false := by
  decide +kernel

/-! ### Address output -/

theorem witness_PostModifyOldIndexOut :
    outs? (postModify (setI 8 0xFFFFFFFF start) 8 1) 0xFFFFFFFF = true ∧
    circLS (setI 8 0xFFFFFFFF start) 8 = false := by decide +kernel

/-- I7 and I15 at the last address of a buffer, I0 in the middle of one. -/
def buffers : State :=
  start |> setField .mode1Cbufen true |> setB 7 0x51000 |> setI 7 0x51003 |> setL 7 4 |>
    setB 15 0xFFFFFFF0 |> setI 15 0xFFFFFFFF |> setL 15 0x10 |> setB 0 0x50000 |> setI 0 0x50002 |> setL 0 5

theorem witness_PostModifyCircular :
    (circLS buffers 7 = true ∧ bitReversed buffers 7 = false ∧
      CircularDomain buffers.iReg[7] buffers.bReg[7] buffers.lReg[7] 1) ∧
    (circLS buffers 15 = true ∧ bitReversed buffers 15 = false ∧
      CircularDomain buffers.iReg[15] buffers.bReg[15] buffers.lReg[15] 0x10) ∧
    (circLS buffers 0 = true ∧ bitReversed buffers 0 = false ∧
      CircularDomain buffers.iReg[0] buffers.bReg[0] buffers.lReg[0] 0xFFFFFFFB) := by
  unfold CircularDomain; decide +kernel

/-- Each of the three cases of the conclusion, at the ends of the buffer. -/
theorem witness_CircularUpdateStaysInBuffer :
    is? (circularNext 0x50000 0x50000 5 4) ⟨0x50004, false⟩ = true ∧
    is? (circularNext 0x50004 0x50000 5 1) ⟨0x50000, true⟩ = true ∧
    is? (circularNext 0x50000 0x50000 5 0xFFFFFFFF) ⟨0x50004, true⟩ = true := by decide +kernel

/-- The hypotheses of each clause, where the clauses meet: the greatest length, the buffer one past the top, the index one
before and one past its buffer, the step one too long. -/
theorem witness_CircularUpdateDomain :
    CircularDomain 0x50004 0x50000 5 5 ∧
    2 ^ 31 ≤ (0x80000000 : Word).toNat ∧
    ((0x7FFFFFFF : Word).toNat < 2 ^ 31 ∧ 2 ^ 32 < (0x80000002 : Word).toNat + (0x7FFFFFFF : Word).toNat) ∧
    ((0x7FFFFFFF : Word).toNat < 2 ^ 31 ∧ (0x80000001 : Word).toNat + (0x7FFFFFFF : Word).toNat ≤ 2 ^ 32 ∧
      (0x80000000 : Word).toNat < (0x80000001 : Word).toNat) ∧
    ((0x50000 : Word).toNat + (5 : Word).toNat ≤ (0x50005 : Word).toNat) ∧
    ¬ CircularDomain 0x50000 0x50000 5 0xFFFFFFFA ∧ ¬ CircularDomain 0x50004 0x50000 5 6 ∧
    ((0xFFFFFFFB : Word).toInt.natAbs ≤ (5 : Word).toNat) := by unfold CircularDomain; decide +kernel

theorem witness_PreModifyWritesNothing :
    circLS start 0 = false ∧ circLS buffers 15 = true := by decide +kernel

theorem witness_BitReversedOutput :
    (bitReversed (buffers |> setField .mode1Br0 true) 0 = true ∧ circLS (buffers |> setField .mode1Br0 true) 0 = true) ∧
    (bitReversed (buffers |> setL 8 1 |> setField .mode1Br8 true) 8 = true ∧
      circLS (buffers |> setL 8 1 |> setField .mode1Br8 true) 8 = true) := by decide +kernel

/-! ### Loads -/

/-- A small state: I1 and I9 point at a word of a class at address 100H, M2 and M8 are 1. -/
def small (c : WordClass) (v : Nat) : State :=
  on (platformOf c) |> setI 1 0x100 |> setM 2 1 |> setI 9 0x100 |> setM 8 1 |> withWord c 0x100 v

/-- LoadIntoDataRegister: each class, post-modify and pre-modify, by an M register and by an immediate. -/
theorem witness_LoadIntoDataRegister_normal :
    LoadRuns (small .normal32 0xFFFFFFFF) .post (.data (.r 15)) .dm 1 1 (.loadPostM (.data (.r 15)) .dm 1 2) 0x100
      (after (addressOutput .post (small .normal32 0xFFFFFFFF) 1 1)) ⟨.normal32, 0x400⟩ 0xFFFFFFFF :=
  loadRuns_of ⟨rfl, .inl ⟨2, rfl, rfl, by decide +kernel⟩⟩ (by decide +kernel)
theorem witness_LoadIntoDataRegister_extended :
    LoadRuns (small .ext40 0xFFFFFFFFFF) .pre (.data (.s 0)) .pm 9 0 (.loadPreImm (.data (.s 0)) .pm 0 9) 0x100
      (after (addressOutput .pre (small .ext40 0xFFFFFFFFFF) 9 0)) ⟨.ext40, 0x500⟩ 0xFFFFFFFFFF :=
  loadRuns_of ⟨rfl, .inr ⟨0, rfl, by decide +kernel, by decide +kernel⟩⟩ (by decide +kernel)
theorem witness_LoadIntoDataRegister_long :
    LoadRuns (small .long64 0xFFFFFFFF00000001) .post (.data (.r 3)) .pm 9 0xFFFFFFFF
      (.loadPostImm (.data (.r 3)) .pm 9 (-1)) 0x100
      (after (addressOutput .post (small .long64 0xFFFFFFFF00000001) 9 0xFFFFFFFF)) ⟨.long64, 0x800⟩
      0xFFFFFFFF00000001 :=
  loadRuns_of ⟨rfl, .inr ⟨-1, rfl, by decide +kernel, by decide +kernel⟩⟩ (by decide +kernel)
/-- The pre-modify form by an M register, at the top of the address space. -/
theorem witness_LoadIntoDataRegister_preM :
    let s := start |> setI 1 0xFFFFFFFE |> setM 2 1 |> withWord .normal32 0xFFFFFFFF 7
    LoadRuns s .pre (.data (.r 0)) .dm 1 1 (.loadPreM (.data (.r 0)) .dm 2 1) 0xFFFFFFFF
      (after (addressOutput .pre s 1 1)) ⟨.normal32, 0x3FFFFFFFC⟩ 7 :=
  loadRuns_of ⟨rfl, .inl ⟨2, rfl, rfl, by decide +kernel⟩⟩ (by decide +kernel)

/-- BroadcastLoadsBothElements: through I1, through I9 with a long word, and not broadcast. -/
theorem witness_BroadcastLoadsBothElements_dm :
    (let s := small .normal32 5 |> setField .mode1Bdcst1 true
     LoadRuns s .post (.data (.r 0)) .dm 1 1 (.loadPostM (.data (.r 0)) .dm 1 2) 0x100
      (after (addressOutput .post s 1 1)) ⟨.normal32, 0x400⟩ 5 ∧ s.mode1.bdcst1 = true) :=
  ⟨loadRuns_of ⟨rfl, .inl ⟨2, rfl, rfl, by decide +kernel⟩⟩ (by decide +kernel), by decide +kernel⟩
theorem witness_BroadcastLoadsBothElements_pm :
    (let s := small .long64 5 |> setField .mode1Bdcst9 true
     LoadRuns s .pre (.data (.r 15)) .pm 9 0 (.loadPreImm (.data (.r 15)) .pm 0 9) 0x100
      (after (addressOutput .pre s 9 0)) ⟨.long64, 0x800⟩ 5 ∧ s.mode1.bdcst9 = true) :=
  ⟨loadRuns_of ⟨rfl, .inr ⟨0, rfl, by decide +kernel, by decide +kernel⟩⟩ (by decide +kernel), by decide +kernel⟩
theorem witness_BroadcastLoadsBothElements_not :
    (let s := small .normal32 5 |> setI 0 0x100 |> setField .mode1Bdcst1 true
     LoadRuns s .post (.data (.r 0)) .dm 0 1 (.loadPostM (.data (.r 0)) .dm 0 2) 0x100
      (after (addressOutput .post s 0 1)) ⟨.normal32, 0x400⟩ 5) :=
  loadRuns_of ⟨rfl, .inl ⟨2, rfl, rfl, by decide +kernel⟩⟩ (by decide +kernel)

/-- A load whose I7 wraps, and a store whose I15 does: the state after the address is put out reports it. -/
theorem witness_LoadIntoDataRegister_wrap :
    let s := buffers |> setM 0 1 |> withWord .normal32 0x51003 9
    LoadRuns s .post (.data (.r 3)) .dm 7 1 (.loadPostM (.data (.r 3)) .dm 7 0) 0x51003
      (after (addressOutput .post s 7 1)) ⟨.normal32, 0x14400C⟩ 9 ∧
    (after (addressOutput .post s 7 1)).stkyx = { cb7s := true, cb15s := false } ∧
    (after (addressOutput .post s 7 1)).iReg[7] = 0x51000 :=
  ⟨loadRuns_of ⟨rfl, .inl ⟨0, rfl, rfl, by decide +kernel⟩⟩ (by decide +kernel), by decide +kernel, by decide +kernel⟩
theorem witness_StoreWritesWord_wrap :
    let s := buffers |> setM 8 1
    StoreRuns s .post (.dag .l 0) .pm 15 1 (.storePostM .pm 15 8 (.dag .l 0)) 0xFFFFFFFF
      (after (addressOutput .post s 15 1)) ⟨.normal32, 0x3FFFFFFFC⟩ ∧
    (after (addressOutput .post s 15 1)).latch = { cb7i := false, cb15i := true } :=
  ⟨storeRuns_of ⟨rfl, .inl ⟨8, rfl, rfl, by decide +kernel⟩⟩ (by decide +kernel), by decide +kernel⟩

/-- The loads of a DAG register, by word class: a DAG2 register through DAG1, an own register by pre-modify, a B register. -/
theorem witness_NormalWordDagTransfer_load :
    LoadRuns (small .normal32 0x64) .post (.dag .l 8) .dm 1 1 (.loadPostM (.dag .l 8) .dm 1 2) 0x100
      (after (addressOutput .post (small .normal32 0x64) 1 1)) ⟨.normal32, 0x400⟩ 0x64 :=
  loadRuns_of ⟨rfl, .inl ⟨2, rfl, rfl, by decide +kernel⟩⟩ (by decide +kernel)
theorem witness_ExtendedWordDagTransfer_load :
    LoadRuns (small .ext40 0x12345678AB) .pre (.dag .i 1) .dm 1 0 (.loadPreImm (.dag .i 1) .dm 0 1) 0x100
      (after (addressOutput .pre (small .ext40 0x12345678AB) 1 0)) ⟨.ext40, 0x500⟩ 0x12345678AB :=
  loadRuns_of ⟨rfl, .inr ⟨0, rfl, by decide +kernel, by decide +kernel⟩⟩ (by decide +kernel)
theorem witness_LongWordDagTransfer_load :
    LoadRuns (small .long64 0x0006000A00050000) .post (.dag .b 3) .pm 9 1 (.loadPostM (.dag .b 3) .pm 9 8) 0x100
      (after (addressOutput .post (small .long64 0x0006000A00050000) 9 1)) ⟨.long64, 0x800⟩ 0x0006000A00050000 :=
  loadRuns_of ⟨rfl, .inl ⟨8, rfl, rfl, by decide +kernel⟩⟩ (by decide +kernel)

theorem witness_LoadIntoDataFrame :
    ∃ t, IsLoad (small .long64 9) .post (.data (.r 3)) .dm 1 1 (.loadPostM (.data (.r 3)) .dm 1 2) ∧
      addressOutput .post (small .long64 9) 1 1 = .next (0x100, after (addressOutput .post (small .long64 9) 1 1)) ∧
      exec (.loadPostM (.data (.r 3)) .dm 1 2) (small .long64 9) = .next t :=
  ⟨(exists_next (by decide +kernel)).choose, ⟨rfl, .inl ⟨2, rfl, rfl, by decide +kernel⟩⟩,
    eq_of_outs (by decide +kernel), (exists_next (by decide +kernel)).choose_spec⟩
theorem witness_LoadIntoDagFrame :
    ∃ t, IsLoad (small .long64 9) .pre (.dag .b 15) .pm 9 0 (.loadPreImm (.dag .b 15) .pm 0 9) ∧
      addressOutput .pre (small .long64 9) 9 0 = .next (0x100, after (addressOutput .pre (small .long64 9) 9 0)) ∧
      exec (.loadPreImm (.dag .b 15) .pm 0 9) (small .long64 9) = .next t :=
  ⟨(exists_next (by decide +kernel)).choose, ⟨rfl, .inr ⟨0, rfl, by decide +kernel, by decide +kernel⟩⟩,
    eq_of_outs (by decide +kernel), (exists_next (by decide +kernel)).choose_spec⟩

/-- Storage that another agent may write: one byte of the word at address 100H of a class. -/
def sharedState (c : WordClass) : State :=
  on { platformOf c with shared := [{ start := 0x100 * wordBytes c + 1, len := 1 }] } |> setI 1 0x100 |> setM 2 1

/-- SharedLoadCompletes: an S register, a broadcast long word, and a B register by a pre-modify form. -/
theorem witness_SharedLoadCompletes :
    IsLoad (sharedState .normal32) .post (.data (.s 7)) .dm 1 1 (.loadPostM (.data (.s 7)) .dm 1 2) ∧
    (updates .post && ofDagOf 1 (.data (.s 7))) = false ∧ (sharedState .normal32).mode1.peyen = false ∧
    (broadcast (sharedState .normal32) .dm 1 && isSReg (.data (.s 7))) = false ∧
    addressOutput .post (sharedState .normal32) 1 1 =
      .next (0x100, after (addressOutput .post (sharedState .normal32) 1 1)) ∧
    dataPlace (sharedState .normal32).platform .dm 0x100 = .next ⟨.normal32, 0x400⟩ ∧
    touches ⟨.normal32, 0x400⟩ (sharedState .normal32).platform.shared = true :=
  ⟨⟨rfl, .inl ⟨2, rfl, rfl, by decide +kernel⟩⟩, rfl, rfl, rfl, eq_of_outs (by decide +kernel),
    eq_of_is (by decide +kernel), by decide +kernel⟩
theorem witness_SharedLoadCompletes_broadcast_long :
    let s := sharedState .long64 |> setField .mode1Bdcst1 true
    IsLoad s .post (.data (.r 7)) .dm 1 1 (.loadPostM (.data (.r 7)) .dm 1 2) ∧ broadcast s .dm 1 = true ∧
    (broadcast s .dm 1 && isSReg (.data (.r 7))) = false ∧
    addressOutput .post s 1 1 = .next (0x100, after (addressOutput .post s 1 1)) ∧
    dataPlace s.platform .dm 0x100 = .next ⟨.long64, 0x800⟩ ∧ touches ⟨.long64, 0x800⟩ s.platform.shared = true :=
  ⟨⟨rfl, .inl ⟨2, rfl, rfl, by decide +kernel⟩⟩, by decide +kernel, by decide +kernel, eq_of_outs (by decide +kernel),
    eq_of_is (by decide +kernel), by decide +kernel⟩
theorem witness_SharedLoadCompletes_dag (c : WordClass) (hc : c = .normal32 ∨ c = .ext40 ∨ c = .long64) :
    IsLoad (sharedState c) .pre (.dag .b 0) .dm 1 0 (.loadPreImm (.dag .b 0) .dm 0 1) ∧
    (updates .pre && ofDagOf 1 (.dag .b 0)) = false ∧
    addressOutput .pre (sharedState c) 1 0 = .next (0x100, after (addressOutput .pre (sharedState c) 1 0)) ∧
    ∃ pl, pl.cls = c ∧ dataPlace (sharedState c).platform .dm 0x100 = .next pl ∧
      touches pl (sharedState c).platform.shared = true := by
  rcases hc with rfl | rfl | rfl
  · exact ⟨⟨rfl, .inr ⟨0, rfl, by decide +kernel, by decide +kernel⟩⟩, rfl, eq_of_outs (by decide +kernel),
      ⟨.normal32, 0x400⟩, rfl, eq_of_is (by decide +kernel), by decide +kernel⟩
  · exact ⟨⟨rfl, .inr ⟨0, rfl, by decide +kernel, by decide +kernel⟩⟩, rfl, eq_of_outs (by decide +kernel),
      ⟨.ext40, 0x500⟩, rfl, eq_of_is (by decide +kernel), by decide +kernel⟩
  · exact ⟨⟨rfl, .inr ⟨0, rfl, by decide +kernel, by decide +kernel⟩⟩, rfl, eq_of_outs (by decide +kernel),
      ⟨.long64, 0x800⟩, rfl, eq_of_is (by decide +kernel), by decide +kernel⟩

/-! ### Stores -/

/-- StoreWritesWord and the store clauses of the DAG register transfers: each class and each form. -/
theorem witness_StoreWritesWord_normal :
    StoreRuns (small .normal32 0) .post (.data (.r 15)) .dm 1 1 (.storePostM .dm 1 2 (.data (.r 15))) 0x100
      (after (addressOutput .post (small .normal32 0) 1 1)) ⟨.normal32, 0x400⟩ :=
  storeRuns_of ⟨rfl, .inl ⟨2, rfl, rfl, by decide +kernel⟩⟩ (by decide +kernel)
theorem witness_StoreWritesWord_extended :
    StoreRuns (small .ext40 0) .pre (.data (.s 0)) .pm 9 1 (.storePreM .pm 8 9 (.data (.s 0))) 0x101
      (after (addressOutput .pre (small .ext40 0) 9 1)) ⟨.ext40, 0x505⟩ :=
  storeRuns_of ⟨rfl, .inl ⟨8, rfl, rfl, by decide +kernel⟩⟩ (by decide +kernel)
theorem witness_NormalWordDagTransfer_store :
    StoreRuns (small .normal32 0) .post (.dag .m 15) .dm 1 1 (.storePostM .dm 1 2 (.dag .m 15)) 0x100
      (after (addressOutput .post (small .normal32 0) 1 1)) ⟨.normal32, 0x400⟩ :=
  storeRuns_of ⟨rfl, .inl ⟨2, rfl, rfl, by decide +kernel⟩⟩ (by decide +kernel)
theorem witness_ExtendedWordDagTransfer_store :
    StoreRuns (small .ext40 0) .pre (.dag .b 0) .pm 9 0xFFFFFFFF (.storePreImm .pm (-1) 9 (.dag .b 0)) 0xFF
      (after (addressOutput .pre (small .ext40 0) 9 0xFFFFFFFF)) ⟨.ext40, 0x4FB⟩ :=
  storeRuns_of ⟨rfl, .inr ⟨-1, rfl, by decide +kernel, by decide +kernel⟩⟩ (by decide +kernel)
theorem witness_LongWordDagTransfer_store :
    StoreRuns (small .long64 0) .post (.dag .i 3) .pm 9 0x7FFFFFFF (.storePostImm .pm 9 0x7FFFFFFF (.dag .i 3)) 0x100
      (after (addressOutput .post (small .long64 0) 9 0x7FFFFFFF)) ⟨.long64, 0x800⟩ :=
  storeRuns_of ⟨rfl, .inr ⟨0x7FFFFFFF, rfl, by decide +kernel, by decide +kernel⟩⟩ (by decide +kernel)

theorem witness_StoreFrame :
    ∃ t, IsStore (small .ext40 0) .post (.dag .l 8) .dm 1 1 (.storePostM .dm 1 2 (.dag .l 8)) ∧
      addressOutput .post (small .ext40 0) 1 1 = .next (0x100, after (addressOutput .post (small .ext40 0) 1 1)) ∧
      dataPlace (small .ext40 0).platform .dm 0x100 = .next ⟨.ext40, 0x500⟩ ∧
      exec (.storePostM .dm 1 2 (.dag .l 8)) (small .ext40 0) = .next t :=
  ⟨(exists_next (by decide +kernel)).choose, ⟨rfl, .inl ⟨2, rfl, rfl, by decide +kernel⟩⟩,
    eq_of_outs (by decide +kernel), eq_of_is (by decide +kernel), (exists_next (by decide +kernel)).choose_spec⟩

/-- The state after the store of R1 at a word of a class. -/
def stored (c : WordClass) : State := after (match exec (.storePreM .dm 2 1 (.data (.r 1))) (small c 0) with
  | .next t => .next (0, t)
  | _ => .refused .unknownInstruction)

/-- LoadAfterStore: a store of R1 by pre-modify on the DM bus and a load by pre-modify on the PM bus, of a data register and of
a DAG register, at each word class. -/
theorem witness_LoadAfterStore (c : WordClass) (hc : c = .normal32 ∨ c = .ext40 ∨ c = .long64) (e : Ureg)
    (he : e = .data (.s 2) ∨ e = .dag .b 3) :
    ∃ pl u1, pl.cls = c ∧
      StoreRuns (small c 0) .pre (.data (.r 1)) .dm 1 1 (.storePreM .dm 2 1 (.data (.r 1))) 0x101
        (after (addressOutput .pre (small c 0) 1 1)) pl ∧
      exec (.storePreM .dm 2 1 (.data (.r 1))) (small c 0) = .next (stored c) ∧
      IsLoad (stored c) .pre e .pm 9 1 (.loadPreM e .pm 8 9) ∧
      addressOutput .pre (stored c) 9 1 = .next (0x101, after (addressOutput .pre (stored c) 9 1)) ∧
      touches pl (small c 0).platform.shared = false ∧
      exec (.loadPreM e .pm 8 9) (stored c) = .next u1 := by
  refine ⟨⟨c, 0x101 * wordBytes c⟩, ?_⟩
  rcases hc with rfl | rfl | rfl <;> rcases he with rfl | rfl <;>
    exact ⟨(exists_next (by decide +kernel)).choose, rfl,
      storeRuns_of ⟨rfl, .inl ⟨2, rfl, rfl, by decide +kernel⟩⟩ (by decide +kernel), eq_of_is (by decide +kernel),
      ⟨rfl, .inl ⟨8, rfl, rfl, by decide +kernel⟩⟩, eq_of_outs (by decide +kernel), by decide +kernel,
      (exists_next (by decide +kernel)).choose_spec⟩

/-- A DAG register stored through the other DAG, post-modify and pre-modify, and what the clause of two DAG registers asks of
the load. -/
theorem witness_LoadAfterStore_dag :
    (∃ t, StoreRuns (small .long64 0) .pre (.dag .l 9) .dm 1 1 (.storePreM .dm 2 1 (.dag .l 9)) 0x101
        (after (addressOutput .pre (small .long64 0) 1 1)) ⟨.long64, 0x808⟩ ∧
      exec (.storePreM .dm 2 1 (.dag .l 9)) (small .long64 0) = .next t) ∧
    (∃ t, StoreRuns (small .normal32 0) .post (.dag .b 9) .dm 1 1 (.storePostM .dm 1 2 (.dag .b 9)) 0x100
        (after (addressOutput .post (small .normal32 0) 1 1)) ⟨.normal32, 0x400⟩ ∧
      exec (.storePostM .dm 1 2 (.dag .b 9)) (small .normal32 0) = .next t) :=
  ⟨⟨(exists_next (by decide +kernel)).choose,
      storeRuns_of ⟨rfl, .inl ⟨2, rfl, rfl, by decide +kernel⟩⟩ (by decide +kernel),
      (exists_next (by decide +kernel)).choose_spec⟩,
    ⟨(exists_next (by decide +kernel)).choose,
      storeRuns_of ⟨rfl, .inl ⟨2, rfl, rfl, by decide +kernel⟩⟩ (by decide +kernel),
      (exists_next (by decide +kernel)).choose_spec⟩⟩

/-! ### CBUFEN -/

theorem witness_ClearedCbufenNeverWraps :
    (small .normal32 0 |> setL 1 5).mode1.cbufen = false ∧
    (∃ t, IsLoad (small .normal32 0 |> setL 1 5) .post (.data (.r 0)) .dm 1 1 (.loadPostM (.data (.r 0)) .dm 1 2) ∧
      exec (.loadPostM (.data (.r 0)) .dm 1 2) (small .normal32 0 |> setL 1 5) = .next t) ∧
    (∃ t, IsStore (small .normal32 0 |> setL 1 5) .post (.data (.r 0)) .dm 1 1 (.storePostM .dm 1 2 (.data (.r 0))) ∧
      exec (.storePostM .dm 1 2 (.data (.r 0))) (small .normal32 0 |> setL 1 5) = .next t) ∧
    (∃ t, dmLoad.modifier = .reg 2 ∧ pmLoad.modifier = .reg 8 ∧
      exec (.dualMove dmLoad pmLoad) (small .normal32 0 |> setL 1 5) = .next t) :=
  ⟨by decide +kernel,
    ⟨(exists_next (by decide +kernel)).choose, ⟨rfl, .inl ⟨2, rfl, rfl, by decide +kernel⟩⟩,
      (exists_next (by decide +kernel)).choose_spec⟩,
    ⟨(exists_next (by decide +kernel)).choose, ⟨rfl, .inl ⟨2, rfl, rfl, by decide +kernel⟩⟩,
      (exists_next (by decide +kernel)).choose_spec⟩,
    ⟨(exists_next (by decide +kernel)).choose, rfl, rfl, (exists_next (by decide +kernel)).choose_spec⟩⟩

theorem witness_CircularIndexStaysInBuffer :
    circLS (buffers |> setM 0 1) 7 = true ∧
    (∃ t, IsLoad (buffers |> setM 0 1 |> withWord .normal32 0x51003 0) .post (.dag .i 15) .dm 7 1
        (.loadPostM (.dag .i 15) .dm 7 0) ∧
      exec (.loadPostM (.dag .i 15) .dm 7 0) (buffers |> setM 0 1 |> withWord .normal32 0x51003 0) = .next t) ∧
    (∃ t, IsStore (buffers |> setM 8 1) .post (.data (.r 0)) .pm 15 1 (.storePostM .pm 15 8 (.data (.r 0))) ∧
      exec (.storePostM .pm 15 8 (.data (.r 0))) (buffers |> setM 8 1) = .next t) :=
  ⟨by decide +kernel,
    ⟨(exists_next (by decide +kernel)).choose, ⟨rfl, .inl ⟨0, rfl, rfl, by decide +kernel⟩⟩,
      (exists_next (by decide +kernel)).choose_spec⟩,
    ⟨(exists_next (by decide +kernel)).choose, ⟨rfl, .inl ⟨8, rfl, rfl, by decide +kernel⟩⟩,
      (exists_next (by decide +kernel)).choose_spec⟩⟩

/-- The clause of the dual move: both index registers on circular buffers, at the last address of each. -/
theorem witness_CircularIndexStaysInBuffer_dual :
    circLS (buffers |> setM 0 1 |> setM 8 1) 7 = true ∧ circLS (buffers |> setM 0 1 |> setM 8 1) 15 = true ∧
    ∃ t, exec (.dualMove { dir := .store, reg := .data (.r 0), mode := .post, idx := 7, modifier := .reg 0 }
      { dir := .store, reg := .data (.r 1), mode := .post, idx := 15, modifier := .reg 8 })
        (buffers |> setM 0 1 |> setM 8 1) = .next t :=
  ⟨by decide +kernel, by decide +kernel, exists_next (by decide +kernel)⟩

/-! ### The dual move -/

/-- Both sides of a dual move, at words apart, each a load or a store. -/
def dualState : State :=
  start |> setField .mode1Bdcst9 true |> setI 1 0x100 |> setM 2 1 |> setI 9 0x200 |> setM 8 0xFFFFFFFF |>
    withWord .normal32 0x100 1 |> withWord .normal32 0x200 2

theorem dualState_ready (dx dy : Dir) : DualReady dualState { dmLoad with dir := dx } { pmLoad with dir := dy } (.r 0) (.r 4)
    2 8 ⟨0x101, false⟩ ⟨0x1FF, false⟩ :=
  dualReady_of (by cases dx <;> cases dy <;> decide +kernel)

theorem witness_DualMoveCompletes (dx dy : Dir) :
    DualRuns dualState { dmLoad with dir := dx } { pmLoad with dir := dy } (.r 0) (.r 4) 2 8 ⟨0x101, false⟩
      ⟨0x1FF, false⟩ ⟨.normal32, 0x400⟩ ⟨.normal32, 0x800⟩ 1 2 :=
  ⟨dualState_ready dx dy, sideAccesses_of (by cases dx <;> decide +kernel), sideAccesses_of (by cases dy <;> decide +kernel),
    by cases dx <;> cases dy <;> decide +kernel⟩

/-- A double load whose places are the same, and whose destinations are apart. -/
theorem witness_DualMoveCompletes_same_place :
    DualRuns (dualState |> setI 9 0x100) dmLoad pmLoad (.r 0) (.r 4) 2 8 ⟨0x101, false⟩ ⟨0xFF, false⟩ ⟨.normal32, 0x400⟩
      ⟨.normal32, 0x400⟩ 1 1 ∧ ¬ IsLoadDest .normal32 true (.r 4) (.r 0) :=
  ⟨⟨dualReady_of (by decide +kernel), sideAccesses_of (by decide +kernel), sideAccesses_of (by decide +kernel),
    by decide +kernel⟩, by simp [IsLoadDest]⟩

/-- Two long words, whose pair partners are apart, both broadcast. -/
theorem witness_DualMoveCompletes_long :
    let s := on (platformOf .long64) |> setField .mode1Bdcst1 true |> setField .mode1Bdcst9 true |> setI 9 1 |>
      withWord .long64 0 7 |> withWord .long64 1 8
    DualRuns s dmLoad pmLoad (.r 0) (.r 4) 2 8 ⟨0, false⟩ ⟨1, false⟩ ⟨.long64, 0⟩ ⟨.long64, 8⟩ 7 8 ∧
    (broadcast s .dm dmLoad.idx = true ∧ broadcast s .pm pmLoad.idx = true) ∧
    (¬ IsLoadDest .long64 true (.r 4) (.r 0) ∧ ¬ IsLoadDest .long64 true (.r 4) (dataPair (.r 0)) ∧
      ¬ IsLoadDest .long64 true (.r 4) (.s 0) ∧ ¬ IsLoadDest .long64 true (.r 4) (.s (dataPairOf 0))) ∧
    (¬ IsLoadDest .long64 true (.r 0) (.r 4) ∧ ¬ IsLoadDest .long64 true (.r 0) (dataPair (.r 4)) ∧
      ¬ IsLoadDest .long64 true (.r 0) (.s 4) ∧ ¬ IsLoadDest .long64 true (.r 0) (.s (dataPairOf 4))) :=
  ⟨⟨dualReady_of (by decide +kernel), sideAccesses_of (by decide +kernel), sideAccesses_of (by decide +kernel),
    by decide +kernel⟩, ⟨by decide +kernel, by decide +kernel⟩,
    by simp [IsLoadDest, dataPair, dataPairOf], by simp [IsLoadDest, dataPair, dataPairOf]⟩

/-- Both sides load storage another agent may write: the DM side meets the first free value, the PM side the second. -/
theorem witness_DualMoveCompletes_shared :
    let s := on { platformOf .normal32 with shared := [{ start := 0, len := 8 }] } |> setI 9 1
    DualRuns s dmLoad pmLoad (.r 0) (.r 4) 2 8 ⟨0, false⟩ ⟨1, false⟩ ⟨.normal32, 0⟩ ⟨.normal32, 4⟩
        (freeValue { s with draws := 0 } ⟨.normal32, 0⟩).toNat (freeValue { s with draws := 1 } ⟨.normal32, 4⟩).toNat ∧
      s.draws = 0 ∧ drawsOfSide s dmLoad ⟨.normal32, 0⟩ = 1 :=
  ⟨⟨dualReady_of (by decide +kernel), sideAccesses_shared rfl (by decide +kernel), sideAccesses_shared rfl (by decide +kernel),
    by decide +kernel⟩, rfl, by decide +kernel⟩

/-- Both index registers wrap, I7 and I15. -/
theorem witness_DualMoveCompletes_wraps :
    DualRuns (buffers |> setM 0 1 |> setM 8 1) { dmLoad with dir := .store, idx := 7, modifier := .reg 0 }
      { pmLoad with dir := .store, idx := 15 } (.r 0) (.r 4) 0 8 ⟨0x51000, true⟩ ⟨0xFFFFFFF0, true⟩
      ⟨.normal32, 0x14400C⟩ ⟨.normal32, 0x3FFFFFFFC⟩ 0 0 :=
  ⟨dualReady_of (by decide +kernel), sideAccesses_of (by decide +kernel), sideAccesses_of (by decide +kernel),
    by decide +kernel⟩

/-- DualMoveBroadcast with a broadcast load of one side beside a store of the other, a long word each. -/
theorem witness_DualMoveBroadcast_beside_store :
    let s := on (platformOf .long64) |> setField .mode1Bdcst1 true |> setI 9 1 |> withWord .long64 0 7
    DualRuns s dmLoad { pmLoad with dir := .store } (.r 0) (.r 4) 2 8 ⟨0, false⟩ ⟨1, false⟩ ⟨.long64, 0⟩ ⟨.long64, 8⟩ 7 0 ∧
    dmLoad.dir = .load ∧ ({ pmLoad with dir := .store } : Access).dir ≠ .load ∧ broadcast s .dm dmLoad.idx = true :=
  ⟨⟨dualReady_of (by decide +kernel), sideAccesses_of (by decide +kernel), sideAccesses_of (by decide +kernel),
    by decide +kernel⟩, rfl, by decide, by decide +kernel⟩

/-- DualMoveBroadcast where the PM side alone is broadcast; both are in the witness of the long words. -/
theorem witness_DualMoveBroadcast :
    DualRuns dualState dmLoad pmLoad (.r 0) (.r 4) 2 8 ⟨0x101, false⟩ ⟨0x1FF, false⟩ ⟨.normal32, 0x400⟩
      ⟨.normal32, 0x800⟩ 1 2 ∧ dmLoad.dir = .load ∧ pmLoad.dir = .load ∧
      ¬ IsLoadDest .normal32 true (.r 4) (.s 0) ∧ ¬ IsLoadDest .normal32 false (.r 0) (.s 4) ∧
      (pmLoad.idx = 9 ∧ dualState.mode1.bdcst9 = true) ∧ ¬ (dmLoad.idx = 1 ∧ dualState.mode1.bdcst1 = true) :=
  ⟨witness_DualMoveCompletes .load .load, rfl, rfl, by simp [IsLoadDest], by simp [IsLoadDest], by decide +kernel,
    by decide +kernel⟩

theorem witness_DualMoveFrame :
    ∃ t, exec (.dualMove dmLoad pmLoad) dualState = .next t ∧ dmLoad.reg = .data (.r 0) ∧ pmLoad.reg = .data (.r 4) ∧
      dataPlace dualState.platform .dm (outAddr dualState dmLoad.idx dualState.iReg[dmLoad.idx]) =
        .next ⟨.normal32, 0x400⟩ ∧
      dataPlace dualState.platform .pm (outAddr dualState pmLoad.idx dualState.iReg[pmLoad.idx]) =
        .next ⟨.normal32, 0x800⟩ :=
  ⟨(exists_next (by decide +kernel)).choose, (exists_next (by decide +kernel)).choose_spec, rfl, rfl,
    eq_of_is (by decide +kernel), eq_of_is (by decide +kernel)⟩

/-- DualMoveRefusals, clause by clause. -/
theorem witness_DualMoveRefusals :
    ({ dmLoad with mode := .pre } : Access).mode = .pre ∧
    ({ dmLoad with modifier := .imm 0 } : Access).modifier = .imm 0 ∧
    (∀ d, ({ dmLoad with reg := .dag .l 15 } : Access).reg ≠ .data d) ∧
    (dmLoad.dualSide .dm = true ∧ ({ pmLoad with modifier := .imm 0 } : Access).modifier = .imm 0) ∧
    (start.mode1.peyen = false ∧ dmLoad.dualSide .dm = true ∧
      ({ pmLoad with reg := .data (.r 0) } : Access).dualSide .pm = true ∧ dmLoad.dir = .load ∧ pmLoad.dir = .load) ∧
    (DualReady (dualState |> setI 9 0x100) dmLoad { pmLoad with dir := .store } (.r 0) (.r 4) 2 8 ⟨0x101, false⟩
        ⟨0xFF, false⟩ ∧
      is? (dataPlace plain .dm 0x100) ⟨.normal32, 0x400⟩ = true ∧
      is? (dataPlace plain .pm 0x100) ⟨.normal32, 0x400⟩ = true ∧
      samePlace ⟨.normal32, 0x400⟩ ⟨.normal32, 0x400⟩ = true) :=
  ⟨rfl, rfl, by simp, ⟨by decide, rfl⟩, ⟨rfl, by decide, by decide, rfl, rfl⟩, dualReady_of (by decide +kernel),
    by decide +kernel, by decide +kernel, by decide +kernel⟩

/-! ### MODIFY, BITREV, PUSH STS, interrupt entry -/

theorem witness_ModifyPlainSum :
    IsModify start 15 0xFFFFFFFF (.modifyImm 15 (-1)) ∧ start.lReg[15] = 0 :=
  ⟨.inr ⟨-1, rfl, by decide +kernel, by decide +kernel⟩, by decide +kernel⟩
theorem witness_ModifyWrapsWhateverCbufen :
    IsModify buffers 7 0 (.modifyM 7 0) ∧ buffers.lReg[7] ≠ 0 ∧
      CircularDomain buffers.iReg[7] buffers.bReg[7] buffers.lReg[7] 0 ∧
      circularValue buffers.iReg[7] buffers.bReg[7] buffers.lReg[7] 0 = buffers.iReg[7].toNat + (0 : Word).toInt :=
  ⟨.inl ⟨0, rfl, rfl, by decide +kernel⟩, by decide +kernel, by unfold CircularDomain; decide +kernel, by decide +kernel⟩
theorem witness_ModifyFrame :
    ∃ t, IsModify buffers 7 1 (.modifyImm 7 1) ∧ exec (.modifyImm 7 1) buffers = .next t :=
  ⟨(exists_next (by decide +kernel)).choose, .inr ⟨1, rfl, by decide +kernel, by decide +kernel⟩,
    (exists_next (by decide +kernel)).choose_spec⟩
theorem witness_BitrevReversesSum :
    immFits start.platform.immWidth.bitrev (-0x80000000) = true ∧ start.lReg[0] = 0 ∧
      buffers.lReg[0] ≠ 0 := by decide +kernel
theorem witness_PushStatusClearsCbufen :
    (start |> setField .mmaskCbufen true).mmaskCbufen = true ∧ start.mmaskCbufen = false := by decide
theorem witness_InterruptEntryClearsCbufen :
    (start |> setField .mmaskCbufen true).mmaskCbufen = true ∧ IrqKind.vectored ≠ .other := by decide
theorem witness_SetFieldWritesOneField : SysField.mmaskCbufen ≠ .mode1Cbufen := by decide

/-! ### Register transfers -/

theorem witness_LoadImmediate :
    immFits start.platform.immWidth.loadImm 0x7FFFFFFF = true ∧
    immFits start.platform.immWidth.loadImm 0x80000000 = false := by decide +kernel

/-- Each outcome of a condition, in SIMD mode and out of it. -/
theorem witness_moves :
    (condOutcome start none).1 = true ∧
    (let s := withCond [(false, true)] (start |> setField .mode1Peyen true)
     (condOutcome s (some ⟨0, []⟩)).1 = false ∧ s.mode1.peyen = true ∧ (condOutcome s (some ⟨0, []⟩)).2 = true) ∧
    (let s := withCond [(false, true)] start
     (condOutcome s (some ⟨0, []⟩)).1 = false ∧ s.mode1.peyen = false) ∧
    (let s := withCond [(false, false)] (start |> setField .mode1Peyen true)
     (condOutcome s (some ⟨0, []⟩)).1 = false ∧ (condOutcome s (some ⟨0, []⟩)).2 = false) := by decide +kernel

theorem witness_MoveFrame :
    (∃ t, exec (.uregMove none (.data (.r 0)) (.dag .i 0)) start = .next t) ∧
    (∃ t, exec (.uregMove none (.dag .i 0) (.data (.r 0))) start = .next t) :=
  ⟨exists_next (by decide +kernel), exists_next (by decide +kernel)⟩

/-- A condition with an input waiting and with none; with SIMD mode disabled, and with it enabled where the elements agree and
where they do not. -/
theorem witness_ConditionOutcome :
    (let s := withCond [(true, false)] start
     s.condIn = [(true, false)] ∧ s.mode1.peyen = false) ∧
    (start.condIn = [] ∧ start.mode1.peyen = false) ∧
    (let s := withCond [(false, false)] (start |> setField .mode1Peyen true)
     s.condIn = [(false, false)] ∧ (condOutcome s (some ⟨0, []⟩)).1 = (condOutcome s (some ⟨0, []⟩)).2) ∧
    (let s := withCond [(true, false)] (start |> setField .mode1Peyen true)
     s.mode1.peyen = true ∧ s.condIn = [(true, false)] ∧
       (condOutcome s (some ⟨0, []⟩)).1 ≠ (condOutcome s (some ⟨0, []⟩)).2) := by decide

theorem witness_MoveRefusals :
    start.mode1.peyen = false ∧ (start |> setField .mode1Peyen true).mode1.peyen = true := by decide

/-! ### Where the access forms stop -/

theorem witness_WrongDagRefused : dagOf 8 ≠ dagOfBus .dm ∧ dagOf 7 ≠ dagOfBus .pm ∧ dagOf 8 ≠ dagOf 7 := by decide
/-- The clause of the dual move: each of the four numbers alone out of its DAG, the rest as the form admits them. -/
theorem witness_WrongDagRefused_dual :
    (dmLoad.reg = .data (.r 0) ∧ dmLoad.mode = .post ∧ dmLoad.modifier = .reg 2 ∧ pmLoad.reg = .data (.r 4) ∧
      pmLoad.mode = .post ∧ pmLoad.modifier = .reg 8) ∧
    dagOf ({ dmLoad with idx := 8 } : Access).idx ≠ .dag1 ∧ dagOf 15 ≠ .dag1 ∧
    dagOf ({ pmLoad with idx := 7 } : Access).idx ≠ .dag2 ∧ dagOf 0 ≠ .dag2 := by decide

theorem witness_WideImmediateRefused :
    let w := { plain.immWidth with loadPost := 6, storePost := 6, loadPre := 6, storePre := 6 }
    dagOf 15 = dagOfBus .pm ∧ immFits w.loadPost 32 = false ∧ immFits w.storePost (-33) = false ∧
      immFits w.loadPre 32 = false ∧ immFits w.storePre (-33) = false ∧ immFits w.modify 0x80000000 = false ∧
      immFits w.bitrev (-0x80000001) = false := by decide +kernel

theorem witness_HazardClass2Refused :
    start.mode1.peyen = false ∧ dagOf 0 = dagOf 7 ∧
    IsStore start .pre (.dag .b 0) .dm 7 0 (.storePreM .dm 0 7 (.dag .b 0)) ∧
    IsLoad start .post (.dag .b 0) .dm 7 0 (.loadPostM (.dag .b 0) .dm 7 0) :=
  ⟨rfl, rfl, ⟨rfl, .inl ⟨0, rfl, rfl, by decide +kernel⟩⟩, ⟨rfl, .inl ⟨0, rfl, rfl, by decide +kernel⟩⟩⟩

/-- SimdAndBroadcastRefused, clause by clause; in SIMD mode with a register no later check would let through. -/
theorem witness_SimdAndBroadcastRefused :
    (let s := start |> setField .mode1Peyen true
     s.mode1.peyen = true ∧ IsLoad s .post (.dag .l 0) .dm 0 0 (.loadPostM (.dag .l 0) .dm 0 0) ∧
       IsStore s .post (.sys .mode1) .dm 0 0 (.storePostM .dm 0 0 (.sys .mode1))) ∧
    (dmLoad.dualSide .dm = true ∧ ({ pmLoad with reg := .data (.r 0) } : Access).dualSide .pm = true) ∧
    (let s := start |> setField .mode1Bdcst1 true
     s.mode1.peyen = false ∧ broadcast s .dm 1 = true ∧
       IsLoad s .post (.data (.s 0)) .dm 1 0 (.loadPostM (.data (.s 0)) .dm 1 0)) ∧
    (let s := start |> setField .mode1Bdcst1 true |> setField .mode1Bdcst9 true
     s.mode1.peyen = false ∧ broadcast s .dm dmLoad.idx = true ∧ broadcast s .pm pmLoad.idx = true) ∧
    (let x := { dmLoad with reg := .data (.s 0) }
     let y := { pmLoad with reg := .data (.s 4) }
     x.dualSide .dm = true ∧ y.dualSide .pm = true ∧ doubleLoad x pmLoad = false ∧ doubleLoad dmLoad y = false) ∧
    (start.mode1.peyen = false ∧ IsStore start .pre (.sys .mode1) .pm 8 0 (.storePreM .pm 8 8 (.sys .mode1))) :=
  ⟨⟨rfl, ⟨rfl, .inl ⟨0, rfl, rfl, by decide +kernel⟩⟩, ⟨rfl, .inl ⟨0, rfl, rfl, by decide +kernel⟩⟩⟩,
    ⟨by decide, by decide⟩, ⟨rfl, by decide +kernel, ⟨rfl, .inl ⟨0, rfl, rfl, by decide +kernel⟩⟩⟩,
    by decide +kernel, by decide +kernel,
    ⟨rfl, rfl, .inl ⟨8, rfl, rfl, by decide +kernel⟩⟩⟩

/-- The hypotheses of AccessStops that all its clauses share, on a platform: a store and a load through I1. -/
theorem witness_AccessStops (p : Platform) :
    isGiven (.data (.r 0)) = true ∧ (on p).mode1.peyen = false ∧
    addressOutput .post (on p) 1 0 = .next (0, after (addressOutput .post (on p) 1 0)) ∧
    IsStore (on p) .post (.data (.r 0)) .dm 1 0 (.storePostM .dm 1 0 (.data (.r 0))) ∧
    ofDagOf 1 (.data (.r 0)) = false ∧
    IsLoad (on p) .post (.data (.r 0)) .dm 1 0 (.loadPostM (.data (.r 0)) .dm 1 0) ∧
    (updates .post && ofDagOf 1 (.data (.r 0))) = false ∧
    (broadcast (on p) .dm 1 && isSReg (.data (.r 0))) = false :=
  ⟨rfl, rfl, rfl, ⟨rfl, .inl ⟨0, rfl, rfl, rfl⟩⟩, rfl, ⟨rfl, .inl ⟨0, rfl, rfl, rfl⟩⟩, rfl, rfl⟩

/-- The platform or the memory of each clause of AccessStops. -/
theorem witness_AccessStops_clauses :
    admits { plain with map := [] } .dm 0 = false ∧
    (admits (platformOf .short16) .dm 0 = true ∧ wordClass (platformOf .short16) 0 = .short16) ∧
    (is? (dataPlace { plain with text := [⟨3, 1⟩] } .dm 0) ⟨.normal32, 0⟩ = true ∧
      touches ⟨.normal32, 0⟩ [⟨3, 1⟩] = true) ∧
    (is? (dataPlace plain .dm 0) ⟨.normal32, 0⟩ = true ∧
      touches ⟨.normal32, 0⟩ plain.shared = false ∧ readBytes [] 0 4 = none) := by decide +kernel

/-- The refusals of an address output: each name, at the values where its condition begins. -/
theorem witness_AccessStops_addresses :
    AddressRefused buffers .pre 7 0 .preModifyOnCircularIndex ∧
    AddressRefused (buffers |> setField .mode1Br0 true) .post 0 0 .bitReverseWithCircular ∧
    AddressRefused (buffers |> setL 7 0x80000000) .post 7 0 .lengthNotPositive ∧
    AddressRefused (buffers |> setL 15 0x11) .post 15 0 .bufferPastTopOfSpace ∧
    AddressRefused (buffers |> setI 7 0x51004) .post 7 0 .indexOutsideBuffer ∧
    AddressRefused (buffers |> setI 7 0x50FFF) .post 7 0 .indexOutsideBuffer ∧
    AddressRefused buffers .post 7 5 .stepTooLong := by
  refine ⟨?_, ?_, ?_, ?_, ?_, ?_, ?_⟩ <;> simp only [AddressRefused, UpdateRefused, CircularDomain] <;> decide +kernel

/-- The other hypotheses of those clauses: a store, a load, the sides of a dual move, MODIFY. -/
theorem witness_AccessStops_refused :
    (IsStore (buffers |> setM 0 5) .post (.data (.r 0)) .dm 7 5 (.storePostM .dm 7 0 (.data (.r 0))) ∧
      ofDagOf 7 (.data (.r 0)) = false) ∧
    (IsLoad buffers .pre (.dag .l 0) .dm 7 0 (.loadPreImm (.dag .l 0) .dm 0 7) ∧
      (updates .pre && ofDagOf 7 (.dag .l 0)) = false) ∧
    DualAdmitted (buffers |> setM 2 5) { dmLoad with idx := 7 } pmLoad (.r 0) (.r 4) 2 8 ∧
    (DualAdmitted (buffers |> setM 8 0x11) dmLoad { pmLoad with idx := 15 } (.r 0) (.r 4) 2 8 ∧
      SideReady (buffers |> setM 8 0x11) .dm dmLoad (.r 0) 2 ⟨0, false⟩ ∧
      AddressRefused (buffers |> setM 8 0x11) .post 15 0x11 .stepTooLong) ∧
    (IsModify buffers 7 5 (.modifyImm 7 5) ∧ buffers.lReg[7] ≠ 0 ∧
      UpdateRefused buffers.iReg[7] buffers.bReg[7] buffers.lReg[7] 5 .stepTooLong) :=
  ⟨⟨⟨rfl, .inl ⟨0, rfl, rfl, by decide +kernel⟩⟩, rfl⟩,
    ⟨⟨rfl, .inr ⟨0, rfl, by decide +kernel, by decide +kernel⟩⟩, rfl⟩,
    ⟨rfl, ⟨rfl, rfl, rfl, rfl, rfl, fun _ => rfl⟩, ⟨rfl, rfl, rfl, rfl, rfl, fun _ => rfl⟩, rfl⟩,
    ⟨⟨rfl, ⟨rfl, rfl, rfl, rfl, rfl, fun _ => rfl⟩, ⟨rfl, rfl, rfl, rfl, rfl, fun _ => rfl⟩, rfl⟩,
      sideReady_of (by decide +kernel), by simp only [AddressRefused, UpdateRefused, CircularDomain]; decide +kernel⟩,
    ⟨.inr ⟨5, rfl, by decide +kernel, by decide +kernel⟩, by decide +kernel,
      by simp only [UpdateRefused, CircularDomain]; decide +kernel⟩⟩

/-- The state on a platform in which the DM side of a dual move reaches address 0 and the PM side address 1. -/
def apart (p : Platform) : State := on p |> setI 9 1

/-- The hypothesis the dual clauses of AccessStops share, on any platform and whatever the directions. -/
theorem witness_AccessStops_dual (p : Platform) (dx dy : Dir) :
    DualReady (apart p) { dmLoad with dir := dx } { pmLoad with dir := dy } (.r 0) (.r 4) 2 8 ⟨0, false⟩ ⟨1, false⟩ :=
  ⟨rfl, ⟨⟨rfl, rfl, rfl, rfl, rfl, fun _ => rfl⟩, rfl, rfl⟩, ⟨⟨rfl, rfl, rfl, rfl, rfl, fun _ => rfl⟩, rfl, rfl⟩,
    by cases dx <;> cases dy <;> rfl⟩

/-- The dual clauses of AccessStops on addresses: the DM side's is not admitted or a short word, or is admitted and the PM
side's is not or is a short word. -/
theorem witness_AccessStops_dual_addresses :
    (admits { plain with map := [] } .dm 0 = false ∧
      admits (platformOf .short16) .dm 0 = true ∧ wordClass (platformOf .short16) 0 = .short16) ∧
    (let first : Region := { base := 0, size := 1, cls := .normal32, dm := true, pm := true, origin := 0 }
     let p := { plain with map := [first] }
     let q := { plain with map := [first, { first with base := 1, cls := .short16, origin := 4 }] }
     (is? (dataPlace p .dm 0) ⟨.normal32, 0⟩ = true ∧ admits p .pm 1 = false) ∧
     (is? (dataPlace q .dm 0) ⟨.normal32, 0⟩ = true ∧ admits q .pm 1 = true ∧ wordClass q 1 = .short16)) := by
  decide +kernel

/-- The dual clauses of AccessStops on accesses at places apart: program text or an unwritten word of the DM side, then of
the PM side, the DM side's access (a store) going through. -/
theorem witness_AccessStops_dual_accesses :
    (let p := { plain with text := [⟨3, 1⟩] }
     is? (dataPlace p .dm 0) ⟨.normal32, 0⟩ = true ∧ is? (dataPlace p .pm 1) ⟨.normal32, 4⟩ = true ∧
       touches ⟨.normal32, 0⟩ p.text = true) ∧
    (samePlace ⟨.normal32, 0⟩ ⟨.normal32, 4⟩ && true) = false ∧
    (touches ⟨.normal32, 0⟩ plain.shared = false ∧ readBytes (apart plain).mem 0 4 = none) ∧
    (let p := { plain with text := [⟨7, 1⟩] }
     SideAccesses (apart p) .dm { dmLoad with dir := .store } ⟨.normal32, 0⟩ 0 0 ∧
       is? (dataPlace p .pm 1) ⟨.normal32, 4⟩ = true ∧ touches ⟨.normal32, 4⟩ p.text = true ∧
       touches ⟨.normal32, 4⟩ p.shared = false ∧ readBytes (apart p).mem 4 4 = none) :=
  ⟨by decide +kernel, by decide +kernel, by decide +kernel,
    sideAccesses_of (by decide +kernel), by decide +kernel, by decide +kernel, by decide +kernel, by decide +kernel⟩

/-- The hypotheses of the clauses of BroadcastSparesOtherTransfers: those of the witnesses of StoreFrame and
LoadIntoDagFrame, a load that names a system register, and two storing sides. -/
theorem witness_BroadcastSparesOtherTransfers :
    IsLoad start .post (.sys .stkyy) .dm 1 0 (.loadPostM (.sys .stkyy) .dm 1 0) ∧
    (∀ d, Ureg.sys .stkyy ≠ .data d) ∧ ({ dmLoad with dir := .store } : Access).dir = .store :=
  ⟨⟨rfl, .inl ⟨0, rfl, rfl, by decide +kernel⟩⟩, by simp, rfl⟩

end Sys2Proof.Tests
end

section
/-! Proofs of the family 10_state.md: what a step at a statement does, and what every instruction that completes leaves
as it was. -/

namespace Sys2Proof.Machine

/-! ## Steps at a statement -/

theorem fetch_popEvent (s : State) : fetch (popEvent s) = fetch s := by simp [fetch]

/-- With no interrupt arriving a step runs the text at the program counter (R33). -/
theorem step_eq_runText {s : State} {text : List Byte} (ha : arriving s = none) (hf : fetch s = some text) :
    step s = runText exec text (popEvent s) := by
  simp only [step, stepWith, ha, runFetched, fetch_popEvent, hf]

theorem runText_of_decode (ex : Instr → State → Res State) {text : List Byte} {st : Statement} (s : State)
    (h : decode text = .ok st) : runText ex text s = runStatement ex st s := by
  simp only [runText, h]

/-- An instruction under a condition that does not hold is passed over where it may be (R65). -/
theorem runUnder_of_passedOver (ex : Instr → State → Res State) {c : Cond} {i : Instr} {s : State}
    (hu : i.under c = .cond c i) (hs : skippable (afterCond s c) i = true) (hh : holdsFor s c = false) :
    runUnder ex c i s = .next (advance (afterCond s c)) := by
  simp [runUnder, hu, hs, hh]

/-- An instruction under a condition that holds, or that may not be passed over, runs (R65). -/
theorem runUnder_of_goesAhead (ex : Instr → State → Res State) {c : Cond} {i : Instr} {s : State}
    (hu : i.under c = .cond c i) (h : skippable (afterCond s c) i = false ∨ holdsFor s c = true) :
    runUnder ex c i s = ex i (afterCond s c) := by
  rcases h with h | h <;> simp [runUnder, hu, h]

/-! ## Field writes -/

theorem getField_setField (f g : SysField) (b : Bool) (s : State) :
    getField g (setField f b s) = if g = f then b else getField g s := by
  cases f <;> cases g <;> rfl

@[simp] theorem readDag_setField (f : SysField) (b : Bool) (s : State) (k : DagKind) (n : RegNum) :
    readDag (setField f b s) k n = readDag s k n := by
  cases k <;> simp [readDag]

@[simp] theorem readData_setField (f : SysField) (b : Bool) (s : State) (d : DataReg) :
    readData (setField f b s) d = readData s d := by
  cases d <;> simp [readData]

/-! ## Refused moves -/

/-- A register move is refused for what its transfer is refused for. -/
theorem exec_uregMove_of_refused {s : State} {c : Option Cond} {dst src : Ureg} {r : Refusal}
    (h : moveEffect (popCond s c) (condOutcome s c) dst src = .refused r) :
    exec (.uregMove c dst src) s = .refused r := by
  simp only [exec, execUregMove, h, andThen_of_refused]

theorem moveEffect_sys_src (s : State) (o : Bool × Bool) (u : Ureg) (q : SysReg) :
    moveEffect s o u (.sys q) = .refused .uregNotModelled := by
  cases u <;> rfl

theorem moveEffect_data_data (s : State) (o : Bool × Bool) (d e : DataReg) :
    moveEffect s o (.data d) (.data e) = .refused .unknownInstruction := by
  cases d <;> rfl

theorem moveEffect_sReg_dag (s : State) (o : Bool × Bool) (x : DregNum) (k : DagKind) (n : RegNum) :
    moveEffect s o (.data (.s x)) (.dag k n) = sRegMove s := rfl

theorem moveEffect_dag_sReg (s : State) (o : Bool × Bool) (k : DagKind) (n : RegNum) (x : DregNum) :
    moveEffect s o (.dag k n) (.data (.s x)) = sRegMove s := rfl

/-- A move between a DAG register and an S register is refused by the name the mode gives (R114). -/
theorem sRegMove_popCond (s : State) (c : Option Cond) :
    sRegMove (popCond s c) = if s.mode1.peyen then .refused .unknownInstruction else .refused .sRegInSisdMove := by
  simp only [sRegMove, popCond_mode1]

/-! ## Base registers

A write of B[n] writes I[n] as well (R19), and nothing an instruction does after that write touches I[n] alone. -/

/-- B[n] is as it was, or I[n] holds what B[n] now holds. -/
def BaseLoaded (s t : State) (n : RegNum) : Prop :=
  t.bReg[n] = s.bReg[n] ∨ t.iReg[n] = t.bReg[n]

theorem BaseLoaded.of_bReg_eq {s t : State} (h : t.bReg = s.bReg) (n : RegNum) : BaseLoaded s t n :=
  .inl (by rw [h])

theorem writeDag_bReg_of_ne_b (s : State) {k : DagKind} (n : RegNum) (v : Word) (h : k ≠ .b) :
    (writeDag s k n v).bReg = s.bReg := by
  cases k with
  | b => exact absurd rfl h
  | _ => rfl

/-- A write of a B register, which writes its I register too, parts no loaded base from its index. -/
theorem writeDag_b_baseLoaded {s u : State} {m : RegNum} (n : RegNum) (v : Word) (h : BaseLoaded s u m) :
    BaseLoaded s (writeDag u .b n v) m := by
  simp only [BaseLoaded, writeDag, get_set]
  by_cases e : m = n
  · simp only [e, if_true, or_true]
  · simpa only [BaseLoaded, e, if_false] using h

theorem writeDag_baseLoaded (s : State) (k : DagKind) (n : RegNum) (v : Word) (m : RegNum) :
    BaseLoaded s (writeDag s k n v) m := by
  by_cases h : k = .b
  · subst h; exact writeDag_b_baseLoaded n v (.inl rfl)
  · exact .of_bReg_eq (writeDag_bReg_of_ne_b s n v h) m

theorem loadDag_baseLoaded (s : State) (c : WordClass) (k : DagKind) (n : RegNum) (v : Long) (m : RegNum) :
    BaseLoaded s (loadDag s c k n v) m := by
  cases c with
  | normal32 => exact writeDag_baseLoaded s k n _ m
  | ext40 => exact writeDag_baseLoaded s k n _ m
  | long64 =>
    by_cases h : k = .b
    · subst h; exact writeDag_b_baseLoaded _ _ (writeDag_baseLoaded s .b n _ m)
    · exact .of_bReg_eq ((writeDag_bReg_of_ne_b _ _ _ h).trans (writeDag_bReg_of_ne_b _ _ _ h)) m
  | short16 => exact .inl rfl
  | notData => exact .inl rfl

theorem loadReg_baseLoaded (s : State) (c : WordClass) (u : Ureg) (v : Long) (bc : Bool) (m : RegNum) :
    BaseLoaded s (loadReg s c u v bc) m := by
  cases u with
  | dag k n => exact loadDag_baseLoaded s c k n v m
  | data d => exact .of_bReg_eq (writeAll_bReg s _) m
  | sys q => exact .inl rfl

/-! ## What every instruction leaves as it was -/

/-- What an instruction other than PUSH STS leaves as it was until the program counter goes on: every mode, parameter and
arrival, the program counter, and the B registers but those whose I register takes the same value. -/
structure KeptByEffect (s u : State) : Prop where
  mode1 : u.mode1 = s.mode1
  mmaskCbufen : u.mmaskCbufen = s.mmaskCbufen
  stkyy : u.stkyy = s.stkyy
  pc : u.pc = s.pc
  program : u.program = s.program
  platform : u.platform = s.platform
  events : u.events = s.events
  base : ∀ n, BaseLoaded s u n

theorem KeptByEffect.refl (s : State) : KeptByEffect s s :=
  ⟨rfl, rfl, rfl, rfl, rfl, rfl, rfl, .of_bReg_eq rfl⟩

/-- An effect after an address has been put out: the post-modify, which writes I and no B register, comes first. -/
theorem KeptByAddress.before {s s1 u : State} (h : KeptByAddress s s1) (hu : KeptByEffect s1 u) : KeptByEffect s u where
  mode1 := hu.mode1.trans h.mode1
  mmaskCbufen := hu.mmaskCbufen.trans h.mmaskCbufen
  stkyy := hu.stkyy.trans h.stkyy
  pc := hu.pc.trans h.pc
  program := hu.program.trans h.program
  platform := hu.platform.trans h.platform
  events := hu.events.trans h.events
  base n := by simpa only [BaseLoaded, h.bReg] using hu.base n

theorem writeDag_keptByEffect (s : State) (k : DagKind) (n : RegNum) (v : Word) :
    KeptByEffect s (writeDag s k n v) := by
  constructor
  case base => exact writeDag_baseLoaded s k n v
  all_goals simp

/-- The register writes of a load, after a read that may have drawn free values. -/
theorem loadReg_keptByEffect (s : State) (d : Nat) (c : WordClass) (u : Ureg) (v : Long) (bc : Bool) :
    KeptByEffect s (loadReg { s with draws := d } c u v bc) := by
  constructor
  case base => exact loadReg_baseLoaded { s with draws := d } c u v bc
  all_goals simp

/-- The register writes of a dual move, after its sides have accessed memory. -/
theorem dualWrites_keptByEffect (s : State) (d : Nat) (m : Memory) (ws vs : List (DataReg × Data)) :
    KeptByEffect s (dualWrites { s with draws := d, mem := m } ws vs) := by
  constructor
  case base => exact .of_bReg_eq (dualWrites_bReg _ ws vs)
  all_goals simp

theorem modifyIndex_keptByEffect {s u : State} {n : RegNum} {m : Word} (h : modifyIndex s n m = .next u) :
    KeptByEffect s u := by
  obtain ⟨v, -, rfl⟩ := modifyIndex_next h
  constructor
  case base => exact .of_bReg_eq (by simp only [noteModifyOverflow_bReg, writeDag])
  all_goals simp

/-- The transfer of a register move writes one DAG register, or data registers, or nothing. -/
theorem moveEffect_keptByEffect {s u : State} {o : Bool × Bool} {dst src : Ureg} (h : moveEffect s o dst src = .next u) :
    KeptByEffect s u := by
  rcases moveEffect_next h with ⟨k, n, j, m, -, -, rfl⟩ | ⟨k, n, x, -, -, rfl⟩ | ⟨k, n, x, -, -, rfl⟩
  · unfold dagToDag
    split
    · exact writeDag_keptByEffect s k n _
    · exact .refl s
  · unfold dataToDag
    split
    · exact writeDag_keptByEffect s k n _
    · split
      · exact writeDag_keptByEffect s k n _
      · exact .refl s
  · unfold dagToData
    constructor
    case base => exact .of_bReg_eq (writeAll_bReg s _)
    all_goals simp

/-- `t` is the next statement after an effect that keeps modes, parameters and base registers. -/
def AdvancesFrom (s t : State) : Prop := ∃ u, KeptByEffect s u ∧ t = advance u

theorem loadForm_advancesFrom {mode : AddrMode} {u : Ureg} {bus : Bus} {ia : RegNum} {md : Modifier} {w : Nat}
    {s t : State} (h : loadForm mode u bus ia md w s = .next t) : AdvancesFrom s t := by
  obtain ⟨m, a, s1, pl, v, s2, -, -, haddr, -, hread, rfl⟩ := loadForm_next h
  obtain ⟨d, rfl⟩ := memRead_kept hread
  exact ⟨_, (addressOutput_kept haddr).before (loadReg_keptByEffect s1 d _ _ _ _), rfl⟩

theorem storeForm_advancesFrom {mode : AddrMode} {u : Ureg} {bus : Bus} {ia : RegNum} {md : Modifier} {w : Nat}
    {s t : State} (h : storeForm mode u bus ia md w s = .next t) : AdvancesFrom s t := by
  obtain ⟨m, a, s1, pl, -, -, haddr, -, -, rfl⟩ := storeForm_next h
  refine ⟨_, (addressOutput_kept haddr).before ?_, rfl⟩
  exact ⟨rfl, rfl, rfl, rfl, rfl, rfl, rfl, .of_bReg_eq rfl⟩

theorem execDualMove_advancesFrom {x y : Access} {s t : State} (h : execDualMove x y s = .next t) :
    AdvancesFrom s t := by
  obtain ⟨dx, bx, dy, bM, mx, my, ax, s1, ay, s2, px, py, wx, s3, wy, s4, -, -, -, -, -, -, -, -, hx, hy, -, -, -,
    hax, hay, rfl⟩ := execDualMove_next h
  have h1 : KeptByAddress s s1 := addressOutput_kept (mode := .post) hx
  have h2 : KeptByAddress s1 s2 := addressOutput_kept (mode := .post) hy
  obtain ⟨d3, m3, rfl, -⟩ := sideAccess_kept hax
  obtain ⟨d4, m4, rfl, -⟩ := sideAccess_kept hay
  exact ⟨_, h1.before (h2.before (dualWrites_keptByEffect s2 d4 m4 wx wy)), rfl⟩

theorem execModifyM_advancesFrom {ia mb : RegNum} {s t : State} (h : execModifyM ia mb s = .next t) :
    AdvancesFrom s t := by
  simp only [execModifyM, andThen_next, Host.Outcome.next.injEq] at h
  obtain ⟨m, -, u, hu, rfl⟩ := h
  exact ⟨u, modifyIndex_keptByEffect hu, rfl⟩

theorem execModifyImm_advancesFrom {ia : RegNum} {imm : Int} {s t : State} (h : execModifyImm ia imm s = .next t) :
    AdvancesFrom s t := by
  simp only [execModifyImm, andThen_next, Host.Outcome.next.injEq] at h
  obtain ⟨m, -, u, hu, rfl⟩ := h
  exact ⟨u, modifyIndex_keptByEffect hu, rfl⟩

theorem execBitrevImm_advancesFrom {ia : RegNum} {imm : Int} {s t : State} (h : execBitrevImm ia imm s = .next t) :
    AdvancesFrom s t := by
  simp only [execBitrevImm, andThen_next, Host.Outcome.next.injEq] at h
  obtain ⟨m, -, -, -, rfl⟩ := h
  exact ⟨_, writeDag_keptByEffect s .i ia _, rfl⟩

theorem execDagregLoadImm_advancesFrom {k : DagKind} {n : RegNum} {imm : Int} {s t : State}
    (h : execDagregLoadImm k n imm s = .next t) : AdvancesFrom s t := by
  simp only [execDagregLoadImm, andThen_next, Host.Outcome.next.injEq] at h
  obtain ⟨v, -, rfl⟩ := h
  exact ⟨_, writeDag_keptByEffect s k n v, rfl⟩

theorem execUregMove_advancesFrom {c : Option Cond} {dst src : Ureg} {s t : State}
    (h : execUregMove c dst src s = .next t) : AdvancesFrom s t := by
  simp only [execUregMove, andThen_next, Host.Outcome.next.injEq] at h
  obtain ⟨u, hu, rfl⟩ := h
  have hk := moveEffect_keptByEffect hu
  refine ⟨u, ?_, rfl⟩
  constructor
  case base => simpa only [BaseLoaded, popCond_bReg] using hk.base
  all_goals simp [hk.mode1, hk.mmaskCbufen, hk.stkyy, hk.pc, hk.program, hk.platform, hk.events]

/-- What every instruction that completes does: PUSH STS pushes the status, any other keeps the modes, and both go on to the
next statement. -/
theorem exec_next {i : Instr} {s t : State} (h : exec i s = .next t) :
    (i = .pushSts ∧ t = advance (pushMode s (maskedCbufen s))) ∨ AdvancesFrom s t := by
  cases i with
  | loadPostM u bus ia mb => exact .inr (loadForm_advancesFrom h)
  | storePostM bus ia mb u => exact .inr (storeForm_advancesFrom h)
  | loadPostImm u bus ia imm => exact .inr (loadForm_advancesFrom h)
  | storePostImm bus ia imm u => exact .inr (storeForm_advancesFrom h)
  | loadPreM u bus mb ia => exact .inr (loadForm_advancesFrom h)
  | storePreM bus mb ia u => exact .inr (storeForm_advancesFrom h)
  | loadPreImm u bus imm ia => exact .inr (loadForm_advancesFrom h)
  | storePreImm bus imm ia u => exact .inr (storeForm_advancesFrom h)
  | dualMove x y => exact .inr (execDualMove_advancesFrom h)
  | modifyM ia mb => exact .inr (execModifyM_advancesFrom h)
  | modifyImm ia imm => exact .inr (execModifyImm_advancesFrom h)
  | jumpIndirect md ic => cases h
  | pushSts => exact .inl ⟨rfl, (Host.Outcome.next.inj h).symm⟩
  | bitrevImm ia imm => exact .inr (execBitrevImm_advancesFrom h)
  | dagregLoadImm k n imm => exact .inr (execDagregLoadImm_advancesFrom h)
  | uregMove c dst src => exact .inr (execUregMove_advancesFrom h)

/-! ## The bits of MODE1 -/

theorem keepOrClear_imp {s : State} {k : Nat} {old : Bool} (h : keepOrClear s k old = true) : old = true :=
  (Bool.and_eq_true_iff.mp h).1

theorem maskedCbufen_imp {s : State} (h : maskedCbufen s = true) : s.mode1.cbufen = true :=
  (Bool.and_eq_true_iff.mp h).1

theorem NoModeBitSet.of_mode1_eq {s t : State} (h : t.mode1 = s.mode1) : NoModeBitSet s t := by
  simp only [NoModeBitSet, h, imp_self, and_self]

/-- The status push sets no bit of MODE1 where it does not set CBUFEN (R98). -/
theorem pushMode_noModeBitSet {s : State} {cb : Bool} (h : cb = true → s.mode1.cbufen = true) :
    NoModeBitSet s (pushMode s cb) :=
  ⟨h, keepOrClear_imp, keepOrClear_imp, keepOrClear_imp, keepOrClear_imp, keepOrClear_imp⟩

theorem irqEntry_noModeBitSet (kind : IrqKind) (s : State) : NoModeBitSet s (irqEntry kind s) := by
  cases kind with
  | other =>
    refine pushMode_noModeBitSet fun h => ?_
    split at h
    · exact keepOrClear_imp h
    · exact h
  | _ => exact pushMode_noModeBitSet maskedCbufen_imp

end Sys2Proof.Machine

namespace Sys2Proof.Proofs

open Sys2Proof.Machine

/-- Settles O11: a post-modify writes I registers before, never after, a B register is loaded. -/
theorem baseChangeLoadsIndex : Obligations.BaseChangeLoadsIndex := by
  intro i s t h n hn
  rcases exec_next h with ⟨-, rfl⟩ | ⟨u, hu, rfl⟩
  · exact absurd rfl hn
  · exact (hu.base n).resolve_left hn

/-- Settles O14: PUSH STS and interrupt entry push the status, which keeps or clears each bit, and no other instruction
writes a mode. -/
theorem modeBitsNeverSet : Obligations.ModeBitsNeverSet := by
  refine ⟨fun i s t h => ?_, fun kind s => ⟨irqEntry_noModeBitSet kind s, by simp, by simp⟩⟩
  rcases exec_next h with ⟨hi, rfl⟩ | ⟨u, hu, rfl⟩
  · exact ⟨.inl hi, rfl, rfl, pushMode_noModeBitSet maskedCbufen_imp⟩
  · exact ⟨.inr hu.mode1, hu.mmaskCbufen, hu.stkyy, .of_mode1_eq hu.mode1⟩

/-- Settles O15: every form ends in `advance`, and what it does before leaves the program counter. -/
theorem completionAdvancesPc : Obligations.CompletionAdvancesPc := by
  intro i s t h
  rcases exec_next h with ⟨-, rfl⟩ | ⟨u, hu, rfl⟩
  · rfl
  · rw [advance_pc_succ, hu.pc]

/-- Settles O3, by the kind of statement the text decodes to. -/
theorem stepRunsDecodedStatement : Obligations.StepRunsDecodedStatement := by
  intro s text ha hf
  have run {st : Statement} (hd : decode text = .ok st) : step s = runStatement exec st (popEvent s) :=
    (step_eq_runText ha hf).trans (runText_of_decode exec _ hd)
  refine ⟨fun i hd => run hd, fun c i hd => ⟨fun hs hh => ?_, fun hg => ?_⟩, fun f b hd => run hd,
    popEvent_cons s, popEvent_nil s⟩
  · exact (run hd).trans (runUnder_of_passedOver exec (under_of_decode hd) hs hh)
  · exact (run hd).trans (runUnder_of_goesAhead exec (under_of_decode hd) hg)

/-- Settles O47, field by field and register kind by register kind. -/
theorem setFieldWritesOneField : Obligations.SetFieldWritesOneField := by
  intro s f b
  have same : getField f (setField f b s) = b := by rw [getField_setField, if_pos rfl]
  have other : ∀ g, g ≠ f → getField g (setField f b s) = getField g s := fun g hg => by
    rw [getField_setField, if_neg hg]
  refine ⟨same, other, fun k n => .inr (readDag_setField f b s k n), fun d => .inr (readData_setField f b s d), ?_⟩
  simp [SameMemory, SameEnvironment]

/-- Settles O54, operand class by operand class. -/
theorem moveRefusals : Obligations.MoveRefusals := by
  intro s c
  refine ⟨fun q u => ⟨exec_uregMove_of_refused rfl, exec_uregMove_of_refused (moveEffect_sys_src _ _ u q)⟩,
    fun k n x hp => ?_, fun k n x hp => ?_, fun d e => exec_uregMove_of_refused (moveEffect_data_data _ _ d e)⟩
  all_goals
    refine ⟨exec_uregMove_of_refused ?_, exec_uregMove_of_refused ?_⟩
    · rw [moveEffect_dag_sReg, sRegMove_popCond, hp]; rfl
    · rw [moveEffect_sReg_dag, sRegMove_popCond, hp]; rfl

end Sys2Proof.Proofs
end

section
/-! Proofs of the family 20_memory.md: what an instruction writes to memory, what a load and a store that complete leave, and
where an access stops. -/

namespace Sys2Proof.Machine

/-! ## What an instruction writes to memory -/

/-- Memory in canonical form before is in canonical form after. -/
def KeepsCanonical (s t : State) : Prop := Memory.wf s.mem → Memory.wf t.mem

theorem KeepsCanonical.of_mem_eq {s t : State} (h : t.mem = s.mem) : KeepsCanonical s t := fun hw => h ▸ hw

theorem KeepsCanonical.trans {s t u : State} (h1 : KeepsCanonical s t) (h2 : KeepsCanonical t u) : KeepsCanonical s u :=
  h2 ∘ h1

theorem loadForm_mem {mode : AddrMode} {u : Ureg} {bus : Bus} {ia : RegNum} {md : Modifier} {w : Nat} {s t : State}
    (h : loadForm mode u bus ia md w s = .next t) : t.mem = s.mem := by
  obtain ⟨m, a, s1, pl, v, s2, -, -, haddr, -, hread, rfl⟩ := loadForm_next h
  obtain ⟨d, rfl⟩ := memRead_kept hread
  simp only [advance_mem, loadReg_mem, (addressOutput_kept haddr).mem]

/-- A store writes the bytes of one word. -/
theorem storeForm_keepsCanonical {mode : AddrMode} {u : Ureg} {bus : Bus} {ia : RegNum} {md : Modifier} {w : Nat}
    {s t : State} (h : storeForm mode u bus ia md w s = .next t) : KeepsCanonical s t := by
  obtain ⟨m, a, s1, pl, -, -, haddr, -, -, rfl⟩ := storeForm_next h
  intro hw
  rw [← (addressOutput_kept haddr).mem] at hw
  exact writeBytes_wf _ _ _ hw

theorem sideAccess_keepsCanonical {old s t : State} {bus : Bus} {a : Access} {d : DataReg} {adr : Word} {pl : Place}
    {ws : List (DataReg × Data)} (h : sideAccess old s bus a d adr pl = .next (ws, t)) : KeepsCanonical s t := by
  obtain ⟨c, m, rfl, rfl | ⟨-, v, rfl⟩⟩ := sideAccess_kept h
  · exact .of_mem_eq rfl
  · exact writeBytes_wf _ _ _

/-- Of a dual move only the two accesses write memory. -/
theorem execDualMove_keepsCanonical {x y : Access} {s t : State} (h : execDualMove x y s = .next t) :
    KeepsCanonical s t := by
  obtain ⟨dx, bx, dy, bM, mx, my, ax, s1, ay, s2, px, py, wx, s3, wy, s4, -, -, -, -, -, -, -, -, hx, hy, -, -, -,
    hax, hay, rfl⟩ := execDualMove_next h
  have h1 : s1.mem = s.mem := (addressOutput_kept (mode := .post) hx).mem
  have h2 : s2.mem = s1.mem := (addressOutput_kept (mode := .post) hy).mem
  have haddr : KeepsCanonical s s2 := .of_mem_eq (h2.trans h1)
  have hwrites : KeepsCanonical s4 (advance (dualWrites s4 wx wy)) := .of_mem_eq (dualWrites_mem s4 wx wy)
  exact haddr.trans ((sideAccess_keepsCanonical hax).trans ((sideAccess_keepsCanonical hay).trans hwrites))

theorem modifyIndex_mem {s u : State} {n : RegNum} {m : Word} (h : modifyIndex s n m = .next u) : u.mem = s.mem := by
  obtain ⟨v, -, rfl⟩ := modifyIndex_next h
  simp only [noteModifyOverflow_mem, writeDag_mem]

theorem moveEffect_mem {s u : State} {o : Bool × Bool} {dst src : Ureg} (h : moveEffect s o dst src = .next u) :
    u.mem = s.mem := by
  rcases moveEffect_next h with ⟨k, n, j, m, -, -, rfl⟩ | ⟨k, n, x, -, -, rfl⟩ | ⟨k, n, x, -, -, rfl⟩
  · simp only [dagToDag, apply_ite State.mem, writeDag_mem, ite_self]
  · simp only [dataToDag, apply_ite State.mem, writeDag_mem, ite_self]
  · exact writeAll_mem s _

/-- Every instruction that completes keeps the canonical form: stores and dual moves write whole words, no other form writes
memory. -/
theorem exec_keepsCanonical {i : Instr} {s t : State} (h : exec i s = .next t) : KeepsCanonical s t := by
  cases i with
  | loadPostM u bus ia mb => exact .of_mem_eq (loadForm_mem h)
  | storePostM bus ia mb u => exact storeForm_keepsCanonical h
  | loadPostImm u bus ia imm => exact .of_mem_eq (loadForm_mem h)
  | storePostImm bus ia imm u => exact storeForm_keepsCanonical h
  | loadPreM u bus mb ia => exact .of_mem_eq (loadForm_mem h)
  | storePreM bus mb ia u => exact storeForm_keepsCanonical h
  | loadPreImm u bus imm ia => exact .of_mem_eq (loadForm_mem h)
  | storePreImm bus imm ia u => exact storeForm_keepsCanonical h
  | dualMove x y => exact execDualMove_keepsCanonical h
  | modifyM ia mb =>
    simp only [exec, execModifyM, andThen_next, Host.Outcome.next.injEq] at h
    obtain ⟨m, -, u, hu, rfl⟩ := h
    exact .of_mem_eq ((advance_mem u).trans (modifyIndex_mem hu))
  | modifyImm ia imm =>
    simp only [exec, execModifyImm, andThen_next, Host.Outcome.next.injEq] at h
    obtain ⟨m, -, u, hu, rfl⟩ := h
    exact .of_mem_eq ((advance_mem u).trans (modifyIndex_mem hu))
  | jumpIndirect md ic => cases h
  | pushSts => cases h; exact .of_mem_eq rfl
  | bitrevImm ia imm =>
    simp only [exec, execBitrevImm, andThen_next, Host.Outcome.next.injEq] at h
    obtain ⟨m, -, -, -, rfl⟩ := h
    exact .of_mem_eq (by simp only [advance_mem, writeDag_mem])
  | dagregLoadImm k n imm =>
    simp only [exec, execDagregLoadImm, andThen_next, Host.Outcome.next.injEq] at h
    obtain ⟨v, -, rfl⟩ := h
    exact .of_mem_eq (by simp only [advance_mem, writeDag_mem])
  | uregMove c dst src =>
    simp only [exec, execUregMove, andThen_next, Host.Outcome.next.injEq] at h
    obtain ⟨u, hu, rfl⟩ := h
    exact .of_mem_eq ((moveEffect_mem hu).trans (popCond_mem s c))

/-! ## The program text and the platform -/

/-- No instruction that completes writes the program text or the platform (R57). -/
theorem exec_program_platform {i : Instr} {s t : State} (h : exec i s = .next t) :
    t.program = s.program ∧ t.platform = s.platform := by
  rcases exec_next h with ⟨-, rfl⟩ | ⟨u, hu, rfl⟩
  · exact ⟨rfl, rfl⟩
  · exact ⟨hu.program, hu.platform⟩

theorem setStatement_getElem? (text : List Byte) (n : Nat) (ps : List (List Byte)) :
    (setStatement text n ps)[n]? = some text := by
  induction n generalizing ps with
  | zero => cases ps <;> rfl
  | succ n ih => cases ps <;> exact ih _

/-! ## Loads and stores that pass the checks before their addresses -/

theorem loadGuard_of {s : State} {mode : AddrMode} {bus : Bus} {ia : RegNum} {u : Ureg} (hg : isGiven u = true)
    (hc : (updates mode && ofDagOf ia u) = false) (hp : s.mode1.peyen = false)
    (hb : (broadcast s bus ia && isSReg u) = false) : loadGuard s mode bus ia u = .next () := by
  simp only [loadGuard, hp, hg, hc, hb, Bool.not_false, require_true, andThen_of_next]

theorem storeGuard_of {s : State} {ia : RegNum} {u : Ureg} (hg : isGiven u = true) (hc : ofDagOf ia u = false)
    (hp : s.mode1.peyen = false) : storeGuard s ia u = .next () := by
  simp only [storeGuard, hp, hg, hc, Bool.not_false, require_true, andThen_of_next]

theorem broadcast_of_mode1_eq {s t : State} (h : t.mode1 = s.mode1) (bus : Bus) (n : RegNum) :
    broadcast t bus n = broadcast s bus n := by
  simp only [broadcast, h]

theorem memRead_of_shared {s : State} {pl : Place} (a : Word) (h : touches pl s.platform.shared = true) :
    memRead s a pl = .next (freeValue s pl, { s with draws := s.draws + 1 }) := by
  simp only [memRead, h, if_true]

/-- The bus decides whether a word is reached, not where it lies (R44; D19). -/
theorem dataPlace_bus_irrelevant {p : Platform} {bus bus2 : Bus} {a : Word} {pl pl2 : Place}
    (h : dataPlace p bus a = .next pl) (h2 : dataPlace p bus2 a = .next pl2) : pl2 = pl := by
  obtain ⟨-, r, hr, rfl⟩ := place_next (dataPlace_next h).1
  obtain ⟨-, r2, hr2, rfl⟩ := place_next (dataPlace_next h2).1
  rw [Option.some.inj (hr.symm.trans hr2)]

/-- A load whose address reaches a place that answers a word loads that word. -/
theorem exec_of_isLoad_of_memRead {s s1 s2 : State} {mode : AddrMode} {u : Ureg} {bus : Bus} {ia : RegNum} {m a : Word}
    {i : Instr} {pl : Place} {v : Long} (h : IsLoad s mode u bus ia m i)
    (hguard : loadGuard s mode bus ia u = .next ()) (haddr : addressOutput mode s ia m = .next (a, s1))
    (hplace : dataPlace s.platform bus a = .next pl) (hread : memRead s1 a pl = .next (v, s2)) :
    exec i s = .next (advance (loadReg s2 pl.cls u v (broadcast s bus ia))) := by
  have hk := addressOutput_kept haddr
  rw [exec_of_isLoad h, hguard, andThen_of_next, haddr, andThen_of_next]
  simp only [loadInto, hk.platform, hplace, andThen_of_next, hread, broadcast_of_mode1_eq hk.mode1]

/-- What a load that completes has read and loaded, its address being given. -/
theorem exec_isLoad_next {s s1 t : State} {mode : AddrMode} {u : Ureg} {bus : Bus} {ia : RegNum} {m a : Word} {i : Instr}
    (h : IsLoad s mode u bus ia m i) (haddr : addressOutput mode s ia m = .next (a, s1)) (hi : exec i s = .next t) :
    isGiven u = true ∧ ∃ pl v s2, dataPlace s.platform bus a = .next pl ∧ memRead s1 a pl = .next (v, s2) ∧
      t = advance (loadReg s2 pl.cls u v (broadcast s bus ia)) := by
  have hk := addressOutput_kept haddr
  simp only [exec_of_isLoad h, haddr, andThen_of_next, loadInto, hk.platform, broadcast_of_mode1_eq hk.mode1, andThen_next,
    Host.Outcome.next.injEq] at hi
  obtain ⟨⟨⟩, hguard, -, ⟨pl, hplace, ⟨v, s2⟩, hread, rfl⟩, rfl⟩ := hi
  exact ⟨(loadGuard_next hguard).1, pl, v, s2, hplace, hread, rfl⟩

/-- A store that runs writes the word at its place. -/
theorem StoreRuns.exec_eq {s s1 : State} {mode : AddrMode} {u : Ureg} {bus : Bus} {ia : RegNum} {m a : Word} {i : Instr}
    {pl : Place} (h : StoreRuns s mode u bus ia m i a s1 pl) :
    exec i s = .next (advance
      { s1 with mem := writeBytes s1.mem pl.start (placeBytes pl) (storeWord s pl.cls u).toNat }) := by
  have hk := addressOutput_kept h.address
  rw [exec_of_isStore h.form, storeGuard_of h.given h.notClass2 h.simdOff, andThen_of_next, h.address, andThen_of_next]
  simp only [storeFrom, memWrite, hk.platform, h.admitted, h.notText, Bool.not_false, require_true, andThen_of_next]

/-- The word a store has written reads as the stored value. -/
theorem StoreRuns.readBytes_stored {s s1 t : State} {mode : AddrMode} {u : Ureg} {bus : Bus} {ia : RegNum} {m a : Word}
    {i : Instr} {pl : Place} (h : StoreRuns s mode u bus ia m i a s1 pl) (hi : exec i s = .next t) :
    readBytes t.mem pl.start (placeBytes pl) = some (storedValue s pl.cls u) := by
  obtain ⟨-, hshort, hdata⟩ := dataPlace_next h.admitted
  rw [h.exec_eq, Host.Outcome.next.injEq] at hi
  rw [← hi, advance_mem, readBytes_writeBytes_same, storeWord_toNat s _ u hshort hdata h.given,
    Nat.mod_eq_of_lt (storedValue_lt s pl u)]

/-! ## What a load leaves in its registers -/

theorem writeDag_iReg_other (s : State) (k : DagKind) {n m : RegNum} (v : Word) (h : m ≠ n) :
    (writeDag s k n v).iReg[m] = s.iReg[m] := by
  cases k <;> simp only [writeDag, get_set, h, if_false]

theorem writeDag_holdsDag (s : State) (k : DagKind) (n : RegNum) {v : Word} {x : Nat} (h : v.toNat = x) :
    HoldsDag (writeDag s k n v) k n x := by
  refine ⟨by rw [readDag_writeDag_same, h], ?_⟩
  rintro rfl
  simp only [writeDag, get_set, if_true, h]

/-- A write of another register of the kind leaves what a register and, for a B register, its I register hold. -/
theorem HoldsDag.writeDag_other {s : State} {k : DagKind} {n m : RegNum} {x : Nat} (h : HoldsDag s k m x) (v : Word)
    (hne : m ≠ n) : HoldsDag (writeDag s k n v) k m x := by
  simpa only [HoldsDag, readDag_writeDag_other v (.inr hne) (fun _ _ => hne), writeDag_iReg_other s k v hne] using h

/-- A load of a DAG register leaves the word's value in it, and the upper half of a long word in its pair partner (R119 to
R121). -/
theorem loadDag_holds (s : State) (c : WordClass) (k : DagKind) (n : RegNum) {v : Nat} (hv : v < 256 ^ wordBytes c)
    (hc : c ≠ .short16) (hn : c ≠ .notData) :
    HoldsDag (loadDag s c k n (BitVec.ofNat 64 v)) k n (dagValue c v) ∧
      (c = .long64 → HoldsDag (loadDag s c k n (BitVec.ofNat 64 v)) k (pairOf n) (v / 2 ^ 32)) := by
  have hlow : (low32 (BitVec.ofNat 64 v)).toNat = v % 2 ^ 32 := by rw [low32_ofNat, BitVec.toNat_ofNat]
  cases c with
  | short16 => exact absurd rfl hc
  | notData => exact absurd rfl hn
  | normal32 => exact ⟨writeDag_holdsDag s k n hlow, nofun⟩
  | ext40 =>
    have hv40 : v < 2 ^ 40 := hv
    have hupper : ((BitVec.ofNat 64 v).extractLsb' 8 32).toNat = v / 2 ^ 8 := by
      rw [extract_upper v hv40, BitVec.toNat_ofNat]; omega
    exact ⟨writeDag_holdsDag s k n hupper, nofun⟩
  | long64 =>
    have hv64 : v < 2 ^ 64 := hv
    have hhigh : (high32 (BitVec.ofNat 64 v)).toNat = v / 2 ^ 32 := by
      rw [high32_ofNat v hv64, BitVec.toNat_ofNat]; omega
    exact ⟨(writeDag_holdsDag s k n hlow).writeDag_other _ (pairOf_ne n).symm,
      fun _ => writeDag_holdsDag _ k (pairOf n) hhigh⟩

/-- A load of a register the spec gives leaves in its registers what the word gives them (R85, R105, R119 to R121). -/
theorem loadReg_holds (s : State) {pl : Place} {u : Ureg} {v : Nat} (b : Bool) (hg : isGiven u = true)
    (hv : v < 256 ^ placeBytes pl) (hc : pl.cls ≠ .short16) (hn : pl.cls ≠ .notData) :
    HoldsLoaded (advance (loadReg s pl.cls u (BitVec.ofNat 64 v) b)) pl.cls u b v := by
  have hv64 : v < 2 ^ 64 := by
    refine hv.trans_le ?_
    unfold placeBytes wordBytes; cases pl.cls <;> norm_num
  cases u with
  | dag k n => exact loadDag_holds s pl.cls k n hv hc hn
  | data d => exact loadWrites_holds s pl.cls d v b hv64 hc hn
  | sys q => cases hg

theorem loadDag_iReg_other (s : State) (c : WordClass) (k : DagKind) {n m : RegNum} (v : Long) (h : m ≠ n)
    (hp : m ≠ pairOf n) : (loadDag s c k n v).iReg[m] = s.iReg[m] := by
  cases c with
  | long64 => exact (writeDag_iReg_other _ k _ hp).trans (writeDag_iReg_other s k _ h)
  | normal32 => exact writeDag_iReg_other s k _ h
  | ext40 => exact writeDag_iReg_other s k _ h
  | short16 => rfl
  | notData => rfl

/-- A load of a register that is no DAG register of the index register's DAG leaves the index register (R141). -/
theorem loadReg_iReg_of_not_ofDagOf (s : State) (c : WordClass) {u : Ureg} (v : Long) (b : Bool) {ia : RegNum}
    (h : ofDagOf ia u = false) : (loadReg s c u v b).iReg[ia] = s.iReg[ia] := by
  cases u with
  | dag k n =>
    have hne : dagOf n ≠ dagOf ia := by simpa only [ofDagOf, decide_eq_false_iff_not] using h
    refine loadDag_iReg_other s c k v ?_ ?_
    · rintro rfl; exact hne rfl
    · rintro rfl; exact hne (dagOf_pairOf n).symm
  | data d => simp only [loadReg, writeAll_iReg]
  | sys q => rfl

/-! ## The stored value loaded back -/

theorem namedValue_storedValue_normal (s : State) (d : DataReg) :
    namedValue .normal32 (storedValue s .normal32 (.data d)) = widen (hi32 (readData s d)) := by
  apply BitVec.eq_of_toNat_eq
  have := (readData s d).isLt
  simp only [namedValue, storedValue, BitVec.toNat_ofNat, widen_toNat, hi32_toNat]
  omega

theorem namedValue_storedValue_ext (s : State) (d : DataReg) :
    namedValue .ext40 (storedValue s .ext40 (.data d)) = readData s d := by
  simp only [namedValue, storedValue, BitVec.ofNat_toNat, BitVec.setWidth_eq]

theorem namedValue_storedValue_long (s : State) (d : DataReg) :
    namedValue .long64 (storedValue s .long64 (.data d)) = widen (hi32 (readData s d)) := by
  apply BitVec.eq_of_toNat_eq
  have := (readData s d).isLt
  simp only [namedValue, storedValue, BitVec.toNat_ofNat, widen_toNat, hi32_toNat]
  omega

theorem partnerValue_storedValue (s : State) (d : DataReg) :
    partnerValue (storedValue s .long64 (.data d)) = widen (hi32 (readData s (dataPair d))) := by
  apply BitVec.eq_of_toNat_eq
  have := (readData s d).isLt
  have := (readData s (dataPair d)).isLt
  simp only [partnerValue, storedValue, BitVec.toNat_ofNat, widen_toNat, hi32_toNat]
  omega

theorem dagValue_storedValue (s : State) {c : WordClass} (k : DagKind) (n : RegNum) (hc : c ≠ .short16)
    (hn : c ≠ .notData) : dagValue c (storedValue s c (.dag k n)) = (readDag s k n).toNat := by
  have := (readDag s k n).isLt
  cases c with
  | short16 => exact absurd rfl hc
  | notData => exact absurd rfl hn
  | _ => simp only [dagValue, storedValue]; omega

/-! ## Refused addresses and updates -/

/-- A step on which the circular update has no value takes the once-corrected value out of the buffer (R90, R94). -/
theorem inBuffer_corrected_of_not_domain {cur base len m : Word} (hlen : len.toNat < 2 ^ 31)
    (htop : base.toNat + len.toNat ≤ 2 ^ 32) (hlow : base.toNat ≤ cur.toNat) (hhigh : cur.toNat < base.toNat + len.toNat)
    (hd : ¬ CircularDomain cur base len m) :
    inBuffer base.toNat len.toNat (corrected base.toNat len.toNat (sval m) (cur.toNat + sval m)) = false := by
  have hstep : ¬ (-(len.toNat : Int) - (cur.toNat - base.toNat) ≤ sval m ∧
      sval m < 2 * (len.toNat : Int) - (cur.toNat - base.toNat)) := fun h => hd ⟨hlen, htop, hlow, hhigh, h.1, h.2⟩
  simp only [corrected, inBuffer, Bool.and_eq_true, Bool.and_eq_false_iff, decide_eq_true_eq, decide_eq_false_iff_not]
  split_ifs <;> omega

/-- The circular update is refused by the name of the first of its conditions that fails (R88, R90, R93, R94). -/
theorem circularNext_of_refused {cur base len m : Word} {r : Refusal} (h : UpdateRefused cur base len m r) :
    circularNext cur base len m = .refused r := by
  unfold UpdateRefused at h
  unfold circularNext
  split_ifs at h with hlen htop hidx
  · rw [h, decide_eq_false (by omega)]; rfl
  · rw [h, decide_eq_true (by omega), decide_eq_false (by omega)]; rfl
  · have hout : inBuffer base.toNat len.toNat cur.toNat = false := by
      simp only [inBuffer, Bool.and_eq_false_iff, decide_eq_false_iff_not]; omega
    rw [h, decide_eq_true (by omega), decide_eq_true (by omega), hout]; rfl
  · have hin : inBuffer base.toNat len.toNat cur.toNat = true := by
      simp only [inBuffer, Bool.and_eq_true, decide_eq_true_eq]; omega
    have hout := inBuffer_corrected_of_not_domain (m := m) (by omega) (by omega) (by omega) (by omega) h.1
    rw [h.2, decide_eq_true (by omega), decide_eq_true (by omega), hin]
    simp only [require_true, andThen_of_next, hout, require_false, andThen_of_refused]

/-- An address output with circular buffering in force is refused by its name (R73, R90, R95, R102). -/
theorem addressOutput_of_refused {s : State} {mode : AddrMode} {n : RegNum} {m : Word} {r : Refusal}
    (h : AddressRefused s mode n m r) : addressOutput mode s n m = .refused r := by
  obtain ⟨hcirc, h⟩ := h
  cases mode with
  | pre => simp only [addressOutput, preModify, hcirc, h, Bool.not_true, require_false, andThen_of_refused]
  | post =>
    by_cases hb : bitReversed s n = true
    · simp only [hb, if_true] at h
      simp only [addressOutput, postModify, hb, hcirc, h, Bool.and_self, Bool.not_true, require_false, andThen_of_refused]
    · simp only [hb] at h
      simp only [addressOutput, postModify, hb, hcirc, nextIndex, if_true, circularNext_of_refused h, Bool.false_and,
        Bool.not_false, require_true, andThen_of_next, andThen_of_refused]

/-- The post-modify of another index register before it changes nothing about a refused one. -/
theorem AddressRefused.after {s : State} {n k : RegNum} {m : Word} {r : Refusal} (h : AddressRefused s .post n m r)
    (v : Word) (w : Bool) (hk : n ≠ k) : AddressRefused (noteOverflow (writeDag s .i k v) k w) .post n m r := by
  simp only [AddressRefused, circLS_after, bitReversed_after, iReg_after s v w hk, noteOverflow_bReg, noteOverflow_lReg]
  exact h

theorem modifyIndex_of_refused {s : State} {n : RegNum} {m : Word} {r : Refusal} (hl : s.lReg[n] ≠ 0)
    (h : UpdateRefused s.iReg[n] s.bReg[n] s.lReg[n] m r) : modifyIndex s n m = .refused r := by
  simp only [modifyIndex, nextIndex, circMOD, hl, ne_eq, not_false_eq_true, decide_true, if_true, circularNext_of_refused h,
    andThen_of_refused]

/-! ## Where a single access stops -/

theorem memWrite_of_text {s : State} {pl : Place} (v : Long) (h : touches pl s.platform.text = true) :
    memWrite s pl v = .refused .storeToProgramText := by
  simp only [memWrite, h, Bool.not_true, require_false, andThen_of_refused]

theorem memRead_of_unwritten {s : State} {pl : Place} (a : Word) (h : touches pl s.platform.shared = false)
    (hb : readBytes s.mem pl.start (placeBytes pl) = none) : memRead s a pl = .fault (.unwrittenMemory a) := by
  simp only [memRead, h, hb]; rfl

/-- No instruction is both a load and a store. -/
theorem IsLoad.not_isStore {s : State} {mode mode2 : AddrMode} {u u2 : Ureg} {bus bus2 : Bus} {ia ib : RegNum}
    {m m2 : Word} {i : Instr} (h : IsLoad s mode u bus ia m i) : ¬ IsStore s mode2 u2 bus2 ib m2 i := by
  rintro ⟨-, h2⟩
  obtain ⟨-, h⟩ := h
  cases mode <;> rcases h with ⟨_, rfl, -⟩ | ⟨_, rfl, -⟩ <;>
    cases mode2 <;> rcases h2 with ⟨_, h2, -⟩ | ⟨_, h2, -⟩ <;> cases h2

/-- `i` is a store or a load of `u` through I[ia] that passes every check before its address. -/
def PassesGuard (s : State) (mode : AddrMode) (u : Ureg) (bus : Bus) (ia : RegNum) (m : Word) (i : Instr) : Prop :=
  (IsStore s mode u bus ia m i ∧ ofDagOf ia u = false) ∨
    (IsLoad s mode u bus ia m i ∧ (updates mode && ofDagOf ia u) = false ∧ (broadcast s bus ia && isSReg u) = false)

theorem andThen_assoc {α β γ : Type} (o : Res α) (f : α → Res β) (g : β → Res γ) :
    andThen (andThen o f) g = andThen o fun a => andThen (f a) g := by
  cases o <;> rfl

/-- A store or load that passes those checks puts its address out, and what it then does follows from the place reached. -/
theorem PassesGuard.exec_eq {s : State} {mode : AddrMode} {u : Ureg} {bus : Bus} {ia : RegNum} {m : Word} {i : Instr}
    (h : PassesGuard s mode u bus ia m i) (hg : isGiven u = true) (hp : s.mode1.peyen = false) :
    ∃ access : Word × State → Place → Res State, exec i s =
      andThen (addressOutput mode s ia m) fun a => andThen (dataPlace a.2.platform bus a.1) (access a) := by
  rcases h with ⟨hi, hc⟩ | ⟨hi, hc, hb⟩
  · exact ⟨_, by simp only [exec_of_isStore hi, storeGuard_of hg hc hp, andThen_of_next, storeFrom, andThen_assoc]; rfl⟩
  · exact ⟨_, by simp only [exec_of_isLoad hi, loadGuard_of hg hc hp hb, andThen_of_next, loadInto, andThen_assoc]; rfl⟩

/-- A store that passes the checks before its address is refused at a place that holds program text (R57). -/
theorem PassesGuard.store_refused {s s1 : State} {mode : AddrMode} {u : Ureg} {bus : Bus} {ia : RegNum} {m a : Word}
    {i : Instr} {pl : Place} (h : PassesGuard s mode u bus ia m i) (hg : isGiven u = true) (hp : s.mode1.peyen = false)
    (haddr : addressOutput mode s ia m = .next (a, s1)) (hplace : dataPlace s.platform bus a = .next pl)
    (htext : touches pl s.platform.text = true) (hi : IsStore s mode u bus ia m i) :
    exec i s = .refused .storeToProgramText := by
  have hc : ofDagOf ia u = false := h.elim And.right fun hl => absurd hi hl.1.not_isStore
  rw [← (addressOutput_kept haddr).platform] at hplace htext
  simp only [exec_of_isStore hi, storeGuard_of hg hc hp, andThen_of_next, haddr, storeFrom, hplace,
    memWrite_of_text _ htext, andThen_of_refused]

/-- A load that passes the checks before its address stops at a word with a byte nothing has written (R136). -/
theorem PassesGuard.load_fault {s s1 : State} {mode : AddrMode} {u : Ureg} {bus : Bus} {ia : RegNum} {m a : Word}
    {i : Instr} {pl : Place} (h : PassesGuard s mode u bus ia m i) (hg : isGiven u = true) (hp : s.mode1.peyen = false)
    (haddr : addressOutput mode s ia m = .next (a, s1)) (hplace : dataPlace s.platform bus a = .next pl)
    (hshared : touches pl s.platform.shared = false) (hbytes : readBytes s.mem pl.start (placeBytes pl) = none)
    (hi : IsLoad s mode u bus ia m i) : exec i s = .fault (.unwrittenMemory a) := by
  obtain ⟨-, hc, hb⟩ := h.resolve_left fun hs => hi.not_isStore hs.1
  have hk := addressOutput_kept haddr
  rw [← hk.platform] at hplace hshared
  rw [← hk.mem] at hbytes
  simp only [exec_of_isLoad hi, loadGuard_of hg hc hp hb, andThen_of_next, haddr, loadInto, hplace,
    memRead_of_unwritten a hshared hbytes, andThen_of_fault]

/-! ## Where a dual move stops -/

theorem sideAccess_of_text {old s : State} {bus : Bus} {x : Access} {pl : Place} (d : DataReg) (a : Word)
    (hd : x.dir = .store) (h : touches pl s.platform.text = true) :
    sideAccess old s bus x d a pl = .refused .storeToProgramText := by
  simp only [sideAccess, hd, memWrite_of_text _ h, andThen_of_refused]

theorem sideAccess_of_unwritten {old s : State} {bus : Bus} {x : Access} {pl : Place} (d : DataReg) (a : Word)
    (hd : x.dir = .load) (h : touches pl s.platform.shared = false)
    (hb : readBytes s.mem pl.start (placeBytes pl) = none) :
    sideAccess old s bus x d a pl = .fault (.unwrittenMemory a) := by
  simp only [sideAccess, hd, memRead_of_unwritten a h hb, andThen_of_fault]

/-- A side whose access has what it needs of its place goes through (R53, R57). -/
theorem SideAccesses.exists_next {s s1 : State} {bus : Bus} {x : Access} {pl : Place} {k v : Nat}
    (h : SideAccesses s bus x pl k v) (hk : KeptByAddress s s1) (d : DataReg) (a : Word) :
    ∃ ws t, sideAccess s s1 bus x d a pl = .next (ws, t) := by
  cases hd : x.dir with
  | load =>
    simp only [sideAccess, hd]
    rcases h.loads hd with ⟨hshared, hbytes⟩ | ⟨hshared, -⟩
    · rw [← hk.platform] at hshared
      rw [← hk.mem] at hbytes
      simp only [memRead, hshared, hbytes]
      exact ⟨_, _, rfl⟩
    · rw [← hk.platform] at hshared
      rw [memRead_of_shared a hshared]
      exact ⟨_, _, rfl⟩
  | store =>
    have htext := h.stores hd
    rw [← hk.platform] at htext
    simp only [sideAccess, hd, memWrite, htext]
    exact ⟨_, _, rfl⟩

/-- Where the places are apart or both loaded, the access of one side leaves the bytes of the other side's place. -/
theorem sideAccess_readBytes_other {old s t : State} {bus : Bus} {x y : Access} {d : DataReg} {a : Word} {px py : Place}
    {ws : List (DataReg × Data)} (h : sideAccess old s bus x d a px = .next (ws, t)) (hx : 0 < placeBytes px)
    (hy : 0 < placeBytes py) (hapart : (samePlace px py && someStore x y) = false) :
    readBytes t.mem py.start (placeBytes py) = readBytes s.mem py.start (placeBytes py) := by
  obtain ⟨c, m, rfl, rfl | ⟨hd, v, rfl⟩⟩ := sideAccess_kept h
  · rfl
  · have hstore : someStore x y = true := by simp only [someStore, hd, decide_true, Bool.true_or]
    rw [hstore, Bool.and_true] at hapart
    exact readBytes_writeBytes_other v (apart_of_samePlace hx hy hapart).symm

section
variable {s : State} {x y : Access} {dx dy : DataReg} {bx bM : RegNum} {ux uy : Update}

theorem exec_dualMove_of_dm_address_refused {r : Refusal} (h : DualAdmitted s x y dx dy bx bM)
    (hr : AddressRefused s .post x.idx s.mReg[bx] r) : exec (.dualMove x y) s = .refused r := by
  have hx : postModify s x.idx s.mReg[bx] = .refused r := addressOutput_of_refused hr
  rw [exec_of_dualAdmitted h, hx, andThen_of_refused]

theorem exec_dualMove_of_pm_address_refused {r : Refusal} (h : DualAdmitted s x y dx dy bx bM)
    (hx : SideReady s .dm x dx bx ux) (hr : AddressRefused s .post y.idx s.mReg[bM] r) :
    exec (.dualMove x y) s = .refused r := by
  have hy : postModify (noteOverflow (writeDag s .i x.idx ux.value) x.idx ux.wrapped) y.idx s.mReg[bM] = .refused r :=
    addressOutput_of_refused (hr.after _ _ (idx_ne_of_bus h.dm.onBus h.pm.onBus))
  rw [exec_of_dualAdmitted h, postModify_of hx.notReversed hx.update, andThen_of_next, hy, andThen_of_refused]

/-- A dual move whose addresses reach places apart or both loaded, as the chain of its accesses. -/
theorem exec_of_dualPlaces {px py : Place} (h : DualReady s x y dx dy bx bM ux uy)
    (hpx : dataPlace s.platform .dm (outAddr s x.idx s.iReg[x.idx]) = .next px)
    (hpy : dataPlace s.platform .pm (outAddr s y.idx s.iReg[y.idx]) = .next py)
    (hapart : (samePlace px py && someStore x y) = false) :
    exec (.dualMove x y) s =
      andThen (sideAccess s (afterDualAddresses s x y ux uy) .dm x dx (outAddr s x.idx s.iReg[x.idx]) px) fun tx =>
      andThen (sideAccess s tx.2 .pm y dy (outAddr s y.idx s.iReg[y.idx]) py) fun ty =>
      .next (advance (dualWrites ty.2 tx.1 ty.1)) := by
  simp only [exec_of_dualReady h, hpx, hpy, hapart, andThen_of_next, Bool.not_false, require_true]

/-- Once the DM side's access has gone through, the PM side's meets the platform as it was and its own bytes as they were. -/
theorem exec_of_dualPlaces_of_dm {px py : Place} {k v : Nat} (h : DualReady s x y dx dy bx bM ux uy)
    (hdm : SideAccesses s .dm x px k v)
    (hpy : dataPlace s.platform .pm (outAddr s y.idx s.iReg[y.idx]) = .next py)
    (hapart : (samePlace px py && someStore x y) = false) :
    ∃ ws t, t.platform = s.platform ∧
      readBytes t.mem py.start (placeBytes py) = readBytes s.mem py.start (placeBytes py) ∧
      exec (.dualMove x y) s =
        andThen (sideAccess s t .pm y dy (outAddr s y.idx s.iReg[y.idx]) py) fun ty =>
        .next (advance (dualWrites ty.2 ws ty.1)) := by
  have hk := afterDualAddresses_kept s x y ux uy
  obtain ⟨ws, t, ht⟩ := hdm.exists_next hk dx (outAddr s x.idx s.iReg[x.idx])
  have hbytes := sideAccess_readBytes_other ht (dataPlace_pos hdm.admitted) (dataPlace_pos hpy) hapart
  have hplatform : t.platform = (afterDualAddresses s x y ux uy).platform := by
    obtain ⟨c, m, rfl, -⟩ := sideAccess_kept ht
    rfl
  refine ⟨ws, t, hplatform.trans hk.platform, by rw [hbytes, hk.mem], ?_⟩
  rw [exec_of_dualPlaces h hdm.admitted hpy hapart, ht, andThen_of_next]

end

end Sys2Proof.Machine

namespace Sys2Proof.Proofs

open Sys2Proof.Machine

/-- Settles O9: an instruction writes whole words in canonical form, and nothing else a step does writes memory. -/
theorem stepKeepsMemoryCanonical : Obligations.StepKeepsMemoryCanonical := by
  intro s t hw h
  rcases step_next h with ⟨i, u, hi, hu⟩ | ⟨c, rfl⟩ | ⟨f, b, rfl⟩ | ⟨k, rfl⟩
  · refine exec_keepsCanonical hi ?_
    rcases hu with rfl | ⟨c, rfl⟩
    · simpa only [popEvent_mem] using hw
    · simpa only [afterCond_mem, popEvent_mem] using hw
  all_goals simpa using hw

/-- Settles O10, by what a step does when it answers. -/
theorem stepKeepsProgramAndPlatform : Obligations.StepKeepsProgramAndPlatform := by
  intro s t h
  rcases step_next h with ⟨i, u, hi, hu⟩ | ⟨c, rfl⟩ | ⟨f, b, rfl⟩ | ⟨k, rfl⟩
  · rw [(exec_program_platform hi).1, (exec_program_platform hi).2]
    rcases hu with rfl | ⟨c, rfl⟩ <;> simp
  all_goals simp

/-- Settles O5: the text stands at the program counter, and the schedule's head says that nothing arrives. -/
theorem placedTextIsFetched : Obligations.PlacedTextIsFetched := fun s text =>
  ⟨setStatement_getElem? text s.pc s.program, rfl⟩

/-- Settles O32: the read of shared storage draws a free value, which fits its word, and the load writes it as any other. -/
theorem sharedLoadCompletes : Obligations.SharedLoadCompletes := by
  intro s mode u bus ia m i a s1 pl hload hg hc hp hb haddr hplace hshared
  obtain ⟨-, hshort, hdata⟩ := dataPlace_next hplace
  have hk := addressOutput_kept haddr
  have hread := memRead_of_shared (s := s1) (pl := pl) a (by rwa [hk.platform])
  have hfree : freeValue s1 pl = freeValue s pl := by simp only [freeValue, hk.draws]
  obtain ⟨n, hv, hn, hlt⟩ := freeValue_eq s pl
  rw [hfree, hv] at hread
  refine ⟨_, exec_of_isLoad_of_memRead hload (loadGuard_of hg hc hp hb) haddr hplace hread, by simp [hk.pc],
    by simp [hk.draws], by rw [hn]; exact loadReg_holds _ _ hg hlt hshort hdata, ?_, ?_, by simp, by simp⟩
  · rintro ⟨d, rfl⟩
    simp [loadReg]
  · rintro rfl
    exact loadReg_iReg_of_not_ofDagOf _ _ _ _ hc

/-- Settles O35: the load reaches the place of the store, whose bytes read as the stored value. -/
theorem loadAfterStore : Obligations.LoadAfterStore := by
  intro s mode bus ia m i t u a s1 pl mode2 bus2 ib m2 j e s2 t2 hstore hi hload haddr hshared hj
  obtain ⟨-, hshort, hdata⟩ := dataPlace_next hstore.admitted
  have hplatform : t.platform = s.platform := (exec_program_platform hi).2
  have hk := addressOutput_kept haddr
  obtain ⟨hg, pl2, v, s3, hplace, hread, rfl⟩ := exec_isLoad_next hload haddr hj
  obtain rfl := dataPlace_bus_irrelevant hstore.admitted (hplatform ▸ hplace)
  have hv : v = BitVec.ofNat 64 (storedValue s pl2.cls u) := by
    rcases memRead_next hread with ⟨hsh, -⟩ | ⟨-, -, n, hbytes, hv⟩
    · rw [hk.platform, hplatform, hshared] at hsh; cases hsh
    · rw [hk.mem, hstore.readBytes_stored hi] at hbytes
      rw [hv, Option.some.inj hbytes]
  subst hv
  have hloaded := loadReg_holds s3 (broadcast t bus2 ib) hg (storedValue_lt s pl2 u) hshort hdata
  refine ⟨hloaded, ?_, ?_⟩
  · rintro d f rfl rfl
    obtain ⟨⟨hnamed, hpartner⟩, -⟩ := hloaded
    refine ⟨fun hc => ?_, fun hc => ?_, fun hc => ⟨?_, ?_⟩⟩
    · rw [hnamed, hc, namedValue_storedValue_normal]
    · rw [hnamed, hc, namedValue_storedValue_ext]
    · rw [hnamed, hc, namedValue_storedValue_long]
    · rw [hpartner hc, hc, partnerValue_storedValue]
  · rintro k n k2 n2 rfl rfl
    obtain ⟨⟨hnamed, -⟩, hpartner⟩ := hloaded
    refine ⟨BitVec.eq_of_toNat_eq (hnamed.trans (dagValue_storedValue s k n hshort hdata)), fun hc => ?_⟩
    refine BitVec.eq_of_toNat_eq ((hpartner hc).1.trans ?_)
    have := (readDag s k n).isLt
    simp only [hc, storedValue]
    omega

/-- Settles O59, stop by stop in the order of the chain of operations. -/
theorem accessStops : Obligations.AccessStops := by
  refine ⟨?_, ?_, ?_, ?_, ?_⟩
  · intro s mode bus ia m i u r hg hp hr hi
    obtain ⟨access, he⟩ := PassesGuard.exec_eq hi hg hp
    rw [he, addressOutput_of_refused hr, andThen_of_refused]
  · intro s x y dx dy bx bM r h
    exact ⟨exec_dualMove_of_dm_address_refused h, fun ux hx => exec_dualMove_of_pm_address_refused h hx⟩
  · intro s ia m i r hi hl hr
    rw [exec_of_isModify hi, modifyIndex_of_refused hl hr, andThen_of_refused]
  · intro s mode bus ia m i u a s1 hg hp haddr hi
    obtain ⟨access, he⟩ := PassesGuard.exec_eq hi hg hp
    rw [haddr, andThen_of_next, (addressOutput_kept haddr).platform] at he
    refine ⟨fun hadm => ?_, fun hadm hshort => ?_, fun pl hpl htext hstore => ?_, fun pl hpl hshared hbytes hload => ?_⟩
    · rw [he, dataPlace_notAdmitted hadm, andThen_of_fault]
    · rw [he, dataPlace_short hadm hshort, andThen_of_refused]
    · exact PassesGuard.store_refused hi hg hp haddr hpl htext hstore
    · exact PassesGuard.load_fault hi hg hp haddr hpl hshared hbytes hload
  · intro s x y dx dy bx bM ux uy h ax ay unwritten
    have he := exec_of_dualReady h
    have hk := afterDualAddresses_kept s x y ux uy
    refine ⟨fun hadm => ?_, fun hadm hshort => ?_, fun px hpx => ⟨fun hadm => ?_, fun hadm hshort => ?_,
      fun py hpy hapart => ⟨fun hd htext => ?_, fun hd hu => ?_, fun vx hdm => ?_⟩⟩⟩
    · rw [he, dataPlace_notAdmitted hadm, andThen_of_fault]
    · rw [he, dataPlace_short hadm hshort, andThen_of_refused]
    · rw [he, hpx, andThen_of_next, dataPlace_notAdmitted hadm, andThen_of_fault]
    · rw [he, hpx, andThen_of_next, dataPlace_short hadm hshort, andThen_of_refused]
    · rw [exec_of_dualPlaces h hpx hpy hapart, sideAccess_of_text dx _ hd (by rwa [hk.platform]), andThen_of_refused]
    · rw [exec_of_dualPlaces h hpx hpy hapart,
        sideAccess_of_unwritten dx _ hd (by rw [hk.platform]; exact hu.1) (by rw [hk.mem]; exact hu.2), andThen_of_fault]
    · obtain ⟨ws, t, hplatform, hbytes, ht⟩ := exec_of_dualPlaces_of_dm h hdm hpy hapart
      refine ⟨fun hd htext => ?_, fun hd hu => ?_⟩
      · rw [ht, sideAccess_of_text dy _ hd (by rwa [hplatform]), andThen_of_refused]
      · rw [ht, sideAccess_of_unwritten dy _ hd (by rw [hplatform]; exact hu.1) (by rw [hbytes]; exact hu.2),
          andThen_of_fault]

end Sys2Proof.Proofs
end

section
/-! Proofs of the family 30_encoding.md: the decoder reads back what the encoder writes, what a step does at text that is
no statement, the outcomes of a condition, and which instructions are refused whatever the registers and memory hold. -/

namespace Sys2Proof

/-! ## The encoder's units are well formed

Every word the encoder writes is a name, so that the lexer reads the rendered units back (`lex_render`). -/

@[simp] theorem tokOk_word (w : List Byte) : tokOk (.word w) = wordOk w := rfl

@[simp] theorem tokOk_num (v : Int) : tokOk (.num v) = true := rfl

@[simp] theorem tokOk_punctuation :
    tokOk .lpar = true ∧ tokOk .rpar = true ∧ tokOk .comma = true ∧ tokOk .equals = true ∧ tokOk .dot = true ∧
      tokOk .semi = true := by decide

@[simp] theorem tokOk_indexToken (n : RegNum) : tokOk (indexToken n) = true := wordOk_uregText (.dag .i n)

@[simp] theorem tokOk_modifyToken (n : RegNum) : tokOk (modifyToken n) = true := wordOk_uregText (.dag .m n)

@[simp] theorem tokOk_modifierToken (md : Modifier) : tokOk (modifierToken md) = true := by
  cases md with
  | reg b => exact tokOk_modifyToken b
  | imm v => rfl

theorem wordOk_fieldText (f : SysField) : wordOk (fieldText f).1 = true ∧ wordOk (fieldText f).2 = true := by
  cases f <;> decide

theorem all_tokOk_operandTokens (bus : Bus) (mode : AddrMode) (idx : RegNum) (md : Modifier) :
    (operandTokens bus mode idx md).all tokOk = true := by
  cases mode <;> simp [operandTokens, wordOk_busText]

theorem all_tokOk_loadTokens (u : Ureg) (bus : Bus) (mode : AddrMode) (idx : RegNum) (md : Modifier) :
    (loadTokens u bus mode idx md).all tokOk = true := by
  simp only [loadTokens, List.all_append, all_tokOk_operandTokens]
  simp [wordOk_uregText]

theorem all_tokOk_storeTokens (u : Ureg) (bus : Bus) (mode : AddrMode) (idx : RegNum) (md : Modifier) :
    (storeTokens u bus mode idx md).all tokOk = true := by
  simp only [storeTokens, List.all_append, all_tokOk_operandTokens]
  simp [wordOk_uregText]

theorem all_tokOk_accessTokens (bus : Bus) (a : Access) : (accessTokens bus a).all tokOk = true := by
  unfold accessTokens
  split
  · exact all_tokOk_loadTokens ..
  · exact all_tokOk_storeTokens ..

theorem all_tokOk_namedTokens {w : List Byte} {x y : Token} (hw : wordOk w = true) (hx : tokOk x = true)
    (hy : tokOk y = true) : (namedTokens w x y).all tokOk = true := by
  simp [namedTokens, hw, hx, hy]

theorem all_tokOk_bareTokens (i : Instr) : (bareTokens i).all tokOk = true := by
  cases i with
  | loadPostM | loadPostImm | loadPreM | loadPreImm => exact all_tokOk_loadTokens ..
  | storePostM | storePostImm | storePreM | storePreImm => exact all_tokOk_storeTokens ..
  | dualMove x y =>
    simp only [bareTokens, List.all_append, all_tokOk_accessTokens]
    rfl
  | modifyM | modifyImm | jumpIndirect | bitrevImm =>
    exact all_tokOk_namedTokens (by decide) (by simp) (by simp)
  | pushSts => decide
  | dagregLoadImm k n imm => simp [bareTokens, wordOk_uregText]
  | uregMove cond dst src => simp [bareTokens, moveTokens, wordOk_uregText]

theorem all_tokOk_conditionTokens (c : Cond) : (conditionTokens c).all tokOk = true := by
  have hIf : wordOk (bytesOf "IF") = true := by decide
  simp [conditionTokens, wordOk_condText, hIf]

/-- An instruction carries no condition, or is a register move with one among its operands (R114 to R117). -/
theorem Instr.bare_or_conditional (i : Instr) : i.bare = i ∨ ∃ c dst src, i = .uregMove (some c) dst src := by
  cases i with
  | uregMove cond dst src =>
    cases cond with
    | none => exact .inl rfl
    | some c => exact .inr ⟨c, dst, src, rfl⟩
  | _ => exact .inl rfl

theorem instrTokens_of_bare {i : Instr} (h : i.bare = i) : instrTokens i = bareTokens i := by
  rw [← h]
  cases i <;> rfl

theorem instrTokens_conditional (c : Cond) (dst src : Ureg) :
    instrTokens (.uregMove (some c) dst src) = conditionTokens c ++ bareTokens (.uregMove none dst src) := rfl

theorem all_tokOk_instrTokens (i : Instr) : (instrTokens i).all tokOk = true := by
  rcases i.bare_or_conditional with h | ⟨c, dst, src, rfl⟩
  · rw [instrTokens_of_bare h, all_tokOk_bareTokens]
  · rw [instrTokens_conditional, List.all_append, all_tokOk_conditionTokens, all_tokOk_bareTokens, Bool.and_self]

theorem all_tokOk_statementTokens (st : Statement) : (statementTokens st).all tokOk = true := by
  cases st with
  | instr i => exact all_tokOk_instrTokens i
  | cond c i =>
    rw [statementTokens, List.all_append, all_tokOk_conditionTokens, all_tokOk_bareTokens, Bool.and_self]
  | setField f b =>
    have hSet : wordOk (bytesOf "SETFIELD") = true := by decide
    simp [statementTokens, hSet, wordOk_fieldText]

/-! ## Parsing the encoder's units -/

/-- The units of an instruction and a semicolon parse to it; a register move keeps the condition among its operands. -/
theorem parse_instr (i : Instr) : parse (statementTokens (.instr i) ++ [.semi]) = some (.instr i) := by
  rcases i.bare_or_conditional with h | ⟨c, dst, src, rfl⟩
  · rw [statementTokens, instrTokens_of_bare h, parse_bare, h]
  · exact Laws.ParsesBack.uregMove (some c) dst src

/-- The units of a field write and a semicolon parse to it (`10_state.md` R27). -/
theorem parse_setField (f : SysField) (b : Bool) :
    parse (statementTokens (.setField f b) ++ [.semi]) = some (.setField f b) := by
  have hs : ∀ t ∈ statementTokens (.setField f b), t ≠ .semi := by simp [statementTokens]
  have hc : conditionalOf (statementTokens (.setField f b)) = none := rfl
  have hw : setFieldOf (statementTokens (.setField f b)) = some (.setField f b) := by
    cases b <;> simp [statementTokens, setFieldOf, fieldOf_fieldText]
  have hi : instructionOf (statementTokens (.setField f b)) = none := by
    simp [statementTokens, instructionOf, firstOf, pushOf, loadImmOf, moveOf, operationOf, singleOf, accessOf, dualOf]
  rw [parse, beforeSemi_append hs]
  simp only [statementOf, firstOf, hi, hc, hw, Option.map_none]

/-- The text of a statement decodes to what its units parse to. -/
theorem decode_encodeStatement {st st' : Statement} (h : parse (statementTokens st ++ [.semi]) = some st') :
    decode (encodeStatement st) = .ok st' := by
  have ok : ∀ t ∈ statementTokens st ++ [.semi], tokOk t = true := by
    rw [← List.all_eq_true, List.all_append, all_tokOk_statementTokens]
    rfl
  simp only [decode, lex, encodeStatement, lex_render _ ok, h]

end Sys2Proof

namespace Sys2Proof.Machine

/-! ## Steps at text that is no statement -/

theorem runText_of_error (ex : Instr → State → Res State) {text : List Byte} {e : Reject} (s : State)
    (h : decode text = .error e) : runText ex text s = .refused .unknownInstruction := by
  simp only [runText, h]

/-- Past the last statement the step stops (log entry 10). -/
theorem step_of_no_statement {s : State} (ha : arriving s = none) (hf : fetch s = none) :
    step s = .fault .noStatement := by
  simp only [step, stepWith, ha, runFetched, fetch_popEvent, hf]

/-! ## The outcomes of a condition -/

theorem condOutcome_cons {s : State} {o : Bool × Bool} {os : List (Bool × Bool)} (c : Cond) (h : s.condIn = o :: os) :
    condOutcome s (some c) = o := by
  simp only [condOutcome, h]

theorem condOutcome_nil {s : State} (c : Cond) (h : s.condIn = []) :
    condOutcome s (some c) = (Config.freeBit s.draws, Config.freeBit (s.draws + 1)) := by
  simp only [condOutcome, h]

theorem popCond_cons {s : State} {o : Bool × Bool} {os : List (Bool × Bool)} (c : Cond) (h : s.condIn = o :: os) :
    popCond s (some c) = { s with condIn := os } := by
  simp only [popCond, h]

theorem popCond_nil {s : State} (c : Cond) (h : s.condIn = []) :
    popCond s (some c) = { s with draws := s.draws + 2 } := by
  simp only [popCond, h]

theorem disagree_eq_false_iff {s : State} {o : Bool × Bool} :
    disagree s o = false ↔ s.mode1.peyen = false ∨ o.1 = o.2 := by
  simp only [disagree, Bool.and_eq_false_iff, bne_eq_false_iff_eq]

theorem disagree_eq_true_iff {s : State} {o : Bool × Bool} :
    disagree s o = true ↔ s.mode1.peyen = true ∧ o.1 ≠ o.2 := by
  simp [disagree]

/-- Where the elements agree about an instruction it goes ahead as condX says, and no draw is taken (D33). -/
theorem holdsFor_of_agree {s : State} {c : Cond} (h : disagree (popCond s (some c)) (condOutcome s (some c)) = false) :
    holdsFor s c = (condOutcome s (some c)).1 ∧ afterCond s c = popCond s (some c) := by
  simp [holdsFor, goesAhead, afterCond, popChoice, h]

/-- Where they do not, a free bit decides (log entry 44). -/
theorem holdsFor_of_disagree {s : State} {c : Cond}
    (h : disagree (popCond s (some c)) (condOutcome s (some c)) = true) :
    holdsFor s c = Config.freeBit (popCond s (some c)).draws ∧
      afterCond s c = { popCond s (some c) with draws := (popCond s (some c)).draws + 1 } := by
  simp [holdsFor, goesAhead, afterCond, popChoice, h]

/-! ## Immediates that do not fit -/

theorem immediate_of_wide {w : Nat} {v : Int} (h : immFits w v = false) :
    immediate w v = .refused .immediateTooWide := by
  simp only [immediate, h, require_false, andThen_of_refused]

/-- With the index register of the bus's DAG, an immediate that does not fit refuses the memory operand (R64, R71). -/
theorem operand_of_wide (s : State) {bus : Bus} {ia : RegNum} {w : Nat} {v : Int} (hd : dagOf ia = dagOfBus bus)
    (h : immFits w v = false) : operand s bus ia w (.imm v) = .refused .immediateTooWide := by
  simp [operand_imm, hd, h]

/-- A load is refused for what its operand is refused for, before any other check (log entry 18). -/
theorem loadForm_of_operand_refused {mode : AddrMode} {u : Ureg} {bus : Bus} {ia : RegNum} {md : Modifier} {w : Nat}
    {s : State} {r : Refusal} (h : operand s bus ia w md = .refused r) :
    loadForm mode u bus ia md w s = .refused r := by
  rw [loadForm, h, andThen_of_refused]

/-- A store is refused for what its operand is refused for, before any other check (log entry 18). -/
theorem storeForm_of_operand_refused {mode : AddrMode} {u : Ureg} {bus : Bus} {ia : RegNum} {md : Modifier} {w : Nat}
    {s : State} {r : Refusal} (h : operand s bus ia w md = .refused r) :
    storeForm mode u bus ia md w s = .refused r := by
  rw [storeForm, h, andThen_of_refused]

theorem execModifyImm_of_wide {ia : RegNum} {imm : Int} {s : State}
    (h : immFits s.platform.immWidth.modify imm = false) :
    execModifyImm ia imm s = .refused .immediateTooWide := by
  rw [execModifyImm, modifyValue, immediate_of_wide h, andThen_of_refused]

theorem execBitrevImm_of_wide {ia : RegNum} {imm : Int} {s : State}
    (h : immFits s.platform.immWidth.bitrev imm = false) :
    execBitrevImm ia imm s = .refused .immediateTooWide := by
  rw [execBitrevImm, immediate_of_wide h, andThen_of_refused]

theorem execDagregLoadImm_of_wide {k : DagKind} {n : RegNum} {imm : Int} {s : State}
    (h : immFits s.platform.immWidth.loadImm imm = false) :
    execDagregLoadImm k n imm s = .refused .immediateTooWide := by
  rw [execDagregLoadImm, immediate_of_wide h, andThen_of_refused]

/-! ## Forms that are refused

The checks of a form answer a next state or a refusal, never a fault, so a form with operands they do not all pass is
refused. -/

/-- The answer is a refusal. -/
def IsRefused {α : Type} (o : Res α) : Prop := ∃ r, o = .refused r

/-- The answer is no fault. -/
def NoFault {α : Type} (o : Res α) : Prop := ∀ r, o ≠ .fault r

theorem IsRefused.of_refused {α : Type} (r : Refusal) : IsRefused (.refused r : Res α) := ⟨r, rfl⟩

theorem NoFault.of_next {α : Type} (a : α) : NoFault (.next a : Res α) := nofun

theorem NoFault.of_refused {α : Type} (r : Refusal) : NoFault (.refused r : Res α) := nofun

theorem andThen_noFault {α β : Type} {o : Res α} {f : α → Res β} (ho : NoFault o) (hf : ∀ a, NoFault (f a)) :
    NoFault (andThen o f) := by
  cases o with
  | next a => exact hf a
  | fault r => exact absurd rfl (ho r)
  | refused r => exact NoFault.of_refused r

/-- A chain whose first link cannot fault is refused where every value the link may answer leads to a refusal. -/
theorem andThen_isRefused {α β : Type} {o : Res α} {f : α → Res β} (ho : NoFault o)
    (hf : ∀ a, o = .next a → IsRefused (f a)) : IsRefused (andThen o f) := by
  cases o with
  | next a => exact hf a rfl
  | fault r => exact absurd rfl (ho r)
  | refused r => exact IsRefused.of_refused r

theorem require_noFault {c : Bool} {r : Refusal} : NoFault (require c r) := by
  cases c
  · exact NoFault.of_refused r
  · exact NoFault.of_next ()

theorem operand_noFault {s : State} {bus : Bus} {ia : RegNum} {w : Nat} {md : Modifier} :
    NoFault (operand s bus ia w md) := by
  refine andThen_noFault require_noFault fun _ => ?_
  cases md with
  | reg b => exact andThen_noFault require_noFault fun _ => .of_next _
  | imm v => exact andThen_noFault require_noFault fun _ => .of_next _

theorem loadGuard_noFault {s : State} {mode : AddrMode} {bus : Bus} {ia : RegNum} {u : Ureg} :
    NoFault (loadGuard s mode bus ia u) :=
  andThen_noFault require_noFault fun _ => andThen_noFault require_noFault fun _ =>
    andThen_noFault require_noFault fun _ => require_noFault

theorem storeGuard_noFault {s : State} {ia : RegNum} {u : Ureg} : NoFault (storeGuard s ia u) :=
  andThen_noFault require_noFault fun _ => andThen_noFault require_noFault fun _ => require_noFault

theorem sideOperands_noFault {a : Access} : NoFault (sideOperands a) := by
  unfold sideOperands
  split
  · exact .of_next _
  · exact .of_refused _

/-! ## Operand classes and `skippable`

The checks read the numbers by `dagOf`, the operand classes by `RegNum.inDag1`. -/

theorem inDag1_eq (n : RegNum) : n.inDag1 = decide (dagOf n = .dag1) := rfl

theorem takes_of_dagOf {bus : Bus} {ia : RegNum} (h : dagOf ia = dagOfBus bus) : bus.takes ia = true := by
  cases bus <;> simp only [Bus.takes, inDag1_eq, h] <;> rfl

theorem sameDag_of_dagOf {a b : RegNum} (h : dagOf b = dagOf a) : a.sameDag b = true := by
  simp only [RegNum.sameDag, inDag1_eq, h, beq_self_eq_true]

theorem skippable_modifyM (s : State) (ia mb : RegNum) : skippable s (.modifyM ia mb) = ia.sameDag mb := by
  simp [skippable, Instr.wellFormed, immediateFits, meant]

theorem skippable_modifyImm (s : State) (ia : RegNum) (imm : Int) :
    skippable s (.modifyImm ia imm) = immFits s.platform.immWidth.modify imm := by
  simp [skippable, Instr.wellFormed, immediateFits, meant]

theorem skippable_bitrevImm (s : State) (ia : RegNum) (imm : Int) :
    skippable s (.bitrevImm ia imm) = immFits s.platform.immWidth.bitrev imm := by
  simp [skippable, Instr.wellFormed, immediateFits, meant]

theorem skippable_dagregLoadImm (s : State) (k : DagKind) (n : RegNum) (imm : Int) :
    skippable s (.dagregLoadImm k n imm) = immFits s.platform.immWidth.loadImm imm := by
  simp [skippable, Instr.wellFormed, immediateFits, meant]

theorem skippable_uregMove (s : State) (c : Option Cond) (dst src : Ureg) :
    skippable s (.uregMove c dst src) = dst.moveOperands src := by
  simp [skippable, Instr.wellFormed, immediateFits, meant]

theorem skippable_dualMove (s : State) (x y : Access) :
    skippable s (.dualMove x y) = (x.dualSide .dm && y.dualSide .pm && x.distinctLoads y && !s.mode1.peyen) := by
  simp [skippable, Instr.wellFormed, immediateFits, meant]

/-- The operands of a single load or store are of their classes (R66, R71). -/
def accessClasses (u : Ureg) (bus : Bus) (ia : RegNum) : Modifier → Bool
  | .reg b => u.given && bus.takes ia && ia.sameDag b
  | .imm _ => u.given && bus.takes ia

/-- An immediate modifier fits the width of its form (R64). -/
def modifierFits (w : Nat) : Modifier → Bool
  | .reg _ => true
  | .imm v => immFits w v

/-- A single load or store that a condition may pass over: it has a meaning with SIMD mode disabled alone (R111). -/
def accessSkippable (s : State) (u : Ureg) (bus : Bus) (ia : RegNum) (md : Modifier) (w : Nat) : Bool :=
  accessClasses u bus ia md && modifierFits w md && !s.mode1.peyen

theorem accessSkippable_of_checks {s : State} {u : Ureg} {bus : Bus} {ia : RegNum} {md : Modifier} {w : Nat} {m : Word}
    (ho : operand s bus ia w md = .next m) (hg : isGiven u = true) (hp : s.mode1.peyen = false) :
    accessSkippable s u bus ia md w = true := by
  have hu : u.given = true := by cases u <;> exact hg
  obtain ⟨hd, ⟨b, rfl, hb, -⟩ | ⟨v, rfl, hv, -⟩⟩ := operand_next ho
  · simp [accessSkippable, accessClasses, modifierFits, hu, hp, takes_of_dagOf hd, sameDag_of_dagOf hb]
  · simp [accessSkippable, accessClasses, modifierFits, hu, hp, takes_of_dagOf hd, hv]

theorem loadForm_isRefused {mode : AddrMode} {u : Ureg} {bus : Bus} {ia : RegNum} {md : Modifier} {w : Nat} {s : State}
    (h : accessSkippable s u bus ia md w = false) : IsRefused (loadForm mode u bus ia md w s) := by
  refine andThen_isRefused operand_noFault fun m hm => ?_
  refine andThen_isRefused loadGuard_noFault fun _ hg => ?_
  obtain ⟨hu, -, hp, -⟩ := loadGuard_next hg
  exact absurd (accessSkippable_of_checks hm hu hp) (by simp [h])

theorem storeForm_isRefused {mode : AddrMode} {u : Ureg} {bus : Bus} {ia : RegNum} {md : Modifier} {w : Nat} {s : State}
    (h : accessSkippable s u bus ia md w = false) : IsRefused (storeForm mode u bus ia md w s) := by
  refine andThen_isRefused operand_noFault fun m hm => ?_
  refine andThen_isRefused storeGuard_noFault fun _ hg => ?_
  obtain ⟨hu, -, hp⟩ := storeGuard_next hg
  exact absurd (accessSkippable_of_checks hm hu hp) (by simp [h])

theorem dualSide_of_checks {s : State} {bus : Bus} {a : Access} {o : DataReg × RegNum} {m : Word}
    (hs : sideOperands a = .next o) (ho : operand s bus a.idx 0 (.reg o.2) = .next m) : a.dualSide bus = true := by
  obtain ⟨hr, hm, hb⟩ := sideOperands_next hs
  obtain ⟨hd, ⟨b, hb', hdb, -⟩ | ⟨v, hv, -⟩⟩ := operand_next ho
  · cases hb'
    simp [Access.dualSide, hr, hm, hb, takes_of_dagOf hd, sameDag_of_dagOf hdb]
  · cases hv

theorem execDualMove_isRefused {x y : Access} {s : State} (h : skippable s (.dualMove x y) = false) :
    IsRefused (execDualMove x y s) := by
  refine andThen_isRefused sideOperands_noFault fun ox hx => ?_
  refine andThen_isRefused sideOperands_noFault fun oy hy => ?_
  refine andThen_isRefused operand_noFault fun mx hmx => ?_
  refine andThen_isRefused operand_noFault fun my hmy => ?_
  refine andThen_isRefused require_noFault fun _ hp => ?_
  refine andThen_isRefused require_noFault fun _ hd => ?_
  have hs : skippable s (.dualMove x y) = true := by
    have hl : x.distinctLoads y = true := require_next.mp hd
    simp only [skippable_dualMove, dualSide_of_checks hx hmx, dualSide_of_checks hy hmy, hl, require_next.mp hp,
      Bool.and_self]
  exact absurd hs (by simp [h])

theorem execModifyM_isRefused {ia mb : RegNum} {s : State} (h : skippable s (.modifyM ia mb) = false) :
    IsRefused (execModifyM ia mb s) := by
  have hd : dagOf mb ≠ dagOf ia := fun hd => by
    rw [skippable_modifyM, sameDag_of_dagOf hd] at h
    cases h
  exact ⟨.wrongDag, by simp [execModifyM, modifyValue, hd]⟩

theorem sRegMove_isRefused (s : State) : IsRefused (sRegMove s) := by
  unfold sRegMove
  split <;> exact .of_refused _

theorem moveEffect_isRefused (s : State) (o : Bool × Bool) :
    ∀ {dst src : Ureg}, dst.moveOperands src = false → IsRefused (moveEffect s o dst src)
  | .sys _, _, _ => .of_refused .uregNotModelled
  | u, .sys q, _ => ⟨_, moveEffect_sys_src s o u q⟩
  | .data d, .data e, _ => ⟨_, moveEffect_data_data s o d e⟩
  | .dag _ _, .data (.s _), _ => sRegMove_isRefused s
  | .data (.s _), .dag _ _, _ => sRegMove_isRefused s

theorem execUregMove_isRefused {c : Option Cond} {dst src : Ureg} {s : State} (h : dst.moveOperands src = false) :
    IsRefused (execUregMove c dst src s) := by
  obtain ⟨r, hr⟩ := moveEffect_isRefused (popCond s c) (condOutcome s c) h
  exact ⟨r, exec_uregMove_of_refused hr⟩

/-- An instruction that a condition may not pass over is refused (log entry 44). -/
theorem exec_isRefused_of_not_skippable {i : Instr} {s : State} (h : skippable s i = false) : IsRefused (exec i s) := by
  cases i with
  | loadPostM u bus ia mb => exact loadForm_isRefused h
  | storePostM bus ia mb u => exact storeForm_isRefused h
  | loadPostImm u bus ia imm => exact loadForm_isRefused h
  | storePostImm bus ia imm u => exact storeForm_isRefused h
  | loadPreM u bus mb ia => exact loadForm_isRefused h
  | storePreM bus mb ia u => exact storeForm_isRefused h
  | loadPreImm u bus imm ia => exact loadForm_isRefused h
  | storePreImm bus imm ia u => exact storeForm_isRefused h
  | dualMove x y => exact execDualMove_isRefused h
  | modifyM ia mb => exact execModifyM_isRefused h
  | modifyImm ia imm => exact ⟨_, execModifyImm_of_wide (by rwa [skippable_modifyImm] at h)⟩
  | jumpIndirect md ic => exact .of_refused .controlTransferNotInSource
  | pushSts => cases h
  | bitrevImm ia imm => exact ⟨_, execBitrevImm_of_wide (by rwa [skippable_bitrevImm] at h)⟩
  | dagregLoadImm k n imm => exact ⟨_, execDagregLoadImm_of_wide (by rwa [skippable_dagregLoadImm] at h)⟩
  | uregMove c dst src => exact execUregMove_isRefused (by rwa [skippable_uregMove] at h)

theorem skippable_of_not_wellFormed {i : Instr} (s : State) (h : i.wellFormed = false) : skippable s i = false := by
  simp only [skippable, h, Bool.false_and]

end Sys2Proof.Machine

namespace Sys2Proof.Proofs

open Sys2Proof.Machine

/-- Settles O1: the lexer reads the rendered units back, and they parse to their statement. -/
theorem textRoundTrip : Obligations.TextRoundTrip :=
  ⟨fun i => decode_encodeStatement (parse_instr i), fun f b => decode_encodeStatement (parse_setField f b),
    fun c i => decode_encodeStatement (parse_cond c i)⟩

/-- Settles O16: an ill-formed instruction is one that no condition passes over, and each of these fails a check that
refuses it. -/
theorem illFormedIsRefused : Obligations.IllFormedIsRefused := fun _ s =>
  ⟨fun h => exec_isRefused_of_not_skippable (skippable_of_not_wellFormed s h), exec_isRefused_of_not_skippable⟩

/-- Settles O2, text by text: the decoder runs on each. -/
theorem specTextsDecode : Obligations.SpecTextsDecode := by
  refine ⟨?_, ?_, ?_, ?_, ?_, ?_, ?_, ?_, ?_, ?_, ?_, ?_⟩ <;> decide

/-- Settles O4: a text that is no statement is refused by name, and past the program there is no text. -/
theorem stepStopsOnOtherText : Obligations.StepStopsOnOtherText := fun s ha =>
  ⟨fun _ _ hf hd => (step_eq_runText ha hf).trans (runText_of_error exec (popEvent s) hd), step_of_no_statement ha⟩

/-- Settles O53, by whether an input is waiting and whether the elements disagree. -/
theorem conditionOutcome : Obligations.ConditionOutcome := by
  refine fun s => ⟨rfl, rfl, fun c => ⟨fun o os h => ⟨condOutcome_cons c h, popCond_cons c h⟩,
    fun h => ⟨condOutcome_nil c h, popCond_nil c h⟩, fun h => ?_, fun hp ho => ?_⟩⟩
  · exact holdsFor_of_agree (disagree_eq_false_iff.mpr (by rwa [popCond_mode1]))
  · exact holdsFor_of_disagree (disagree_eq_true_iff.mpr ⟨by rwa [popCond_mode1], ho⟩)

/-- Settles O56: the operand of a load or store, and the immediate of MODIFY and BITREV, come before every other check. -/
theorem wideImmediateRefused : Obligations.WideImmediateRefused := fun s _ _ _ _ hd =>
  ⟨fun h => loadForm_of_operand_refused (operand_of_wide s hd h),
    fun h => storeForm_of_operand_refused (operand_of_wide s hd h),
    fun h => loadForm_of_operand_refused (operand_of_wide s hd h),
    fun h => storeForm_of_operand_refused (operand_of_wide s hd h),
    execModifyImm_of_wide, execBitrevImm_of_wide⟩

end Sys2Proof.Proofs
end

section
/-! Proofs of the family 40_address_output_modify.md: what an address output computes, where loads, stores and dual moves are
refused for their operands, and what loads, stores, dual moves and MODIFY write and leave as it was. -/

namespace Sys2Proof.Machine

/-! ## Frames in sequence -/

theorem readDag_congr {s t : State} (hi : t.iReg = s.iReg) (hm : t.mReg = s.mReg) (hl : t.lReg = s.lReg)
    (hb : t.bReg = s.bReg) (k : DagKind) (n : RegNum) : readDag t k n = readDag s k n := by
  simp only [readDag, hi, hm, hl, hb]

theorem readData_congr {s t : State} (hr : t.rReg = s.rReg) (hs : t.sReg = s.sReg) (d : DataReg) :
    readData t d = readData s d := by
  simp only [readData, hr, hs]

theorem SameDagBut.trans_eq {s t u : State} {touched : DagKind → RegNum → Prop} (h : SameDagBut s t touched)
    (he : ∀ k n, readDag u k n = readDag t k n) : SameDagBut s u touched :=
  fun k n => (h k n).imp_right (he k n).trans

theorem SameDagBut.trans {s t u : State} {p q : DagKind → RegNum → Prop} (h : SameDagBut s t p) (h2 : SameDagBut t u q) :
    SameDagBut s u fun k n => p k n ∨ q k n := fun k n =>
  (h k n).elim (fun hp => .inl (.inl hp)) fun he => (h2 k n).imp .inr fun he2 => he2.trans he

theorem SameDagBut.mono {s t : State} {p q : DagKind → RegNum → Prop} (h : SameDagBut s t p)
    (hpq : ∀ k n, p k n → q k n) : SameDagBut s t q :=
  fun k n => (h k n).imp_left (hpq k n)

theorem SameOverflow.trans_eq {s t u : State} {mayWrap : RegNum → Prop} (h : SameOverflow s t mayWrap)
    (he : OverflowOf t u) : SameOverflow s u mayWrap := by
  simpa only [SameOverflow, he.1, he.2] using h

theorem SameOverflow.mono {s t : State} {p q : RegNum → Prop} (h : SameOverflow s t p) (hpq : ∀ n, p n → q n) :
    SameOverflow s t q :=
  ⟨h.1.imp_left (hpq 7), h.2.imp_left (hpq 15)⟩

theorem OverflowSetBy.trans {s t u : State} {p7 p15 q7 q15 : Prop} (h : OverflowSetBy s t p7 p15)
    (h2 : OverflowSetBy t u q7 q15) : OverflowSetBy s u (p7 ∨ q7) (p15 ∨ q15) := by
  obtain ⟨ha, hb, hc, hd⟩ := h
  obtain ⟨ha2, hb2, hc2, hd2⟩ := h2
  exact ⟨by rw [ha2, ha, or_assoc], by rw [hb2, hb, or_assoc], by rw [hc2, hc, or_assoc], by rw [hd2, hd, or_assoc]⟩

theorem OverflowSetBy.of_iff {s t : State} {p7 p15 q7 q15 : Prop} (h : OverflowSetBy s t p7 p15) (h7 : p7 ↔ q7)
    (h15 : p15 ↔ q15) : OverflowSetBy s t q7 q15 := by
  simpa only [OverflowSetBy, h7, h15] using h

theorem OverflowSetBy.trans_eq {s t u : State} {p7 p15 : Prop} (h : OverflowSetBy s t p7 p15) (he : OverflowOf t u) :
    OverflowSetBy s u p7 p15 := by
  simpa only [OverflowSetBy, he.1, he.2] using h

/-- A status bit set by a wrap alone is as it was where no wrap may be. -/
theorem OverflowSetBy.sameOverflow {s t : State} {p7 p15 : Prop} {mayWrap : RegNum → Prop} (h : OverflowSetBy s t p7 p15)
    (h7 : p7 → mayWrap 7) (h15 : p15 → mayWrap 15) : SameOverflow s t mayWrap := by
  obtain ⟨ha, hb, hc, hd⟩ := h
  constructor
  · by_cases hp : p7
    · exact .inl (h7 hp)
    · simp only [hp, or_false] at ha hb
      exact .inr ⟨Bool.eq_iff_iff.mpr ha, Bool.eq_iff_iff.mpr hb⟩
  · by_cases hp : p15
    · exact .inl (h15 hp)
    · simp only [hp, or_false] at hc hd
      exact .inr ⟨Bool.eq_iff_iff.mpr hc, Bool.eq_iff_iff.mpr hd⟩

/-! ## The update of an index register by post-modify -/

theorem noteOverflow_setBy (s : State) (n : RegNum) (w : Bool) :
    OverflowSetBy s (noteOverflow s n w) (n = 7 ∧ w = true) (n = 15 ∧ w = true) := by
  cases w with
  | false => simp [OverflowSetBy, noteOverflow]
  | true =>
    by_cases h7 : n = 7
    · subst h7; simp [OverflowSetBy, noteOverflow]
    · by_cases h15 : n = 15
      · subst h15; simp [OverflowSetBy, noteOverflow]
      · simp [OverflowSetBy, noteOverflow, h7, h15]

/-- The overflow status after the update of I[n]: a wrap of I7 or I15 is reported (R99). -/
theorem overflowSetBy_after (s : State) (n : RegNum) (v : Word) (w : Bool) :
    OverflowSetBy s (noteOverflow (writeDag s .i n v) n w) (n = 7 ∧ w = true) (n = 15 ∧ w = true) := by
  simpa only [OverflowSetBy, writeDag_stkyx, writeDag_latch] using noteOverflow_setBy (writeDag s .i n v) n w

theorem iReg_after_same (s : State) (n : RegNum) (v : Word) (w : Bool) :
    (noteOverflow (writeDag s .i n v) n w).iReg[n] = v := by
  simp only [noteOverflow_iReg, writeDag, get_set, if_true]

theorem writeDag_i_sameDagBut (s : State) (n : RegNum) (v : Word) :
    SameDagBut s (writeDag s .i n v) fun k j => k = .i ∧ j = n := by
  intro k j
  by_cases h : k = .i ∧ j = n
  · exact .inl h
  · exact .inr (readDag_writeDag_other v (not_and_or.mp h) nofun)

theorem sameDagBut_after (s : State) (n : RegNum) (v : Word) (w : Bool) :
    SameDagBut s (noteOverflow (writeDag s .i n v) n w) fun k j => k = .i ∧ j = n :=
  (writeDag_i_sameDagBut s n v).trans_eq (readDag_congr (noteOverflow_iReg _ n w) (noteOverflow_mReg _ n w)
    (noteOverflow_lReg _ n w) (noteOverflow_bReg _ n w))

/-- An update of an index register wraps with circular buffering in force alone (R90, R93). -/
theorem nextIndex_wrapped {s : State} {n : RegNum} {m : Word} {c : Bool} {u : Update} (h : nextIndex s n m c = .next u)
    (hw : u.wrapped = true) : c = true := by
  cases c with
  | true => rfl
  | false => cases h; cases hw

theorem nextIndex_plain (s : State) (n : RegNum) (m : Word) :
    nextIndex s n m false = .next { value := s.iReg[n] + m, wrapped := false } := by
  rw [← addIndex_eq]; rfl

/-- Putting an address out changes I[n] of a post-modify alone among the DAG registers (R72, R73). -/
theorem addressOutput_sameDagBut {s t : State} {mode : AddrMode} {n : RegNum} {m a : Word}
    (h : addressOutput mode s n m = .next (a, t)) : SameDagBut s t fun k j => mode = .post ∧ k = .i ∧ j = n := by
  rcases addressOutput_next h with ⟨-, rfl⟩ | ⟨rfl, v, w, rfl⟩
  · exact fun _ _ => .inr rfl
  · exact (sameDagBut_after s n v w).mono fun _ _ hk => ⟨rfl, hk⟩

/-- Putting an address out changes the overflow status of I[n] of a post-modify with circular buffering in force alone
(R99). -/
theorem addressOutput_sameOverflow {s t : State} {mode : AddrMode} {n : RegNum} {m a : Word}
    (h : addressOutput mode s n m = .next (a, t)) :
    SameOverflow s t fun k => mode = .post ∧ k = n ∧ circLS s n = true := by
  cases mode with
  | pre =>
    obtain ⟨-, -, rfl⟩ := preModify_next h
    exact ⟨.inr ⟨rfl, rfl⟩, .inr ⟨rfl, rfl⟩⟩
  | post =>
    obtain ⟨-, -, u, hu, rfl⟩ := postModify_next h
    exact (overflowSetBy_after s n u.value u.wrapped).sameOverflow
      (fun ⟨hn, hw⟩ => ⟨rfl, hn.symm, nextIndex_wrapped hu hw⟩) (fun ⟨hn, hw⟩ => ⟨rfl, hn.symm, nextIndex_wrapped hu hw⟩)

/-! ## The circular update in numbers -/

theorem corrected_eq_circularValue (cur base len m : Word) :
    corrected base.toNat len.toNat (sval m) (cur.toNat + sval m) = circularValue cur base len m := by
  have hin : inBuffer base.toNat len.toNat (cur.toNat + m.toInt) = true ↔
      (base.toNat : Int) ≤ cur.toNat + m.toInt ∧ (cur.toNat : Int) + m.toInt < base.toNat + len.toNat := by
    simp only [inBuffer, Bool.and_eq_true, decide_eq_true_eq]
  unfold corrected circularValue sval
  rw [if_congr hin rfl rfl]
  split_ifs <;> omega

/-- On its domain the circular value lies in the buffer (R90, R94). -/
theorem circularValue_inBuffer {cur base len m : Word} (h : CircularDomain cur base len m) :
    (base.toNat : Int) ≤ circularValue cur base len m ∧ circularValue cur base len m < base.toNat + len.toNat := by
  obtain ⟨-, -, hlow, hhigh, hneg, hpos⟩ := h
  unfold circularValue
  split_ifs <;> omega

/-- What the circular update answers on its domain: the circular value, with a wrap where that is not the sum (R90). -/
def circularUpdate (cur base len m : Word) : Update where
  value := BitVec.ofInt 32 (circularValue cur base len m)
  wrapped := decide (circularValue cur base len m ≠ cur.toNat + m.toInt)

theorem circularNext_of_domain {cur base len m : Word} (h : CircularDomain cur base len m) :
    circularNext cur base len m = .next (circularUpdate cur base len m) := by
  have hvalue : inBuffer base.toNat len.toNat (circularValue cur base len m) = true := by
    simpa only [inBuffer, Bool.and_eq_true, decide_eq_true_eq] using circularValue_inBuffer h
  obtain ⟨hlen, htop, hlow, hhigh, -⟩ := h
  have hcur : inBuffer base.toNat len.toNat cur.toNat = true := by
    simp only [inBuffer, Bool.and_eq_true, decide_eq_true_eq]; omega
  simp only [circularNext, corrected_eq_circularValue, hlen, htop, hcur, hvalue, decide_true, require_true, andThen_of_next]
  rfl

theorem circularUpdate_toNat {cur base len m : Word} (h : CircularDomain cur base len m) :
    ((circularUpdate cur base len m).value.toNat : Int) = circularValue cur base len m := by
  obtain ⟨hlow, hhigh⟩ := circularValue_inBuffer h
  obtain ⟨-, htop, -⟩ := h
  rw [circularUpdate, BitVec.toNat_ofInt]
  omega

/-! ## The frames of a load and a store -/

theorem KeptByAddress.readData_eq {s t : State} (h : KeptByAddress s t) (d : DataReg) : readData t d = readData s d :=
  readData_congr h.rReg h.sReg d

theorem dataPlace_cls {p : Platform} {bus : Bus} {a : Word} {pl : Place} (h : dataPlace p bus a = .next pl) :
    pl.cls = wordClass p a := by
  obtain ⟨-, r, hr, rfl⟩ := place_next (dataPlace_next h).1
  simp only [wordClass, hr, placeIn]

theorem memRead_of_written {s : State} {pl : Place} {v : Nat} (a : Word) (h : touches pl s.platform.shared = false)
    (hv : readBytes s.mem pl.start (placeBytes pl) = some v) : memRead s a pl = .next (BitVec.ofNat 64 v, s) := by
  simp only [memRead, h, hv]; rfl

theorem lt_two_pow_64_of_lt {pl : Place} {v : Nat} (h : v < 256 ^ placeBytes pl) : v < 2 ^ 64 := by
  refine h.trans_le ?_
  unfold placeBytes wordBytes; cases pl.cls <;> norm_num

/-- A load changes no data register but its destinations (R85, R105). -/
theorem loadWrites_sameDataBut (s : State) (c : WordClass) (d : DataReg) (v : Long) (b : Bool) :
    SameDataBut s (writeAll s (loadWrites c d v b)) (IsLoadDest c b d) := fun e => by
  by_cases h : IsLoadDest c b d e
  · exact .inl h
  · exact .inr (readData_writeAll_of_not_mem fun x hx => h (loadWrites_dest hx))

/-- What a store that completes has written, its address being given. -/
theorem exec_isStore_next {s s1 t : State} {mode : AddrMode} {u : Ureg} {bus : Bus} {ia : RegNum} {m a : Word} {i : Instr}
    {pl : Place} (h : IsStore s mode u bus ia m i) (haddr : addressOutput mode s ia m = .next (a, s1))
    (hplace : dataPlace s.platform bus a = .next pl) (hi : exec i s = .next t) :
    t = advance { s1 with
      mem := writeBytes s1.mem pl.start (placeBytes pl) (storeWord s pl.cls u).toNat } := by
  simp only [exec_of_isStore h, haddr, andThen_of_next, storeFrom, (addressOutput_kept haddr).platform, hplace, andThen_next,
    Host.Outcome.next.injEq] at hi
  obtain ⟨-, -, u, hwrite, rfl⟩ := hi
  rw [(memWrite_next hwrite).2]

/-! ## MODIFY -/

theorem modifyIndex_plain {s : State} {n : RegNum} (m : Word) (h : s.lReg[n] = 0) :
    modifyIndex s n m = .next (writeDag s .i n (s.iReg[n] + m)) := by
  have hcirc : circMOD s n = false := by simp [circMOD, h]
  rw [modifyIndex, hcirc, nextIndex_plain]
  simp [noteModifyOverflow]

/-- MODIFY touches the overflow status for a wrap of I7 or I15 alone (R99). -/
theorem noteModifyOverflow_sameOverflow (s : State) (n : RegNum) (w : Bool) :
    SameOverflow s (noteModifyOverflow s n w) fun k => k = n ∧ w = true := by
  cases w with
  | false => exact ⟨.inr ⟨rfl, rfl⟩, .inr ⟨rfl, rfl⟩⟩
  | true =>
    by_cases h7 : n = 7
    · subst h7; simp [SameOverflow, noteModifyOverflow]
    · by_cases h15 : n = 15
      · subst h15; simp [SameOverflow, noteModifyOverflow]
      · simp [SameOverflow, noteModifyOverflow, h7, h15]

theorem modifyIndex_sameDagBut {s u : State} {n : RegNum} {m : Word} (h : modifyIndex s n m = .next u) :
    SameDagBut s u fun k j => k = .i ∧ j = n := by
  obtain ⟨v, -, rfl⟩ := modifyIndex_next h
  exact (writeDag_i_sameDagBut s n v.value).trans_eq (readDag_congr (noteModifyOverflow_iReg _ n _)
    (noteModifyOverflow_mReg _ n _) (noteModifyOverflow_lReg _ n _) (noteModifyOverflow_bReg _ n _))

theorem modifyIndex_sameOverflow {s u : State} {n : RegNum} {m : Word} (h : modifyIndex s n m = .next u) :
    SameOverflow s u fun k => k = n ∧ s.lReg[n] ≠ 0 := by
  obtain ⟨v, hv, rfl⟩ := modifyIndex_next h
  have hl : v.wrapped = true → s.lReg[n] ≠ 0 := fun hw => of_decide_eq_true (nextIndex_wrapped hv hw)
  refine SameOverflow.mono ?_ fun _ => And.imp_right hl
  simpa only [SameOverflow, writeDag_stkyx, writeDag_latch] using
    noteModifyOverflow_sameOverflow (writeDag s .i n v.value) n v.wrapped

/-! ## Registers of the wrong DAG -/

theorem operand_of_wrong_index (s : State) {bus : Bus} {ia : RegNum} (w : Nat) (md : Modifier)
    (h : dagOf ia ≠ dagOfBus bus) : operand s bus ia w md = .refused .wrongDag := by
  simp [operand, indexOnBus, h]

theorem operand_of_wrong_modify (s : State) (bus : Bus) {ia mb : RegNum} (w : Nat) (h : dagOf mb ≠ dagOf ia) :
    operand s bus ia w (.reg mb) = .refused .wrongDag := by
  rw [operand_reg, if_neg fun hd => h hd.2]

theorem operand_of_dagOf (s : State) {bus : Bus} {ia mb : RegNum} (w : Nat) (hi : dagOf ia = dagOfBus bus)
    (hm : dagOf mb = dagOf ia) : operand s bus ia w (.reg mb) = .next s.mReg[mb] := by
  rw [operand_reg, if_pos ⟨hi, hm⟩]

theorem execModifyM_of_wrong_modify {ia mb : RegNum} (s : State) (h : dagOf mb ≠ dagOf ia) :
    execModifyM ia mb s = .refused .wrongDag := by
  simp [execModifyM, modifyValue, h]

/-! ## The sides of a dual move -/

theorem sideOperands_of {a : Access} {d : DataReg} {b : RegNum} (hr : a.reg = .data d) (hm : a.mode = .post)
    (hb : a.modifier = .reg b) : sideOperands a = .next (d, b) := by
  simp only [sideOperands, hr, hm, hb]

/-- A side that is pre-modify, by an immediate or not of a data register is no admitted variant (R82, D15). -/
theorem sideOperands_of_variant {a : Access} (h : a.mode = .pre ∨ (∃ v, a.modifier = .imm v) ∨ ∀ d, a.reg ≠ .data d) :
    sideOperands a = .refused .dualMoveVariant := by
  unfold sideOperands
  split
  · next d b hr hm hb =>
    rcases h with h | ⟨v, h⟩ | h
    · rw [hm] at h; cases h
    · rw [hb] at h; cases h
    · exact absurd hr (h d)
  · rfl

/-- A dual move of the admitted variant is refused for the DM side's registers first, then for the PM side's (log entry 18). -/
theorem exec_dualMove_of_operand_refused {x y : Access} {s : State} {ox oy : DataReg × RegNum} (hx : sideOperands x = .next ox)
    (hy : sideOperands y = .next oy) {r : Refusal}
    (h : operand s .dm x.idx 0 (.reg ox.2) = .refused r ∨
      (∃ m, operand s .dm x.idx 0 (.reg ox.2) = .next m) ∧ operand s .pm y.idx 0 (.reg oy.2) = .refused r) :
    exec (.dualMove x y) s = .refused r := by
  rcases h with h | ⟨⟨m, hm⟩, h⟩
  · simp only [exec, execDualMove, hx, hy, h, andThen_of_next, andThen_of_refused]
  · simp only [exec, execDualMove, hx, hy, hm, h, andThen_of_next, andThen_of_refused]

/-- There are two DAGs, so that a register number's being one of DAG1 says which it is of. -/
theorem dag_eq_iff {d e : Dag} : d = e ↔ (d = .dag1 ↔ e = .dag1) := by
  cases d <;> cases e <;> decide

theorem dagOf_of_takes {bus : Bus} {ia : RegNum} (h : bus.takes ia = true) : dagOf ia = dagOfBus bus := by
  cases bus with
  | dm => exact of_decide_eq_true h
  | pm =>
    have hne : dagOf ia ≠ .dag1 := by simpa only [Bus.takes, inDag1_eq, Bool.not_eq_true', decide_eq_false_iff_not] using h
    exact dag_eq_iff.mpr (iff_of_false hne nofun)

theorem dagOf_of_sameDag {a b : RegNum} (h : a.sameDag b = true) : dagOf b = dagOf a :=
  dag_eq_iff.mpr (decide_eq_decide.mp (eq_of_beq h).symm)

/-- A side of the operand classes of R82 is a data register and post-modify by an M register of the bus's DAG. -/
theorem dualSide_operands {bus : Bus} {a : Access} (h : a.dualSide bus = true) :
    ∃ d b, sideOperands a = .next (d, b) ∧ dagOf a.idx = dagOfBus bus ∧ dagOf b = dagOf a.idx := by
  simp only [Access.dualSide, Bool.and_eq_true] at h
  obtain ⟨⟨⟨hr, hm⟩, hb⟩, ht⟩ := h
  split at hr
  · next d hreg =>
    split at hm
    · next hmode =>
      split at hb
      · next b hmod => exact ⟨d, b, sideOperands_of hreg hmode hmod, dagOf_of_takes ht, dagOf_of_sameDag hb⟩
      · cases hb
    · cases hm
  · cases hr

theorem sideAdmitted_of_checks {s : State} {bus : Bus} {a : Access} {d : DataReg} {b : RegNum} {m : Word}
    (hs : sideOperands a = .next (d, b)) (ho : operand s bus a.idx 0 (.reg b) = .next m)
    (hg : sideGuard s bus a = .next ()) : SideAdmitted s bus a d b ∧ m = s.mReg[b] := by
  obtain ⟨hr, hm, hb⟩ := sideOperands_next hs
  obtain ⟨hd, ⟨_, ⟨⟩, hdb, hv⟩ | ⟨_, hv, -⟩⟩ := operand_next ho
  · refine ⟨⟨hr, hm, hb, hd, hdb, fun hl => ?_⟩, hv⟩
    simp only [sideGuard, hl, hr] at hg
    obtain ⟨-, -, -, hbcast⟩ := loadGuard_next hg
    exact hbcast
  · cases hv

/-- A dual move that completes is one whose two sides put their addresses out. -/
theorem exec_dualMove_ready {x y : Access} {s t : State} (h : exec (.dualMove x y) s = .next t) :
    ∃ dx dy bx bM ux uy, DualReady s x y dx dy bx bM ux uy := by
  obtain ⟨dx, bx, dy, bM, mx, my, ax, s1, ay, s2, px, py, wx, s3, wy, s4, hox, hoy, hmx, hmy, hp, hd, hgx, hgy, hx, hy,
    -⟩ := execDualMove_next h
  obtain ⟨hdm, rfl⟩ := sideAdmitted_of_checks hox hmx hgx
  obtain ⟨hpm, rfl⟩ := sideAdmitted_of_checks hoy hmy hgy
  obtain ⟨hrx, -, ux, hux, rfl⟩ := postModify_next hx
  obtain ⟨hry, -, uy, huy, -⟩ := postModify_next hy
  rw [bitReversed_after, circLS_after] at hry
  rw [circLS_after, nextIndex_after _ _ _ _ _ (idx_ne_of_bus hdm.onBus hpm.onBus)] at huy
  exact ⟨dx, dy, bx, bM, ux, uy, hp, ⟨hdm, hrx, hux⟩, ⟨hpm, hry, huy⟩, hd⟩

/-! ## The addresses of a dual move -/

section
variable {s : State} {x y : Access} {dx dy : DataReg} {bx bM : RegNum} {ux uy : Update}

theorem afterDualAddresses_sameDagBut (s : State) (x y : Access) (ux uy : Update) :
    SameDagBut s (afterDualAddresses s x y ux uy) fun k n => k = .i ∧ (n = x.idx ∨ n = y.idx) :=
  ((sameDagBut_after s x.idx _ _).trans (sameDagBut_after _ y.idx _ _)).mono fun _ _ h =>
    h.elim (And.imp_right .inl) (And.imp_right .inr)

/-- I7 is of the DM side alone and I15 of the PM side alone, so that each side reports its own wrap (R71, R99). -/
theorem afterDualAddresses_setBy (h : DualReady s x y dx dy bx bM ux uy) :
    OverflowSetBy s (afterDualAddresses s x y ux uy) (x.idx = 7 ∧ ux.wrapped = true) (y.idx = 15 ∧ uy.wrapped = true) := by
  have hx : x.idx ≠ 15 := fun he => by have := h.dm.onBus; rw [he] at this; cases this
  have hy : y.idx ≠ 7 := fun he => by have := h.pm.onBus; rw [he] at this; cases this
  exact ((overflowSetBy_after s x.idx _ _).trans (overflowSetBy_after _ y.idx _ _)).of_iff (by simp [hy]) (by simp [hx])

/-- What a dual move that completes has done, its places being given. -/
theorem DualReady.exec_next {px py : Place} {t : State} (h : DualReady s x y dx dy bx bM ux uy)
    (hpx : dataPlace s.platform .dm (outAddr s x.idx s.iReg[x.idx]) = .next px)
    (hpy : dataPlace s.platform .pm (outAddr s y.idx s.iReg[y.idx]) = .next py) (hi : exec (.dualMove x y) s = .next t) :
    ∃ wx s3 wy s4,
      sideAccess s (afterDualAddresses s x y ux uy) .dm x dx (outAddr s x.idx s.iReg[x.idx]) px = .next (wx, s3) ∧
      sideAccess s s3 .pm y dy (outAddr s y.idx s.iReg[y.idx]) py = .next (wy, s4) ∧
      t = advance (dualWrites s4 wx wy) := by
  simp only [exec_of_dualReady h, hpx, hpy, andThen_of_next, andThen_next, Host.Outcome.next.injEq] at hi
  obtain ⟨-, -, ⟨wx, s3⟩, hx, ⟨wy, s4⟩, hy, rfl⟩ := hi
  exact ⟨wx, s3, wy, s4, hx, hy, rfl⟩

end

/-! ## The frame of one side's access -/

theorem sideAccess_dest {old s t : State} {bus : Bus} {a : Access} {d e : DataReg} {adr : Word} {pl : Place}
    {ws : List (DataReg × Data)} {v : Data} (h : sideAccess old s bus a d adr pl = .next (ws, t)) (hv : (e, v) ∈ ws) :
    a.dir = .load ∧ IsLoadDest pl.cls (broadcast old bus a.idx) d e := by
  rcases sideAccess_next h with ⟨hd, w, -, rfl⟩ | ⟨-, rfl, -⟩
  · exact ⟨hd, loadWrites_dest hv⟩
  · cases hv

theorem sideAccess_readByte_other {old s t : State} {bus : Bus} {a : Access} {d : DataReg} {adr : Word} {pl : Place}
    {ws : List (DataReg × Data)} {k : Nat} (h : sideAccess old s bus a d adr pl = .next (ws, t))
    (hk : a.dir = .store → k < pl.start ∨ pl.start + placeBytes pl ≤ k) : readByte t.mem k = readByte s.mem k := by
  obtain ⟨c, m, rfl, rfl | ⟨hd, v, rfl⟩⟩ := sideAccess_kept h
  · rfl
  · exact readByte_writeBytes_other v (hk hd)

/-- A data register neither side writes is as it was. -/
theorem readData_dualWrites_of_not_mem {s : State} {ws vs : List (DataReg × Data)} {d : DataReg} (hw : ∀ v, (d, v) ∉ ws)
    (hv : ∀ v, (d, v) ∉ vs) : readData (dualWrites s ws vs) d = readData s d := by
  rw [readData_dualWrites_first hv, readData_writeAll_of_not_mem hw]

/-! ## The access of one side that goes through -/

/-- The data register writes of one side of a dual move whose load meets the value v. -/
def sideWrites (s : State) (bus : Bus) (x : Access) (d : DataReg) (pl : Place) (v : Nat) : List (DataReg × Data) :=
  match x.dir with
  | .load => loadWrites pl.cls d (BitVec.ofNat 64 v) (broadcast s bus x.idx)
  | .store => []

/-- The state after one side's access in s1, s being the state before the instruction. -/
def afterSide (s s1 : State) (x : Access) (d : DataReg) (pl : Place) : State :=
  match x.dir with
  | .load => { s1 with draws := s1.draws + drawsOfSide s x pl }
  | .store => { s1 with mem := writeBytes s1.mem pl.start (placeBytes pl) (dataWord s pl.cls d).toNat }

theorem afterSide_eq (s s1 : State) (x : Access) (d : DataReg) (pl : Place) :
    ∃ n m, afterSide s s1 x d pl = { s1 with draws := n, mem := m } := by
  unfold afterSide
  split
  · exact ⟨_, s1.mem, rfl⟩
  · exact ⟨s1.draws, _, rfl⟩

theorem afterSide_draws (s s1 : State) (x : Access) (d : DataReg) (pl : Place) :
    (afterSide s s1 x d pl).draws = s1.draws + drawsOfSide s x pl := by
  cases hd : x.dir <;> simp [afterSide, drawsOfSide, hd]

theorem afterSide_readBytes_other {s s1 : State} {x : Access} {d : DataReg} {pl : Place} {b n : Nat}
    (h : x.dir = .store → b + n ≤ pl.start ∨ pl.start + placeBytes pl ≤ b) :
    readBytes (afterSide s s1 x d pl).mem b n = readBytes s1.mem b n := by
  unfold afterSide
  split
  · rfl
  · next hd => exact readBytes_writeBytes_other _ (h hd)

/-- What a storing side has written reads as the register's value before the instruction (R54, R85). -/
theorem afterSide_stored {s : State} (s1 : State) {bus : Bus} {x : Access} (d : DataReg) {a : Word} {pl : Place}
    (hplace : dataPlace s.platform bus a = .next pl) (hd : x.dir = .store) :
    readBytes (afterSide s s1 x d pl).mem pl.start (placeBytes pl) = some (storedValue s pl.cls (.data d)) := by
  obtain ⟨-, hshort, hdata⟩ := dataPlace_next hplace
  have hword : (dataWord s pl.cls d).toNat = storedValue s pl.cls (.data d) := storeWord_toNat s _ (.data d) hshort hdata rfl
  simp only [afterSide, hd, readBytes_writeBytes_same, hword, Nat.mod_eq_of_lt (storedValue_lt s pl (.data d))]

theorem LoadedValue.lt {s : State} {k v : Nat} {pl : Place} (h : LoadedValue s k pl v) : v < 256 ^ placeBytes pl := by
  rcases h with ⟨-, h⟩ | ⟨-, rfl⟩
  · exact readBytes_lt h
  · obtain ⟨n, -, hn, hlt⟩ := freeValue_eq { s with draws := k } pl
    rwa [hn]

/-- A load of a word that holds v, or of shared storage whose next free value is v, answers v (R53). -/
theorem LoadedValue.memRead_eq {s s1 : State} {x : Access} {pl : Place} {v : Nat} (h : LoadedValue s s1.draws pl v)
    (hp : s1.platform = s.platform)
    (hm : readBytes s1.mem pl.start (placeBytes pl) = readBytes s.mem pl.start (placeBytes pl)) (hd : x.dir = .load)
    (a : Word) : memRead s1 a pl = .next (BitVec.ofNat 64 v, { s1 with draws := s1.draws + drawsOfSide s x pl }) := by
  rcases h with ⟨hshared, hbytes⟩ | ⟨hshared, rfl⟩
  · rw [memRead_of_written a (by rw [hp, hshared]) (hm.trans hbytes)]
    simp [drawsOfSide, hshared]
  · rw [memRead_of_shared a (by rw [hp, hshared]), BitVec.ofNat_toNat, BitVec.setWidth_eq]
    simp [drawsOfSide, hshared, hd, freeValue]

theorem SideAccesses.sideAccess_eq {s s1 : State} {bus : Bus} {x : Access} {pl : Place} {v : Nat}
    (h : SideAccesses s bus x pl s1.draws v) (hp : s1.platform = s.platform)
    (hm : readBytes s1.mem pl.start (placeBytes pl) = readBytes s.mem pl.start (placeBytes pl)) (d : DataReg) (a : Word) :
    sideAccess s s1 bus x d a pl = .next (sideWrites s bus x d pl v, afterSide s s1 x d pl) := by
  cases hd : x.dir with
  | load => simp only [sideAccess, sideWrites, afterSide, hd, (h.loads hd).memRead_eq hp hm hd a, andThen_of_next]
  | store =>
    have htext := h.stores hd
    rw [← hp] at htext
    simp only [sideAccess, sideWrites, afterSide, hd, memWrite, htext, Bool.not_false, require_true, andThen_of_next]

theorem sideWrites_dest {s : State} {bus : Bus} {x : Access} {d e : DataReg} {pl : Place} {v : Nat} {w : Data}
    (h : (e, w) ∈ sideWrites s bus x d pl v) : x.dir = .load ∧ IsLoadDest pl.cls (broadcast s bus x.idx) d e := by
  unfold sideWrites at h
  split at h
  · next hd => exact ⟨hd, loadWrites_dest h⟩
  · cases h

/-- What a loading side's writes leave in its register and the pair partner (R85). -/
theorem SideAccesses.sideWrites_holds {s : State} {bus : Bus} {x : Access} {pl : Place} {k v : Nat}
    (h : SideAccesses s bus x pl k v) (hd : x.dir = .load) (t : State) (d : DataReg) :
    HoldsData (writeAll t (sideWrites s bus x d pl v)) pl.cls d v := by
  obtain ⟨-, hshort, hdata⟩ := dataPlace_next h.admitted
  simp only [sideWrites, hd]
  exact (loadWrites_holds t pl.cls d v _ (lt_two_pow_64_of_lt (h.loads hd).lt) hshort hdata).1

/-! ## A dual move that runs -/

section
variable {s : State} {x y : Access} {dx dy : DataReg} {bx bM : RegNum} {ux uy : Update} {px py : Place} {vx vy : Nat}

/-- Where one side stores, the two places lie one after the other (R54). -/
theorem DualRuns.places_apart (h : DualRuns s x y dx dy bx bM ux uy px py vx vy) (hd : x.dir = .store ∨ y.dir = .store) :
    px.start + placeBytes px ≤ py.start ∨ py.start + placeBytes py ≤ px.start := by
  refine apart_of_samePlace (dataPlace_pos h.dmAccess.admitted) (dataPlace_pos h.pmAccess.admitted) ?_
  have hstore : someStore x y = true := by simpa [someStore] using hd
  simpa [hstore] using h.apart

/-- The state of a dual move after both accesses. -/
def afterDualAccesses (s : State) (x y : Access) (dx dy : DataReg) (ux uy : Update) (px py : Place) : State :=
  afterSide s (afterSide s (afterDualAddresses s x y ux uy) x dx px) y dy py

/-- A dual move that runs completes with both accesses made and both sides' registers written. -/
theorem DualRuns.exec_eq (h : DualRuns s x y dx dy bx bM ux uy px py vx vy) :
    exec (.dualMove x y) s = .next (advance (dualWrites (afterDualAccesses s x y dx dy ux uy px py)
      (sideWrites s .dm x dx px vx) (sideWrites s .pm y dy py vy))) := by
  have hk := afterDualAddresses_kept s x y ux uy
  have hdm := SideAccesses.sideAccess_eq (s1 := afterDualAddresses s x y ux uy) (by rw [hk.draws]; exact h.dmAccess)
    hk.platform (by rw [hk.mem]) dx (outAddr s x.idx s.iReg[x.idx])
  have hplatform : (afterSide s (afterDualAddresses s x y ux uy) x dx px).platform = s.platform := by
    obtain ⟨n, m, he⟩ := afterSide_eq s (afterDualAddresses s x y ux uy) x dx px
    rw [he]; exact hk.platform
  have hbytes : readBytes (afterSide s (afterDualAddresses s x y ux uy) x dx px).mem py.start (placeBytes py) =
      readBytes s.mem py.start (placeBytes py) := by
    rw [afterSide_readBytes_other fun hd => (h.places_apart (.inl hd)).symm, hk.mem]
  have hpm := SideAccesses.sideAccess_eq (s1 := afterSide s (afterDualAddresses s x y ux uy) x dx px)
    (by rw [afterSide_draws, hk.draws]; exact h.pmAccess) hplatform hbytes dy (outAddr s y.idx s.iReg[y.idx])
  simp only [exec_of_dualPlaces h.ready h.dmAccess.admitted h.pmAccess.admitted h.apart, hdm, hpm, andThen_of_next]
  rfl

/-- The accesses of a dual move change memory and the count of draws alone. -/
theorem afterDualAccesses_eq (s : State) (x y : Access) (dx dy : DataReg) (ux uy : Update) (px py : Place) :
    ∃ n m, afterDualAccesses s x y dx dy ux uy px py = { afterDualAddresses s x y ux uy with draws := n, mem := m } := by
  obtain ⟨n, m, h⟩ := afterSide_eq s (afterDualAddresses s x y ux uy) x dx px
  obtain ⟨n2, m2, h2⟩ := afterSide_eq s (afterSide s (afterDualAddresses s x y ux uy) x dx px) y dy py
  exact ⟨n2, m2, by rw [afterDualAccesses, h2, h]⟩

theorem afterDualAccesses_kept (s : State) (x y : Access) (dx dy : DataReg) (ux uy : Update) (px py : Place) :
    (afterDualAccesses s x y dx dy ux uy px py).iReg = (afterDualAddresses s x y ux uy).iReg ∧
      (afterDualAccesses s x y dx dy ux uy px py).pc = s.pc ∧
      OverflowOf (afterDualAddresses s x y ux uy) (afterDualAccesses s x y dx dy ux uy px py) := by
  obtain ⟨n, m, he⟩ := afterDualAccesses_eq s x y dx dy ux uy px py
  rw [he]
  exact ⟨rfl, (afterDualAddresses_kept s x y ux uy).pc, rfl, rfl⟩

/-- Each storing side's place holds its register's value before the instruction (R54). -/
theorem DualRuns.stored (h : DualRuns s x y dx dy bx bM ux uy px py vx vy) :
    (x.dir = .store → readBytes (afterDualAccesses s x y dx dy ux uy px py).mem px.start (placeBytes px) =
      some (storedValue s px.cls (.data dx))) ∧
    (y.dir = .store → readBytes (afterDualAccesses s x y dx dy ux uy px py).mem py.start (placeBytes py) =
      some (storedValue s py.cls (.data dy))) := by
  refine ⟨fun hd => ?_, afterSide_stored _ dy h.pmAccess.admitted⟩
  rw [afterDualAccesses, afterSide_readBytes_other fun _ => h.places_apart (.inl hd)]
  exact afterSide_stored _ dx h.dmAccess.admitted hd

/-- A register the DM side alone loads holds what its writes leave. -/
theorem readData_dualWrites_dm {t : State} {e : DataReg}
    (h : ¬ (y.dir = .load ∧ IsLoadDest py.cls (broadcast s .pm y.idx) dy e)) :
    readData (dualWrites t (sideWrites s .dm x dx px vx) (sideWrites s .pm y dy py vy)) e =
      readData (writeAll t (sideWrites s .dm x dx px vx)) e :=
  readData_dualWrites_first fun _ hv => h (sideWrites_dest hv)

/-- A register the PM side alone loads holds what its writes leave. -/
theorem readData_dualWrites_pm {t : State} {e : DataReg}
    (h : ¬ (x.dir = .load ∧ IsLoadDest px.cls (broadcast s .dm x.idx) dx e)) :
    readData (dualWrites t (sideWrites s .dm x dx px vx) (sideWrites s .pm y dy py vy)) e =
      readData (writeAll (writeAll t (sideWrites s .dm x dx px vx)) (sideWrites s .pm y dy py vy)) e :=
  readData_dualWrites_second fun _ hv => h (sideWrites_dest hv)

end

end Sys2Proof.Machine

namespace Sys2Proof.Proofs

open Sys2Proof.Machine

/-- Settles O17: post-modify is the update of I[n], which is the plain sum where circular buffering is not in force. -/
theorem postModifyOldIndexOut : Obligations.PostModifyOldIndexOut := by
  refine fun s n m => ⟨fun a t h => ?_, fun hcirc => ?_⟩
  · obtain ⟨-, rfl, u, hu, rfl⟩ := postModify_next h
    exact ⟨rfl, ⟨u, hu, iReg_after_same s n _ _⟩, sameDagBut_after s n _ _, by simp⟩
  · have hu : nextIndex s n m (circLS s n) = .next { value := s.iReg[n] + m, wrapped := false } := by
      rw [hcirc, nextIndex_plain]
    refine ⟨_, postModify_of (by rw [hcirc, Bool.and_false]) hu, iReg_after_same s n _ _, ?_, ?_⟩ <;> simp [noteOverflow]

/-- Settles O18: on its domain the circular update answers the circular value, and its wrap is reported for I7 and I15. -/
theorem postModifyCircular : Obligations.PostModifyCircular := by
  intro s n m hcirc hrev hdom
  have hu : nextIndex s n m (circLS s n) = .next (circularUpdate s.iReg[n] s.bReg[n] s.lReg[n] m) := by
    rw [hcirc]
    exact circularNext_of_domain hdom
  have hout : outAddr s n s.iReg[n] = s.iReg[n] := by simp [outAddr, hrev]
  refine ⟨_, hout ▸ postModify_of (by rw [hrev, Bool.false_and]) hu, ?_, sameDagBut_after s n _ _, by simp, ?_⟩
  · rw [iReg_after_same]
    exact circularUpdate_toNat hdom
  · exact (overflowSetBy_after s n _ _).of_iff (and_congr_right' decide_eq_true_iff) (and_congr_right' decide_eq_true_iff)

/-- Settles O21, by whether circular buffering is in force. -/
theorem preModifyWritesNothing : Obligations.PreModifyWritesNothing := fun s n m =>
  ⟨fun h => by simp [preModify, h], fun h => by simp [preModify, h]⟩

/-- Settles O25: the read answers the written word, and the load's writes leave its parts in the named register and the pair
partner. -/
theorem loadIntoDataRegister : Obligations.LoadIntoDataRegister := by
  intro s mode d bus ia m i a s1 pl v h
  obtain ⟨-, hshort, hdata⟩ := dataPlace_next h.admitted
  have hk := addressOutput_kept h.address
  have hguard := loadGuard_of h.given h.notClass2 h.simdOff h.noSBroadcast
  have hread := memRead_of_written (s := s1) (pl := pl) a (by rw [hk.platform, h.unshared]) (by rw [hk.mem, h.written])
  obtain ⟨⟨hnamed, hpartner⟩, -⟩ := loadWrites_holds s1 pl.cls d v (broadcast s bus ia)
    (lt_two_pow_64_of_lt (readBytes_lt h.written)) hshort hdata
  exact ⟨_, exec_of_isLoad_of_memRead h.form hguard h.address h.admitted hread, by simp [hk.pc], by simp [loadReg],
    by simp [OverflowOf], hnamed, hpartner⟩

/-- Settles O30: after the address output a load draws at most, and writes its destination registers. -/
theorem loadIntoDataFrame : Obligations.LoadIntoDataFrame := by
  intro s t mode d bus ia m i a s1 hload haddr hi
  have hk := addressOutput_kept haddr
  obtain ⟨-, pl, v, s2, hplace, hread, rfl⟩ := exec_isLoad_next hload haddr hi
  obtain ⟨n, rfl⟩ := memRead_kept hread
  refine ⟨fun e => ?_, (addressOutput_sameDagBut haddr).trans_eq ?_, ?_, (addressOutput_sameOverflow haddr).trans_eq ?_,
    ?_, ?_, ?_⟩
  · rw [← dataPlace_cls hplace, ← hk.readData_eq e]
    exact loadWrites_sameDataBut { s1 with draws := n } pl.cls d v _ e
  · exact readDag_congr (by simp [loadReg]) (by simp [loadReg]) (by simp [loadReg]) (by simp [loadReg])
  · simp [SameModes, hk.mode1, hk.mmaskCbufen, hk.stkyy]
  · simp [OverflowOf]
  · simp [SameMemory, hk.mem]
  · simp [SameEnvironment, hk.program, hk.platform, hk.events]
  · simp [hk.condIn]

/-- Settles O34: after the address output a store writes the bytes of its word and nothing else. -/
theorem storeFrame : Obligations.StoreFrame := by
  intro s t mode u bus ia m i a s1 pl hstore haddr hplace hi
  have hk := addressOutput_kept haddr
  obtain rfl := exec_isStore_next hstore haddr hplace hi
  refine ⟨fun d => .inr (hk.readData_eq d), (addressOutput_sameDagBut haddr).trans_eq fun _ _ => rfl,
    ⟨hk.mode1, hk.mmaskCbufen, hk.stkyy⟩, (addressOutput_sameOverflow haddr).trans_eq ⟨rfl, rfl⟩, fun k hout => ?_,
    ⟨hk.program, hk.platform, hk.events⟩, hk.condIn, hk.draws⟩
  rw [← hk.mem]
  exact readByte_writeBytes_other _ hout

/-- Settles O40: with length zero no buffer is in force, and the update is the plain sum. -/
theorem modifyPlainSum : Obligations.ModifyPlainSum := by
  intro s ia m i hi hl
  refine ⟨_, by rw [exec_of_isModify hi, modifyIndex_plain m hl, andThen_of_next], ?_, ?_, ?_, ?_⟩ <;>
    simp [writeDag]

/-- Settles O42: MODIFY updates its index register and notes a wrap, which needs a length. -/
theorem modifyFrame : Obligations.ModifyFrame := by
  intro s t ia m i hi h
  rw [exec_of_isModify hi, andThen_next] at h
  obtain ⟨u, hu, ⟨⟩⟩ := h
  have hk := modifyIndex_keptByEffect hu
  have hdag := modifyIndex_sameDagBut hu
  have hoverflow := modifyIndex_sameOverflow hu
  have hmem := modifyIndex_mem hu
  obtain ⟨v, -, rfl⟩ := modifyIndex_next hu
  exact ⟨hdag.trans_eq fun _ _ => rfl, fun d => .inr (readData_congr (by simp) (by simp) d),
    ⟨hk.mode1, hk.mmaskCbufen, hk.stkyy⟩, hoverflow.trans_eq ⟨rfl, rfl⟩, fun k => by rw [advance_mem, hmem],
    ⟨hk.program, hk.platform, hk.events⟩, by simp⟩

/-- Settles O44: the form has no meaning. -/
theorem jumpIndirectRefused : Obligations.JumpIndirectRefused := fun _ _ _ => rfl

/-- Settles O36: both accesses go through, and each side's writes reach the registers it alone loads. -/
theorem dualMoveCompletes : Obligations.DualMoveCompletes := by
  intro s x y dx dy bx bM ux uy px py vx vy h
  obtain ⟨hx, hy⟩ := afterDualAddresses_iReg h.ready
  obtain ⟨hiReg, hpc, hoverflow⟩ := afterDualAccesses_kept s x y dx dy ux uy px py
  obtain ⟨hstoreX, hstoreY⟩ := h.stored
  refine ⟨_, h.exec_eq, by simp [hpc], by simp [hiReg, hx], by simp [hiReg, hy],
    ((afterDualAddresses_setBy h.ready).trans_eq hoverflow).trans_eq (by simp [OverflowOf]), ⟨fun hd => ?_, fun hd => ?_⟩,
    by simpa using hstoreX, by simpa using hstoreY⟩
  · obtain ⟨hnamed, hpartner⟩ := h.dmAccess.sideWrites_holds hd (afterDualAccesses s x y dx dy ux uy px py) dx
    exact ⟨fun hn => (readData_dualWrites_dm hn).trans hnamed,
      fun hc hn => (readData_dualWrites_dm hn).trans (hpartner hc)⟩
  · obtain ⟨hnamed, hpartner⟩ := h.pmAccess.sideWrites_holds hd
      (writeAll (afterDualAccesses s x y dx dy ux uy px py) (sideWrites s .dm x dx px vx)) dy
    exact ⟨fun hn => (readData_dualWrites_pm hn).trans hnamed,
      fun hc hn => (readData_dualWrites_pm hn).trans (hpartner hc)⟩

/-- Settles O38: a dual move that completes puts two addresses out, makes two accesses and writes the registers they load. -/
theorem dualMoveFrame : Obligations.DualMoveFrame := by
  intro s t x y dx dy px py hrx hry hi hpx hpy
  obtain ⟨dx', dy', bx, bM, ux, uy, h⟩ := exec_dualMove_ready hi
  obtain rfl : dx = dx' := by simpa [hrx] using h.dm.reg
  obtain rfl : dy = dy' := by simpa [hry] using h.pm.reg
  have hk := afterDualAddresses_kept s x y ux uy
  have hoverflow : SameOverflow s (afterDualAddresses s x y ux uy) fun n =>
      (n = x.idx ∧ circLS s x.idx = true) ∨ (n = y.idx ∧ circLS s y.idx = true) :=
    (afterDualAddresses_setBy h).sameOverflow (fun ⟨hn, hw⟩ => .inl ⟨hn.symm, nextIndex_wrapped h.dm.update hw⟩)
      fun ⟨hn, hw⟩ => .inr ⟨hn.symm, nextIndex_wrapped h.pm.update hw⟩
  obtain ⟨wx, s3, wy, s4, hx, hy, rfl⟩ := h.exec_next hpx hpy hi
  have hbytes (k : Nat) (hkx : x.dir = .store → k < px.start ∨ px.start + placeBytes px ≤ k)
      (hky : y.dir = .store → k < py.start ∨ py.start + placeBytes py ≤ k) : readByte s4.mem k = readByte s.mem k := by
    rw [sideAccess_readByte_other hy hky, sideAccess_readByte_other hx hkx, hk.mem]
  have hdata (e : DataReg) (he : ¬ ((x.dir = .load ∧ IsLoadDest px.cls (broadcast s .dm x.idx) dx e) ∨
      (y.dir = .load ∧ IsLoadDest py.cls (broadcast s .pm y.idx) dy e))) :
      readData (dualWrites s4 wx wy) e = readData s4 e :=
    readData_dualWrites_of_not_mem (fun _ hv => he (.inl (sideAccess_dest hx hv)))
      fun _ hv => he (.inr (sideAccess_dest hy hv))
  obtain ⟨n3, m3, rfl, -⟩ := sideAccess_kept hx
  obtain ⟨n4, m4, rfl, -⟩ := sideAccess_kept hy
  refine ⟨(afterDualAddresses_sameDagBut s x y ux uy).trans_eq ?_, fun e => ?_, fun k hkx hky => ?_, ?_,
    hoverflow.trans_eq ?_, ?_, ?_⟩
  · exact readDag_congr (by simp) (by simp) (by simp) (by simp)
  · exact or_iff_not_imp_left.mpr fun he => (hdata e he).trans (hk.readData_eq e)
  · simpa using hbytes k hkx hky
  · simp [SameModes, hk.mode1, hk.mmaskCbufen, hk.stkyy]
  · simp [OverflowOf]
  · simp [SameEnvironment, hk.program, hk.platform, hk.events]
  · simp [hk.condIn]

/-- Settles O39, check by check in the order a dual move makes them. -/
theorem dualMoveRefusals : Obligations.DualMoveRefusals := by
  refine ⟨fun s x y hx => ?_, fun s x y hx hy => ?_, fun s x y hp hx hy hdx hdy hreg => ?_,
    fun s x y dx dy bx bM ux uy px py h hpx hpy hsame hstore => ?_⟩
  · simp only [exec, execDualMove, sideOperands_of_variant hx, andThen_of_refused]
  · obtain ⟨d, b, hox, -⟩ := dualSide_operands hx
    simp only [exec, execDualMove, hox, sideOperands_of_variant hy, andThen_of_next, andThen_of_refused]
  · obtain ⟨dx, bx, hox, hix, hbx⟩ := dualSide_operands hx
    obtain ⟨dy, bM, hoy, hiy, hbM⟩ := dualSide_operands hy
    have hd : doubleLoad x y = true := by simp [doubleLoad, hdx, hdy, hreg]
    simp only [exec, execDualMove, hox, hoy, operand_of_dagOf s 0 hix hbx, operand_of_dagOf s 0 hiy hbM, hp, hd,
      Bool.not_false, Bool.not_true, require_true, require_false, andThen_of_next, andThen_of_refused]
  · have hs : someStore x y = true := by simpa [someStore] using hstore
    simp only [exec_of_dualReady h, hpx, hpy, hsame, hs, Bool.and_self, Bool.not_true, require_false, andThen_of_next,
      andThen_of_refused]

/-- Settles O55: the operand of a load or store comes before every other check, and in a dual move after the variants alone. -/
theorem wrongDagRefused : Obligations.WrongDagRefused := by
  refine ⟨fun s u bus ia mb imm h => ?_, fun s u bus ia mb h => ?_, ?_⟩
  · have hw (w : Nat) (md : Modifier) := operand_of_wrong_index s w md h
    exact ⟨loadForm_of_operand_refused (hw _ _), storeForm_of_operand_refused (hw _ _),
      loadForm_of_operand_refused (hw _ _), storeForm_of_operand_refused (hw _ _),
      loadForm_of_operand_refused (hw _ _), storeForm_of_operand_refused (hw _ _),
      loadForm_of_operand_refused (hw _ _), storeForm_of_operand_refused (hw _ _)⟩
  · have hw := operand_of_wrong_modify s bus 0 h
    exact ⟨loadForm_of_operand_refused hw, storeForm_of_operand_refused hw, loadForm_of_operand_refused hw,
      storeForm_of_operand_refused hw, execModifyM_of_wrong_modify s h⟩
  · intro s x y dx dy bx bM hrx hmx hbx hry hmy hbM h
    refine exec_dualMove_of_operand_refused (sideOperands_of hrx hmx hbx) (sideOperands_of hry hmy hbM) ?_
    by_cases hidx : dagOf x.idx = dagOfBus .dm
    · by_cases hmodx : dagOf bx = dagOf x.idx
      · refine .inr ⟨⟨_, operand_of_dagOf s 0 hidx hmodx⟩, ?_⟩
        by_cases hidy : dagOf y.idx = dagOfBus .pm
        · refine operand_of_wrong_modify s .pm 0 fun hmody => ?_
          rw [hmodx, hmody, hidx, hidy] at h
          simp [dagOfBus] at h
        · exact operand_of_wrong_index s 0 _ hidy
      · exact .inl (operand_of_wrong_modify s .dm 0 hmodx)
    · exact .inl (operand_of_wrong_index s 0 _ hidx)

end Sys2Proof.Proofs
end

section
/-! Proofs of the family 41_circular_buffer.md: the domain and the values of the circular update, the index registers that
post-modify and MODIFY leave, what becomes of the overflow status, and the status push. -/

namespace Sys2Proof.Machine

/-! ## The domain of the circular update -/

/-- Outside its domain one of the conditions of the circular update is the first that fails (R90, R94). -/
theorem exists_updateRefused {cur base len m : Word} (h : ¬ CircularDomain cur base len m) :
    ∃ r, UpdateRefused cur base len m r := by
  unfold UpdateRefused
  split_ifs
  · exact ⟨_, rfl⟩
  · exact ⟨_, rfl⟩
  · exact ⟨_, rfl⟩
  · exact ⟨_, h, rfl⟩

/-- The circular update answers on its domain alone, and there the circular value. -/
theorem circularNext_eq_next_iff {cur base len m : Word} {u : Update} :
    circularNext cur base len m = .next u ↔ CircularDomain cur base len m ∧ u = circularUpdate cur base len m := by
  constructor
  · intro h
    by_cases hdom : CircularDomain cur base len m
    · rw [circularNext_of_domain hdom, Host.Outcome.next.injEq] at h
      exact ⟨hdom, h.symm⟩
    · obtain ⟨r, hr⟩ := exists_updateRefused hdom
      rw [circularNext_of_refused hr] at h
      cases h
  · rintro ⟨hdom, rfl⟩
    exact circularNext_of_domain hdom

/-- What the circular update answers lies in the buffer (R87, R94). -/
theorem circularUpdate_inBuffer {cur base len m : Word} (h : CircularDomain cur base len m) :
    base.toNat ≤ (circularUpdate cur base len m).value.toNat ∧
      (circularUpdate cur base len m).value.toNat < base.toNat + len.toNat := by
  have hvalue := circularUpdate_toNat h
  obtain ⟨hlow, hhigh⟩ := circularValue_inBuffer h
  omega

/-- The circular value is the sum, or the sum corrected once by the length against the sign of the modify value (R90). -/
theorem circularValue_cases (cur base len m : Word) :
    circularValue cur base len m = cur.toNat + m.toInt ∨
      (circularValue cur base len m = cur.toNat + m.toInt - len.toNat ∧ 0 ≤ m.toInt) ∨
      (circularValue cur base len m = cur.toNat + m.toInt + len.toNat ∧ m.toInt < 0) := by
  unfold circularValue
  split_ifs with hin hneg
  · exact .inl rfl
  · exact .inr (.inr ⟨rfl, hneg⟩)
  · exact .inr (.inl ⟨rfl, not_lt.mp hneg⟩)

theorem circularUpdate_wrapped_iff (cur base len m : Word) :
    (circularUpdate cur base len m).wrapped = true ↔ circularValue cur base len m ≠ cur.toNat + m.toInt :=
  decide_eq_true_iff

/-! ## Index registers after a post-modify -/

/-- I[n] of t holds what the post-modify of I[n] by m in s writes back, and B[n] and L[n] are as they were (R72, R90). -/
def PostModified (s t : State) (n : RegNum) (m : Word) : Prop :=
  ∃ u, nextIndex s n m (circLS s n) = .next u ∧ t.iReg[n] = u.value ∧ t.bReg[n] = s.bReg[n] ∧ t.lReg[n] = s.lReg[n]

theorem PostModified.eq_add {s t : State} {n : RegNum} {m : Word} (h : PostModified s t n m)
    (hc : circLS s n = false) : t.iReg[n] = s.iReg[n] + m := by
  obtain ⟨u, hu, hi, -, -⟩ := h
  rw [hc, nextIndex_plain, Host.Outcome.next.injEq] at hu
  rw [hi, ← hu]

theorem PostModified.staysInBuffer {s t : State} {n : RegNum} {m : Word} (h : PostModified s t n m)
    (hc : circLS s n = true) : StaysInBuffer s t n := by
  obtain ⟨u, hu, hi, hb, hl⟩ := h
  rw [hc] at hu
  obtain ⟨hdom, rfl⟩ := circularNext_eq_next_iff.mp hu
  refine ⟨hb, hl, ?_⟩
  rw [hi, hb, hl]
  exact circularUpdate_inBuffer hdom

/-- What leaves the DAG registers of number n as they are leaves the result of the post-modify. -/
theorem PostModified.trans_eq {s t t2 : State} {n : RegNum} {m : Word} (h : PostModified s t n m)
    (he : ∀ k, readDag t2 k n = readDag t k n) : PostModified s t2 n m := by
  obtain ⟨u, hu, hi, hb, hl⟩ := h
  exact ⟨u, hu, (he .i).trans hi, (he .b).trans hb, (he .l).trans hl⟩

theorem postModify_postModified {s t : State} {n : RegNum} {m a : Word} (h : postModify s n m = .next (a, t)) :
    PostModified s t n m := by
  have hk := addressOutput_kept (mode := .post) h
  obtain ⟨-, -, u, hu, rfl⟩ := postModify_next h
  exact ⟨u, hu, iReg_after_same s n _ _, by rw [hk.bReg], by rw [hk.lReg]⟩

/-- Where circular buffering is not in force post-modify writes the plain sum and reports no wrap (R91). -/
theorem postModify_plain {s : State} {n : RegNum} (m : Word) (h : circLS s n = false) :
    postModify s n m = .next (outAddr s n s.iReg[n], writeDag s .i n (s.iReg[n] + m)) :=
  postModify_of (by rw [h, Bool.and_false]) (by rw [h]; exact nextIndex_plain s n m)

theorem circLS_of_cbufen_clear {s : State} (h : s.mode1.cbufen = false) (n : RegNum) : circLS s n = false := by
  rw [circLS, h, Bool.false_and]

theorem writeDag_sameDagBut (s : State) (k : DagKind) (n : RegNum) (v : Word) :
    SameDagBut s (writeDag s k n v) fun j q => q = n ∧ (j = k ∨ (k = .b ∧ j = .i)) := by
  intro j q
  by_cases h : q = n ∧ (j = k ∨ (k = .b ∧ j = .i))
  · exact .inl h
  · refine .inr (readDag_writeDag_other v ?_ fun hk hj hq => h ⟨hq, .inr ⟨hk, hj⟩⟩)
    exact or_iff_not_imp_left.mpr fun hj hq => h ⟨hq, .inl (not_not.mp hj)⟩

/-- A load of a DAG register changes its destinations alone among the DAG registers (R119 to R121). -/
theorem loadDag_sameDagBut (s : State) (c : WordClass) (k : DagKind) (n : RegNum) (v : Long) :
    SameDagBut s (loadDag s c k n v) (IsDagDest c k n) := by
  have named (x : Word) : SameDagBut s (writeDag s k n x) (IsDagDest c k n) :=
    (writeDag_sameDagBut s k n x).mono fun _ _ => And.imp_left .inl
  cases c with
  | normal32 => exact named _
  | ext40 => exact named _
  | long64 =>
    exact ((named _).trans (writeDag_sameDagBut _ k (pairOf n) _)).mono fun _ _ h =>
      h.elim id (And.imp_left fun hq => .inr ⟨rfl, hq⟩)
  | short16 => exact fun _ _ => .inr rfl
  | notData => exact fun _ _ => .inr rfl

/-- A load of no DAG register of the index register's DAG leaves the DAG registers of that number (R141). -/
theorem loadReg_readDag_of_not_ofDagOf (s : State) (c : WordClass) {u : Ureg} (v : Long) (b : Bool) {ia : RegNum}
    (h : ofDagOf ia u = false) (k : DagKind) : readDag (loadReg s c u v b) k ia = readDag s k ia := by
  cases u with
  | dag j n =>
    have hne : dagOf n ≠ dagOf ia := by simpa only [ofDagOf, decide_eq_false_iff_not] using h
    refine (loadDag_sameDagBut s c j n v k ia).resolve_left ?_
    rintro ⟨rfl | ⟨-, rfl⟩, -⟩
    · exact hne rfl
    · exact hne (dagOf_pairOf n).symm
  | data d => exact readDag_congr (writeAll_iReg s _) (writeAll_mReg s _) (writeAll_lReg s _) (writeAll_bReg s _) k ia
  | sys q => rfl

theorem exec_isLoad_postModified {s t : State} {u : Ureg} {bus : Bus} {ia : RegNum} {m : Word} {i : Instr}
    (h : IsLoad s .post u bus ia m i) (hi : exec i s = .next t) : PostModified s t ia m := by
  have hchain := hi
  simp only [exec_of_isLoad h, andThen_next] at hchain
  obtain ⟨⟨⟩, hguard, ⟨a, s1⟩, haddr, -⟩ := hchain
  obtain ⟨-, hclass2, -, -⟩ := loadGuard_next hguard
  obtain ⟨-, pl, v, s2, -, hread, rfl⟩ := exec_isLoad_next h haddr hi
  obtain ⟨d, rfl⟩ := memRead_kept hread
  refine (postModify_postModified haddr).trans_eq fun k => ?_
  exact loadReg_readDag_of_not_ofDagOf { s1 with draws := d } _ _ _ hclass2 k

theorem exec_isStore_postModified {s t : State} {u : Ureg} {bus : Bus} {ia : RegNum} {m : Word} {i : Instr}
    (h : IsStore s .post u bus ia m i) (hi : exec i s = .next t) : PostModified s t ia m := by
  simp only [exec_of_isStore h, storeFrom, andThen_next, Host.Outcome.next.injEq] at hi
  obtain ⟨-, -, ⟨a, s1⟩, haddr, w, ⟨pl, -, hwrite⟩, rfl⟩ := hi
  obtain ⟨-, rfl⟩ := memWrite_next hwrite
  exact (postModify_postModified haddr).trans_eq fun _ => rfl

/-- After a dual move's addresses only memory, the count of draws and data registers change. -/
theorem DualReady.eq_of_exec_next {s t : State} {x y : Access} {dx dy : DataReg} {bx bM : RegNum} {ux uy : Update}
    (h : DualReady s x y dx dy bx bM ux uy) (hi : exec (.dualMove x y) s = .next t) :
    ∃ n mem ws vs, t = advance (dualWrites { afterDualAddresses s x y ux uy with draws := n, mem := mem } ws vs) := by
  simp only [exec_of_dualReady h, andThen_next, Host.Outcome.next.injEq] at hi
  obtain ⟨px, -, py, -, -, -, ⟨wx, s3⟩, hax, ⟨wy, s4⟩, hay, rfl⟩ := hi
  obtain ⟨d3, m3, rfl, -⟩ := sideAccess_kept hax
  obtain ⟨d4, m4, rfl, -⟩ := sideAccess_kept hay
  exact ⟨d4, m4, wx, wy, rfl⟩

/-- A dual move that completes has post-modified both index registers (R82). -/
theorem exec_dualMove_postModified {s t : State} {x y : Access} (hi : exec (.dualMove x y) s = .next t) :
    ∃ bx bM, x.modifier = .reg bx ∧ y.modifier = .reg bM ∧
      PostModified s t x.idx s.mReg[bx] ∧ PostModified s t y.idx s.mReg[bM] := by
  obtain ⟨dx, dy, bx, bM, ux, uy, h⟩ := exec_dualMove_ready hi
  have hk := afterDualAddresses_kept s x y ux uy
  obtain ⟨hx, hy⟩ := afterDualAddresses_iReg h
  have hxm : PostModified s (afterDualAddresses s x y ux uy) x.idx s.mReg[bx] :=
    ⟨ux, h.dm.update, hx, by rw [hk.bReg], by rw [hk.lReg]⟩
  have hym : PostModified s (afterDualAddresses s x y ux uy) y.idx s.mReg[bM] :=
    ⟨uy, h.pm.update, hy, by rw [hk.bReg], by rw [hk.lReg]⟩
  obtain ⟨d, mem, ws, vs, rfl⟩ := h.eq_of_exec_next hi
  have hdag (k : DagKind) (n : RegNum) :
      readDag (advance (dualWrites { afterDualAddresses s x y ux uy with draws := d, mem := mem } ws vs)) k n =
        readDag (afterDualAddresses s x y ux uy) k n :=
    readDag_congr (by simp) (by simp) (by simp) (by simp) k n
  exact ⟨bx, bM, h.dm.modifier, h.pm.modifier, hxm.trans_eq fun k => hdag k _, hym.trans_eq fun k => hdag k _⟩

/-! ## The overflow status -/

/-- Each overflow status bit and each latched request that was set is set (D26). -/
def KeepsOverflowSet (s t : State) : Prop :=
  (s.stkyx.cb7s = true → t.stkyx.cb7s = true) ∧ (s.stkyx.cb15s = true → t.stkyx.cb15s = true) ∧
  (s.latch.cb7i = true → t.latch.cb7i = true) ∧ (s.latch.cb15i = true → t.latch.cb15i = true)

/-- The overflow status and the requests change by being set alone, and only where `mayWrap` holds of the DAG's reporting
register (R99). -/
structure ReportsWrapOf (s t : State) (mayWrap : RegNum → Prop) : Prop where
  sticky : KeepsOverflowSet s t
  frame : SameOverflow s t mayWrap

theorem OverflowOf.reportsWrapOf {s t : State} (h : OverflowOf s t) (mayWrap : RegNum → Prop) :
    ReportsWrapOf s t mayWrap := by
  obtain ⟨hs, hl⟩ := h
  constructor
  · simp only [KeepsOverflowSet, hs, hl, imp_self, and_self]
  · simp only [SameOverflow, hs, hl, and_self, or_true]

theorem ReportsWrapOf.trans_eq {s t u : State} {mayWrap : RegNum → Prop} (h : ReportsWrapOf s t mayWrap)
    (he : OverflowOf t u) : ReportsWrapOf s u mayWrap where
  sticky := by simpa only [KeepsOverflowSet, he.1, he.2] using h.sticky
  frame := h.frame.trans_eq he

theorem ReportsWrapOf.advance {s t : State} {mayWrap : RegNum → Prop} (h : ReportsWrapOf s t mayWrap) :
    ReportsWrapOf s (advance t) mayWrap :=
  h.trans_eq ⟨rfl, rfl⟩

theorem OverflowSetBy.keepsOverflowSet {s t : State} {p7 p15 : Prop} (h : OverflowSetBy s t p7 p15) :
    KeepsOverflowSet s t := by
  obtain ⟨h7s, h7i, h15s, h15i⟩ := h
  exact ⟨fun hs => h7s.mpr (.inl hs), fun hs => h15s.mpr (.inl hs), fun hs => h7i.mpr (.inl hs),
    fun hs => h15i.mpr (.inl hs)⟩

/-- Putting an address out reports a wrap of the index register of a post-modify alone. -/
theorem addressOutput_reportsWrapOf {s t : State} {mode : AddrMode} {n : RegNum} {m a : Word}
    (h : addressOutput mode s n m = .next (a, t)) : ReportsWrapOf s t fun k => mode = .post ∧ n = k where
  sticky := by
    rcases addressOutput_next h with ⟨-, rfl⟩ | ⟨-, v, w, rfl⟩
    · exact ⟨id, id, id, id⟩
    · exact (overflowSetBy_after s n v w).keepsOverflowSet
  frame := (addressOutput_sameOverflow h).mono fun _ ⟨hm, hn, _⟩ => ⟨hm, hn.symm⟩

theorem loadForm_reportsWrapOf {mode : AddrMode} {u : Ureg} {bus : Bus} {ia : RegNum} {md : Modifier} {w : Nat}
    {s t : State} (h : loadForm mode u bus ia md w s = .next t) :
    ReportsWrapOf s t fun n => mode = .post ∧ ia = n := by
  obtain ⟨m, a, s1, pl, v, s2, -, -, haddr, -, hread, rfl⟩ := loadForm_next h
  obtain ⟨d, rfl⟩ := memRead_kept hread
  exact (addressOutput_reportsWrapOf haddr).trans_eq (by simp [OverflowOf])

theorem storeForm_reportsWrapOf {mode : AddrMode} {u : Ureg} {bus : Bus} {ia : RegNum} {md : Modifier} {w : Nat}
    {s t : State} (h : storeForm mode u bus ia md w s = .next t) :
    ReportsWrapOf s t fun n => mode = .post ∧ ia = n := by
  obtain ⟨m, a, s1, pl, -, -, haddr, -, -, rfl⟩ := storeForm_next h
  exact (addressOutput_reportsWrapOf haddr).trans_eq ⟨rfl, rfl⟩

theorem afterDualAddresses_reportsWrapOf {s : State} {x y : Access} {dx dy : DataReg} {bx bM : RegNum} {ux uy : Update}
    (h : DualReady s x y dx dy bx bM ux uy) :
    ReportsWrapOf s (afterDualAddresses s x y ux uy) fun n => x.idx = n ∨ y.idx = n where
  sticky := (afterDualAddresses_setBy h).keepsOverflowSet
  frame := (afterDualAddresses_setBy h).sameOverflow (fun hx => .inl hx.1) fun hy => .inr hy.1

theorem exec_dualMove_reportsWrapOf {x y : Access} {s t : State} (hi : exec (.dualMove x y) s = .next t) :
    ReportsWrapOf s t fun n => x.idx = n ∨ y.idx = n := by
  obtain ⟨dx, dy, bx, bM, ux, uy, h⟩ := exec_dualMove_ready hi
  obtain ⟨d, mem, ws, vs, rfl⟩ := h.eq_of_exec_next hi
  exact (afterDualAddresses_reportsWrapOf h).trans_eq (by simp [OverflowOf])

theorem keepOrSet_of_set {s : State} {k : Nat} {old : Bool} (h : old = true) : keepOrSet s k old = true := by
  rw [keepOrSet, h, Bool.true_or]

/-- A wrap made by MODIFY keeps or sets the bits of its register (R99). -/
theorem noteModifyOverflow_keepsOverflowSet (s : State) (n : RegNum) (w : Bool) :
    KeepsOverflowSet s (noteModifyOverflow s n w) := by
  unfold noteModifyOverflow
  split
  · exact ⟨keepOrSet_of_set, id, keepOrSet_of_set, id⟩
  · split
    · exact ⟨id, keepOrSet_of_set, id, keepOrSet_of_set⟩
    · exact ⟨id, id, id, id⟩

theorem modifyIndex_reportsWrapOf {s t : State} {ia : RegNum} {m : Word} (h : modifyIndex s ia m = .next t) :
    ReportsWrapOf s t fun n => ia = n where
  sticky := by
    obtain ⟨u, -, rfl⟩ := modifyIndex_next h
    simpa only [KeepsOverflowSet, writeDag_stkyx, writeDag_latch] using
      noteModifyOverflow_keepsOverflowSet (writeDag s .i ia u.value) ia u.wrapped
  frame := (modifyIndex_sameOverflow h).mono fun _ hn => hn.1.symm

theorem moveEffect_overflowOf {s u : State} {o : Bool × Bool} {dst src : Ureg} (h : moveEffect s o dst src = .next u) :
    OverflowOf s u := by
  rcases moveEffect_next h with ⟨k, n, j, m, -, -, rfl⟩ | ⟨k, n, x, -, -, rfl⟩ | ⟨k, n, x, -, -, rfl⟩
  · simp only [OverflowOf, dagToDag, apply_ite State.stkyx, apply_ite State.latch, writeDag_stkyx, writeDag_latch, ite_self,
      and_self]
  · simp only [OverflowOf, dataToDag, apply_ite State.stkyx, apply_ite State.latch, writeDag_stkyx, writeDag_latch,
      ite_self, and_self]
  · exact ⟨writeAll_stkyx s _, writeAll_latch s _⟩

/-- An instruction that completes reports wraps of the index registers it updates by post-modify or MODIFY alone (R99). -/
theorem exec_reportsWrapOf {i : Instr} {s t : State} (h : exec i s = .next t) :
    ReportsWrapOf s t fun n => updatesIndex n i = true := by
  cases i with
  | loadPostM | loadPostImm | loadPreM | loadPreImm => simpa [updatesIndex] using loadForm_reportsWrapOf h
  | storePostM | storePostImm | storePreM | storePreImm => simpa [updatesIndex] using storeForm_reportsWrapOf h
  | dualMove => simpa [updatesIndex] using exec_dualMove_reportsWrapOf h
  | modifyM ia mb =>
    simp only [exec, execModifyM, andThen_next, Host.Outcome.next.injEq] at h
    obtain ⟨m, -, u, hu, rfl⟩ := h
    simpa [updatesIndex] using (modifyIndex_reportsWrapOf hu).advance
  | modifyImm ia imm =>
    simp only [exec, execModifyImm, andThen_next, Host.Outcome.next.injEq] at h
    obtain ⟨m, -, u, hu, rfl⟩ := h
    simpa [updatesIndex] using (modifyIndex_reportsWrapOf hu).advance
  | jumpIndirect => cases h
  | pushSts =>
    cases h
    exact OverflowOf.reportsWrapOf (by simp [OverflowOf]) _
  | bitrevImm ia imm =>
    simp only [exec, execBitrevImm, andThen_next, Host.Outcome.next.injEq] at h
    obtain ⟨m, -, -, -, rfl⟩ := h
    exact OverflowOf.reportsWrapOf (by simp [OverflowOf]) _
  | dagregLoadImm k n imm =>
    simp only [exec, execDagregLoadImm, andThen_next, Host.Outcome.next.injEq] at h
    obtain ⟨v, -, rfl⟩ := h
    exact OverflowOf.reportsWrapOf (by simp [OverflowOf]) _
  | uregMove c dst src =>
    simp only [exec, execUregMove, andThen_next, Host.Outcome.next.injEq] at h
    obtain ⟨u, hu, rfl⟩ := h
    obtain ⟨hstky, hlatch⟩ := moveEffect_overflowOf hu
    have he : OverflowOf s u := ⟨hstky.trans (popCond_stkyx s c), hlatch.trans (popCond_latch s c)⟩
    exact (he.reportsWrapOf _).advance

/-! ## MODIFY and CBUFEN -/

theorem noteModifyOverflow_withCbufen (s : State) (n : RegNum) (w cb : Bool) :
    noteModifyOverflow (withCbufen s cb) n w = withCbufen (noteModifyOverflow s n w) cb := by
  unfold noteModifyOverflow
  split
  · rfl
  · split <;> rfl

/-- The index update of MODIFY neither reads nor writes CBUFEN (R92). -/
theorem modifyIndex_withCbufen (s : State) (n : RegNum) (m : Word) (cb : Bool) :
    modifyIndex (withCbufen s cb) n m = mapNext (fun t => withCbufen t cb) (modifyIndex s n m) := by
  have hnext : nextIndex (withCbufen s cb) n m (circMOD (withCbufen s cb) n) = nextIndex s n m (circMOD s n) := rfl
  rw [modifyIndex, modifyIndex, hnext]
  cases nextIndex s n m (circMOD s n) with
  | next u => exact congrArg Host.Outcome.next (noteModifyOverflow_withCbufen (writeDag s .i n u.value) n u.wrapped cb)
  | fault r => rfl
  | refused r => rfl

theorem exec_isModify_withCbufen {s : State} {ia : RegNum} {m : Word} {i : Instr} (h : IsModify s ia m i) (cb : Bool) :
    exec i (withCbufen s cb) = mapNext (fun t => withCbufen t cb) (exec i s) := by
  have hcb : IsModify (withCbufen s cb) ia m i := h
  rw [exec_of_isModify hcb, exec_of_isModify h, modifyIndex_withCbufen]
  cases modifyIndex s ia m <;> rfl

/-- With a length MODIFY answers the circular update on its domain (R92). -/
theorem modifyIndex_of_domain {s : State} {n : RegNum} {m : Word} (hl : s.lReg[n] ≠ 0)
    (h : CircularDomain s.iReg[n] s.bReg[n] s.lReg[n] m) :
    modifyIndex s n m =
      .next (noteModifyOverflow (writeDag s .i n (circularUpdate s.iReg[n] s.bReg[n] s.lReg[n] m).value) n
        (circularUpdate s.iReg[n] s.bReg[n] s.lReg[n] m).wrapped) := by
  have hcirc : circMOD s n = true := decide_eq_true hl
  rw [modifyIndex, hcirc, nextIndex, if_pos rfl, circularNext_of_domain h, andThen_of_next]

/-! ## The status push -/

theorem keepOrClear_cases (s : State) (k : Nat) (old : Bool) :
    keepOrClear s k old = old ∨ keepOrClear s k old = false := by
  cases old with
  | false => exact .inl rfl
  | true => exact Bool.eq_false_or_eq_true _

theorem pushMode_keptOrCleared (s : State) (cb : Bool) : KeptOrCleared s (pushMode s cb) :=
  ⟨keepOrClear_cases s 0 _, keepOrClear_cases s 1 _, keepOrClear_cases s 2 _, keepOrClear_cases s 3 _,
    keepOrClear_cases s 4 _⟩

end Sys2Proof.Machine

namespace Sys2Proof.Proofs

open Sys2Proof.Machine

/-- Settles O12: wraps set bits of the overflow status, and nothing else an instruction does writes it. -/
theorem overflowStatusSticky : Obligations.OverflowStatusSticky := fun _ _ _ h => (exec_reportsWrapOf h).sticky

/-- Settles O13, form by form. -/
theorem onlyReportingIndexSetsOverflow : Obligations.OnlyReportingIndexSetsOverflow := fun _ _ _ h =>
  (exec_reportsWrapOf h).frame

/-- Settles O19, by the three cases of the circular value; a correction wraps since the buffer is not empty. -/
theorem circularUpdateStaysInBuffer : Obligations.CircularUpdateStaysInBuffer := by
  intro cur base len m u h
  obtain ⟨hdom, rfl⟩ := circularNext_eq_next_iff.mp h
  obtain ⟨hlow, hhigh⟩ := circularUpdate_inBuffer hdom
  refine ⟨hlow, hhigh, ?_⟩
  have hlen : 0 < len.toNat := by omega
  rw [circularUpdate_toNat hdom, ← Bool.not_eq_true, circularUpdate_wrapped_iff]
  rcases circularValue_cases cur base len m with hv | ⟨hv, hm⟩ | ⟨hv, hm⟩
  · exact .inl ⟨hv, not_not.mpr hv⟩
  · exact .inr (.inl ⟨hv, hm, by omega⟩)
  · exact .inr (.inr ⟨hv, hm, by omega⟩)

/-- Settles O20: an answer is one on the domain, and each refusal is that of the first condition that fails. -/
theorem circularUpdateDomain : Obligations.CircularUpdateDomain := by
  intro cur base len m
  refine ⟨⟨fun h => ⟨_, circularNext_of_domain h⟩, fun ⟨u, hu⟩ => (circularNext_eq_next_iff.mp hu).1⟩,
    fun hlen => ?_, fun hlen htop => ?_, fun hlen htop hidx => ?_, fun hlen htop hlow hhigh hdom => ?_,
    fun hlen htop hlow hhigh hstep => ⟨hlen, htop, hlow, hhigh, by omega, by omega⟩⟩
  all_goals refine circularNext_of_refused ?_
  · rw [UpdateRefused, if_pos hlen]
  · rw [UpdateRefused, if_neg (by omega), if_pos htop]
  · rw [UpdateRefused, if_neg (by omega), if_neg (by omega), if_pos hidx]
  · rw [UpdateRefused, if_neg (by omega), if_neg (by omega), if_neg (by omega)]
    exact ⟨hdom, rfl⟩

/-- Settles O23: with CBUFEN clear no post-modify reads a B or an L register. -/
theorem clearedCbufenNeverWraps : Obligations.ClearedCbufenNeverWraps := by
  intro s hs
  have hplain := circLS_of_cbufen_clear hs
  refine ⟨fun t u bus ia m i h hi => ?_, fun t x y bx bM hx hy hi => ?_, fun n m bs ls => ?_⟩
  · rcases h with h | h
    · exact (exec_isLoad_postModified h hi).eq_add (hplain ia)
    · exact (exec_isStore_postModified h hi).eq_add (hplain ia)
  · obtain ⟨bx', bM', hx', hy', hxm, hym⟩ := exec_dualMove_postModified hi
    obtain ⟨⟩ := hx.symm.trans hx'
    obtain ⟨⟩ := hy.symm.trans hy'
    exact ⟨hxm.eq_add (hplain x.idx), hym.eq_add (hplain y.idx)⟩
  · have hother : circLS { s with bReg := bs, lReg := ls } n = false := circLS_of_cbufen_clear (by exact hs) n
    exact ⟨_, _, postModify_plain m (hplain n), postModify_plain m hother⟩

/-- Settles O24: the value a circular post-modify writes back is in the buffer, and the rest of the access writes no DAG
register of that number. -/
theorem circularIndexStaysInBuffer : Obligations.CircularIndexStaysInBuffer := by
  refine fun s t => ⟨fun u bus ia m i h hi hc => ?_, fun x y hi => ?_⟩
  · rcases h with h | h
    · exact (exec_isLoad_postModified h hi).staysInBuffer hc
    · exact (exec_isStore_postModified h hi).staysInBuffer hc
  · obtain ⟨bx, bM, -, -, hx, hy⟩ := exec_dualMove_postModified hi
    exact ⟨hx.staysInBuffer, hy.staysInBuffer⟩

/-- Settles O33: after the address output a store writes the bytes of its word alone. -/
theorem storeWritesWord : Obligations.StoreWritesWord := by
  intro s mode u bus ia m i a s1 pl h
  have hpc := (addressOutput_kept h.address).pc
  exact ⟨_, h.exec_eq, by simp [hpc], rfl, ⟨rfl, rfl⟩, h.readBytes_stored h.exec_eq⟩

/-- Settles O41: MODIFY reads L and not CBUFEN, and notes an overflow for a wrap alone. -/
theorem modifyWrapsWhateverCbufen : Obligations.ModifyWrapsWhateverCbufen := by
  refine fun s ia m i h => ⟨exec_isModify_withCbufen h, fun hl hdom => ?_⟩
  refine ⟨_, by rw [exec_of_isModify h, modifyIndex_of_domain hl hdom, andThen_of_next], by simp, ?_, fun hsum => ?_⟩
  · simpa [writeDag] using circularUpdate_toNat hdom
  · have hw : (circularUpdate s.iReg[ia] s.bReg[ia] s.lReg[ia] m).wrapped = false := by
      rw [← Bool.not_eq_true, circularUpdate_wrapped_iff]
      exact not_not.mpr hsum
    rw [hw]
    exact ⟨rfl, rfl⟩

/-- Settles O45: the status push writes MODE1 and takes draws. -/
theorem pushStatusClearsCbufen : Obligations.PushStatusClearsCbufen := by
  intro s
  refine ⟨_, rfl, rfl, fun hm => ?_, fun hm => ?_, pushMode_keptOrCleared s _, fun _ _ => .inr rfl, fun _ => .inr rfl, rfl,
    rfl, ⟨.inr ⟨rfl, rfl⟩, .inr ⟨rfl, rfl⟩⟩, fun _ => rfl, ⟨rfl, rfl, rfl⟩, rfl⟩
  · simp [advance, pushMode, maskedCbufen, hm]
  · simp [advance, pushMode, maskedCbufen, hm]

end Sys2Proof.Proofs
end

section
/-! Proofs of the family 42_bit_reversal.md: the reversal of a word, the index registers it applies to, and BITREV. -/

namespace Sys2Proof.Machine

/-! ## Bit reversal -/

theorem getLsbD_rev32 (v : Word) {i : Nat} (h : i < 32) : (rev32 v).getLsbD i = v.getLsbD (31 - i) := by
  rw [rev32, BitVec.getLsbD_reverse, BitVec.getMsbD, decide_eq_true h, Bool.true_and]

theorem rev32_rev32 (v : Word) : rev32 (rev32 v) = v := BitVec.reverse_reverse_eq

/-- The mode applies to I0 and to I8, each under its own bit (R102). -/
theorem bitReversed_iff {s : State} {n : RegNum} :
    bitReversed s n = true ↔ (n = 0 ∧ s.mode1.br0 = true) ∨ (n = 8 ∧ s.mode1.br8 = true) := by
  rw [bitReversed, brReg_dag1, brReg_dag2, Bool.or_eq_true, Bool.and_eq_true, Bool.and_eq_true, decide_eq_true_iff,
    decide_eq_true_iff]

theorem postModify_of_bitReversed_circular {s : State} {n : RegNum} (m : Word) (hb : bitReversed s n = true)
    (hc : circLS s n = true) : postModify s n m = .refused .bitReverseWithCircular := by
  rw [postModify, hb, hc, Bool.and_self, Bool.not_true, require_false, andThen_of_refused]

/-! ## BITREV -/

theorem immediate_of_fits {w : Nat} {v : Int} (h : immFits w v = true) : immediate w v = .next (immWord v) := by
  rw [immediate, h, require_true, andThen_of_next]

/-- With an immediate that fits and no length, BITREV writes the reversed sum to I[ia] (R103). -/
theorem execBitrevImm_of_plain {s : State} {ia : RegNum} {imm : Int}
    (h : immFits s.platform.immWidth.bitrev imm = true) (hl : s.lReg[ia] = 0) :
    execBitrevImm ia imm s = .next (advance (writeDag s .i ia (rev32 (s.iReg[ia] + immWord imm)))) := by
  rw [execBitrevImm, immediate_of_fits h, andThen_of_next, decide_eq_true hl, require_true, andThen_of_next, addIndex_eq]

/-- With an immediate that fits and a length, BITREV is refused (R103). -/
theorem execBitrevImm_of_circular {s : State} {ia : RegNum} {imm : Int}
    (h : immFits s.platform.immWidth.bitrev imm = true) (hl : s.lReg[ia] ≠ 0) :
    execBitrevImm ia imm s = .refused .bitrevOnCircularIndex := by
  rw [execBitrevImm, immediate_of_fits h, andThen_of_next, decide_eq_false hl, require_false, andThen_of_refused]

end Sys2Proof.Machine

namespace Sys2Proof.Proofs

open Sys2Proof.Machine

/-- Settles O22: the reversal of a word is that of its bits, and the mode applies to I0 and I8 under their bits. -/
theorem bitReversedOutput : Obligations.BitReversedOutput :=
  ⟨fun v _ => getLsbD_rev32 v, rev32_rev32, fun s n a => by simp only [outAddr, bitReversed_iff],
    fun _ _ m => postModify_of_bitReversed_circular m⟩

/-- Settles O43: with no length BITREV is a write of I[ia], which changes nothing but that register. -/
theorem bitrevReversesSum : Obligations.BitrevReversesSum := by
  refine fun s ia imm hfits => ⟨fun hl => ?_, execBitrevImm_of_circular hfits⟩
  have hk := writeDag_keptByEffect s .i ia (rev32 (s.iReg[ia] + immWord imm))
  refine ⟨_, execBitrevImm_of_plain hfits hl, readDag_writeDag_same s .i ia _, congrArg (· + 1) hk.pc,
    (writeDag_i_sameDagBut s ia _).trans_eq fun _ _ => rfl, fun d => .inr (readData_congr (by simp) (by simp) d),
    ⟨hk.mode1, hk.mmaskCbufen, hk.stkyy⟩, (OverflowOf.reportsWrapOf (by simp [OverflowOf]) _).frame, fun k => by simp,
    ⟨hk.program, hk.platform, hk.events⟩, by simp, by simp⟩

end Sys2Proof.Proofs
end

section
/-! Proofs of the family 43_broadcast_loads.md: what a broadcast load leaves in both processing elements, where it is refused,
and that the broadcast bits decide nothing else. -/

namespace Sys2Proof.Machine

/-! ## Which loads are broadcast -/

theorem broadcast_iff {s : State} {bus : Bus} {n : RegNum} :
    broadcast s bus n = true ↔
      (bus = .pm ∧ n = 9 ∧ s.mode1.bdcst9 = true) ∨ (bus = .dm ∧ n = 1 ∧ s.mode1.bdcst1 = true) := by
  cases bus <;> simp [broadcast]

/-- With both bits clear no load is broadcast (R105, R106). -/
theorem broadcast_withBroadcast_clear (s : State) (bus : Bus) (n : RegNum) :
    broadcast (withBroadcast s false false) bus n = false := by
  cases bus <;> exact Bool.and_false _

/-! ## The two processing elements -/

theorem writeAll_laneWrites_s_rReg (s : State) (c : WordClass) (x : DregNum) (v : Long) :
    (writeAll s (laneWrites c (.s x) v)).rReg = s.rReg := by
  cases c <;> rfl

/-- A load of R[x] writes PEx's registers the same, broadcast or not (R105). -/
theorem loadWrites_rReg (s : State) (c : WordClass) (x : DregNum) (v : Long) (b : Bool) :
    (writeAll s (loadWrites c (.r x) v b)).rReg = (writeAll s (loadWrites c (.r x) v false)).rReg := by
  cases b with
  | false => rfl
  | true => simp only [loadWrites, writeAll_append, writeAll_laneWrites_s_rReg]

/-- A load of R[x] that is not broadcast writes no register of PEy (R111). -/
theorem loadWrites_sReg (s : State) (c : WordClass) (x : DregNum) (v : Long) :
    (writeAll s (loadWrites c (.r x) v false)).sReg = s.sReg := by
  cases c <;> rfl

/-! ## What does not read the broadcast bits -/

section
variable (s : State) (b1 b9 : Bool)

@[simp] theorem withBroadcast_peyen : (withBroadcast s b1 b9).mode1.peyen = s.mode1.peyen := rfl

@[simp] theorem withBroadcast_platform : (withBroadcast s b1 b9).platform = s.platform := rfl

@[simp] theorem readDag_withBroadcast (k : DagKind) (n : RegNum) :
    readDag (withBroadcast s b1 b9) k n = readDag s k n := by
  cases k <;> rfl

@[simp] theorem readData_withBroadcast (d : DataReg) : readData (withBroadcast s b1 b9) d = readData s d := by
  cases d <;> rfl

theorem writeDag_withBroadcast (k : DagKind) (n : RegNum) (v : Word) :
    writeDag (withBroadcast s b1 b9) k n v = withBroadcast (writeDag s k n v) b1 b9 := by
  cases k <;> rfl

theorem writeData_withBroadcast (d : DataReg) (v : Data) :
    writeData (withBroadcast s b1 b9) d v = withBroadcast (writeData s d v) b1 b9 := by
  cases d <;> rfl

theorem writeAll_withBroadcast (ws : List (DataReg × Data)) :
    writeAll (withBroadcast s b1 b9) ws = withBroadcast (writeAll s ws) b1 b9 := by
  induction ws generalizing s with
  | nil => rfl
  | cons w ws ih => rw [writeAll, writeData_withBroadcast, ih, writeAll]

theorem loadDag_withBroadcast (c : WordClass) (k : DagKind) (n : RegNum) (v : Long) :
    loadDag (withBroadcast s b1 b9) c k n v = withBroadcast (loadDag s c k n v) b1 b9 := by
  cases c <;> simp only [loadDag, writeDag_withBroadcast]

theorem noteOverflow_withBroadcast (n : RegNum) (w : Bool) :
    noteOverflow (withBroadcast s b1 b9) n w = withBroadcast (noteOverflow s n w) b1 b9 := by
  simp only [noteOverflow, apply_ite (withBroadcast · b1 b9)]
  rfl

/-- The address computation and the index update neither read nor write the broadcast bits (R107). -/
theorem postModify_withBroadcast (n : RegNum) (m : Word) :
    postModify (withBroadcast s b1 b9) n m =
      andThen (postModify s n m) fun a => .next (a.1, withBroadcast a.2 b1 b9) := by
  have hrev : bitReversed (withBroadcast s b1 b9) n = bitReversed s n := rfl
  have hcirc : circLS (withBroadcast s b1 b9) n = circLS s n := rfl
  have hnext : nextIndex (withBroadcast s b1 b9) n m (circLS s n) = nextIndex s n m (circLS s n) := rfl
  have hout : outAddr (withBroadcast s b1 b9) n (withBroadcast s b1 b9).iReg[n] = outAddr s n s.iReg[n] := rfl
  simp only [postModify, hrev, hcirc, hnext, hout, writeDag_withBroadcast, noteOverflow_withBroadcast, andThen_assoc,
    andThen_of_next]

theorem preModify_withBroadcast (n : RegNum) (m : Word) :
    preModify (withBroadcast s b1 b9) n m =
      andThen (preModify s n m) fun a => .next (a.1, withBroadcast a.2 b1 b9) := by
  simp only [preModify, andThen_assoc, andThen_of_next]
  rfl

theorem addressOutput_withBroadcast (mode : AddrMode) (n : RegNum) (m : Word) :
    addressOutput mode (withBroadcast s b1 b9) n m =
      andThen (addressOutput mode s n m) fun a => .next (a.1, withBroadcast a.2 b1 b9) := by
  cases mode with
  | post => exact postModify_withBroadcast s b1 b9 n m
  | pre => exact preModify_withBroadcast s b1 b9 n m

theorem memRead_withBroadcast (a : Word) (pl : Place) :
    memRead (withBroadcast s b1 b9) a pl =
      andThen (memRead s a pl) fun vs => .next (vs.1, withBroadcast vs.2 b1 b9) := by
  cases hshared : touches pl s.platform.shared with
  | true => rw [memRead_of_shared a hshared, memRead_of_shared (s := withBroadcast s b1 b9) a hshared]; rfl
  | false =>
    cases hbytes : readBytes s.mem pl.start (placeBytes pl) with
    | some v =>
      rw [memRead_of_written a hshared hbytes, memRead_of_written (s := withBroadcast s b1 b9) a hshared hbytes]
      rfl
    | none =>
      rw [memRead_of_unwritten a hshared hbytes, memRead_of_unwritten (s := withBroadcast s b1 b9) a hshared hbytes]
      rfl

theorem memWrite_withBroadcast (pl : Place) (v : Long) :
    memWrite (withBroadcast s b1 b9) pl v = andThen (memWrite s pl v) fun t => .next (withBroadcast t b1 b9) := by
  simp only [memWrite, withBroadcast_platform, andThen_assoc, andThen_of_next]
  rfl

@[simp] theorem dataWord_withBroadcast (c : WordClass) (d : DataReg) :
    dataWord (withBroadcast s b1 b9) c d = dataWord s c d := by
  cases c <;> simp only [dataWord, readData_withBroadcast]

@[simp] theorem storeWord_withBroadcast (c : WordClass) (u : Ureg) :
    storeWord (withBroadcast s b1 b9) c u = storeWord s c u := by
  cases u with
  | dag k n => cases c <;> simp only [storeWord, dagWord, readDag_withBroadcast]
  | data d => exact dataWord_withBroadcast s b1 b9 c d
  | sys q => rfl

theorem storeFrom_withBroadcast (old : State) (u : Ureg) (bus : Bus) (a : Word) :
    storeFrom (withBroadcast old b1 b9) (withBroadcast s b1 b9) u bus a =
      andThen (storeFrom old s u bus a) fun t => .next (withBroadcast t b1 b9) := by
  simp only [storeFrom, withBroadcast_platform, storeWord_withBroadcast, memWrite_withBroadcast, andThen_assoc]

end

/-! ## Transfers the broadcast bits have no effect on -/

theorem mapNext_andThen {α : Type} (f : State → State) (o : Res α) (g : α → Res State) :
    mapNext f (andThen o g) = andThen o fun a => mapNext f (g a) := by
  cases o <;> rfl

/-- A store reads no broadcast bit (R107). -/
theorem exec_isStore_withBroadcast {s : State} {mode : AddrMode} {u : Ureg} {bus : Bus} {ia : RegNum} {m : Word}
    {i : Instr} (h : IsStore s mode u bus ia m i) (b1 b9 : Bool) :
    exec i (withBroadcast s b1 b9) = mapNext (fun t => withBroadcast t b1 b9) (exec i s) := by
  have hb : IsStore (withBroadcast s b1 b9) mode u bus ia m i := h
  simp only [exec_of_isStore hb, exec_of_isStore h, addressOutput_withBroadcast, storeFrom_withBroadcast, mapNext_andThen,
    andThen_assoc, andThen_of_next]
  rfl

/-- A load of no data register loads the same whatever the broadcast bits (R107). -/
theorem loadInto_withBroadcast {u : Ureg} (hu : ∀ d, u ≠ .data d) (s : State) (b1 b9 : Bool) (bus : Bus) (n : RegNum)
    (a : Word) :
    loadInto (withBroadcast s b1 b9) u bus n a =
      andThen (loadInto s u bus n a) fun t => .next (withBroadcast t b1 b9) := by
  have hreg (t : State) (c : WordClass) (v : Long) (b b' : Bool) :
      loadReg (withBroadcast t b1 b9) c u v b = withBroadcast (loadReg t c u v b') b1 b9 := by
    cases u with
    | dag k n => exact loadDag_withBroadcast t b1 b9 c k n v
    | data d => exact absurd rfl (hu d)
    | sys q => rfl
  simp only [loadInto, withBroadcast_platform, memRead_withBroadcast, andThen_assoc, andThen_of_next,
    hreg _ _ _ _ (broadcast s bus n)]

theorem loadGuard_withBroadcast {u : Ureg} (hu : ∀ d, u ≠ .data d) (s : State) (b1 b9 : Bool) (mode : AddrMode) (bus : Bus)
    (ia : RegNum) : loadGuard (withBroadcast s b1 b9) mode bus ia u = loadGuard s mode bus ia u := by
  have hs : isSReg u = false := by
    cases u with
    | data d => exact absurd rfl (hu d)
    | dag k n => rfl
    | sys q => rfl
  simp only [loadGuard, withBroadcast_peyen, hs, Bool.and_false]

theorem exec_isLoad_withBroadcast {s : State} {mode : AddrMode} {u : Ureg} {bus : Bus} {ia : RegNum} {m : Word}
    {i : Instr} (h : IsLoad s mode u bus ia m i) (hu : ∀ d, u ≠ .data d) (b1 b9 : Bool) :
    exec i (withBroadcast s b1 b9) = mapNext (fun t => withBroadcast t b1 b9) (exec i s) := by
  have hb : IsLoad (withBroadcast s b1 b9) mode u bus ia m i := h
  simp only [exec_of_isLoad hb, exec_of_isLoad h, loadGuard_withBroadcast hu, addressOutput_withBroadcast,
    loadInto_withBroadcast hu, mapNext_andThen, andThen_assoc, andThen_of_next]
  rfl

/-- A dual move of two stores reads no broadcast bit (R107). -/
theorem exec_dualStores_withBroadcast {x y : Access} (hx : x.dir = .store) (hy : y.dir = .store) (s : State)
    (b1 b9 : Bool) :
    exec (.dualMove x y) (withBroadcast s b1 b9) =
      mapNext (fun t => withBroadcast t b1 b9) (exec (.dualMove x y) s) := by
  have hoperand (bus : Bus) (n b : RegNum) :
      operand (withBroadcast s b1 b9) bus n 0 (.reg b) = operand s bus n 0 (.reg b) := rfl
  have hguard (n : RegNum) (u : Ureg) : storeGuard (withBroadcast s b1 b9) n u = storeGuard s n u := rfl
  simp only [exec, execDualMove, sideGuard, sideAccess, hx, hy, withBroadcast_platform, withBroadcast_peyen, hoperand,
    hguard, postModify_withBroadcast, memWrite_withBroadcast, dataWord_withBroadcast, mapNext_andThen, andThen_assoc,
    andThen_of_next]
  rfl

/-- A load of a DAG register changes no data register, and of the DAG registers its destinations and I[ia] of a post-modify
form alone (R107, R119 to R121). -/
theorem exec_isLoad_dag_registers {s s1 t : State} {mode : AddrMode} {k : DagKind} {n : RegNum} {bus : Bus} {ia : RegNum}
    {m a : Word} {i : Instr} (h : IsLoad s mode (.dag k n) bus ia m i) (haddr : addressOutput mode s ia m = .next (a, s1))
    (hi : exec i s = .next t) :
    SameDataBut s t (fun _ => False) ∧
      SameDagBut s t fun j q => (mode = .post ∧ j = .i ∧ q = ia) ∨ IsDagDest (wordClass s.platform a) k n j q := by
  have hk := addressOutput_kept haddr
  obtain ⟨-, pl, v, s2, hplace, hread, rfl⟩ := exec_isLoad_next h haddr hi
  obtain ⟨d, rfl⟩ := memRead_kept hread
  have hload : SameDagBut s1 (loadDag { s1 with draws := d } pl.cls k n v) (IsDagDest pl.cls k n) :=
    loadDag_sameDagBut { s1 with draws := d } pl.cls k n v
  refine ⟨fun e => .inr (readData_congr ?_ ?_ e), ?_⟩
  · simp [loadReg, hk.rReg]
  · simp [loadReg, hk.sReg]
  · rw [← dataPlace_cls hplace]
    exact ((addressOutput_sameDagBut haddr).trans hload).trans_eq fun _ _ => rfl

/-! ## Loads of data registers that run -/

theorem LoadRuns.exec_eq {s s1 : State} {mode : AddrMode} {u : Ureg} {bus : Bus} {ia : RegNum} {m a : Word} {i : Instr}
    {pl : Place} {v : Nat} (h : LoadRuns s mode u bus ia m i a s1 pl v) :
    exec i s = .next (advance (loadReg s1 pl.cls u (BitVec.ofNat 64 v) (broadcast s bus ia))) := by
  have hk := addressOutput_kept h.address
  have hread := memRead_of_written (s := s1) (pl := pl) a (by rw [hk.platform, h.unshared]) (by rw [hk.mem, h.written])
  exact exec_of_isLoad_of_memRead h.form (loadGuard_of h.given h.notClass2 h.simdOff h.noSBroadcast) h.address h.admitted
    hread

/-- A load of an R register runs whatever the broadcast bits (R107). -/
theorem LoadRuns.withBroadcast {s s1 : State} {mode : AddrMode} {x : DregNum} {bus : Bus} {ia : RegNum} {m a : Word}
    {i : Instr} {pl : Place} {v : Nat} (h : LoadRuns s mode (.data (.r x)) bus ia m i a s1 pl v) (b1 b9 : Bool) :
    LoadRuns (withBroadcast s b1 b9) mode (.data (.r x)) bus ia m i a (withBroadcast s1 b1 b9) pl v where
  form := h.form
  given := h.given
  notClass2 := h.notClass2
  simdOff := h.simdOff
  noSBroadcast := Bool.and_false _
  address := by rw [addressOutput_withBroadcast, h.address, andThen_of_next]
  admitted := h.admitted
  unshared := h.unshared
  written := h.written

/-! ## Broadcast by one side of a dual move -/

/-- What a side that loads R[q] leaves in PEy: where it is broadcast the parts of the word, otherwise what was there (R108,
R109). -/
theorem SideAccesses.sideWrites_sReg {s : State} {bus : Bus} {x : Access} {pl : Place} {k v : Nat}
    (h : SideAccesses s bus x pl k v) (hd : x.dir = .load) {b : Prop} [Decidable b]
    (hb : broadcast s bus x.idx = true ↔ b) (t : State) (q : DregNum) :
    readData (writeAll t (sideWrites s bus x (.r q) pl v)) (.s q) =
        (if b then namedValue pl.cls v else readData t (.s q)) ∧
      (pl.cls = .long64 → readData (writeAll t (sideWrites s bus x (.r q) pl v)) (.s (dataPairOf q)) =
        if b then partnerValue v else readData t (.s (dataPairOf q))) := by
  obtain ⟨-, hshort, hdata⟩ := dataPlace_next h.admitted
  simp only [sideWrites, hd]
  by_cases hbcast : b
  · obtain ⟨-, hpey⟩ := loadWrites_holds t pl.cls (.r q) v (broadcast s bus x.idx)
      (lt_two_pow_64_of_lt (h.loads hd).lt) hshort hdata
    simp only [if_pos hbcast]
    exact hpey (hb.mpr hbcast) q rfl
  · have hfalse : broadcast s bus x.idx = false := eq_false_of_ne_true (mt hb.mp hbcast)
    simp only [hfalse, if_neg hbcast, readData, loadWrites_sReg, implies_true, and_self]

theorem afterDualAccesses_readData (s : State) (x y : Access) (dx dy : DataReg) (ux uy : Update) (px py : Place)
    (d : DataReg) : readData (afterDualAccesses s x y dx dy ux uy px py) d = readData s d := by
  obtain ⟨n, m, he⟩ := afterDualAccesses_eq s x y dx dy ux uy px py
  rw [he]
  exact (afterDualAddresses_kept s x y ux uy).readData_eq d

/-! ## Where loads and stores are refused -/

section
variable {s : State} {mode : AddrMode} {bus : Bus} {ia : RegNum}

theorem loadGuard_of_simd (u : Ureg) (h : s.mode1.peyen = true) :
    loadGuard s mode bus ia u = .refused .simdMemoryAccess := by
  simp only [loadGuard, h, Bool.not_true, require_false, andThen_of_refused]

theorem storeGuard_of_simd (u : Ureg) (h : s.mode1.peyen = true) : storeGuard s ia u = .refused .simdMemoryAccess := by
  simp only [storeGuard, h, Bool.not_true, require_false, andThen_of_refused]

theorem loadGuard_of_sys (q : SysReg) (h : s.mode1.peyen = false) :
    loadGuard s mode bus ia (.sys q) = .refused .uregNotModelled := by
  simp only [loadGuard, h, isGiven, Bool.not_false, require_true, require_false, andThen_of_next, andThen_of_refused]

theorem storeGuard_of_sys (q : SysReg) (h : s.mode1.peyen = false) :
    storeGuard s ia (.sys q) = .refused .uregNotModelled := by
  simp only [storeGuard, h, isGiven, Bool.not_false, require_true, require_false, andThen_of_next, andThen_of_refused]

/-- With SIMD mode disabled the one load of a data register that is refused before its address is a broadcast load of an S
register (R111). -/
theorem loadGuard_of_data (d : DataReg) (h : s.mode1.peyen = false) :
    loadGuard s mode bus ia (.data d) = require (!(broadcast s bus ia && isSReg (.data d))) .broadcastToSReg := by
  simp only [loadGuard, h, isGiven, ofDagOf, Bool.and_false, Bool.not_false, require_true, andThen_of_next]

theorem storeGuard_of_data (d : DataReg) (h : s.mode1.peyen = false) : storeGuard s ia (.data d) = .next () :=
  storeGuard_of rfl rfl h

theorem exec_isLoad_of_guard_refused {u : Ureg} {m : Word} {i : Instr} {r : Refusal} (h : IsLoad s mode u bus ia m i)
    (hr : loadGuard s mode bus ia u = .refused r) : exec i s = .refused r := by
  rw [exec_of_isLoad h, hr, andThen_of_refused]

theorem exec_isStore_of_guard_refused {u : Ureg} {m : Word} {i : Instr} {r : Refusal} (h : IsStore s mode u bus ia m i)
    (hr : storeGuard s ia u = .refused r) : exec i s = .refused r := by
  rw [exec_of_isStore h, hr, andThen_of_refused]

end

/-- The checks of a dual move of the operand classes of R82, before its addresses. -/
theorem exec_of_dualSides {x y : Access} (hx : x.dualSide .dm = true) (hy : y.dualSide .pm = true) (s : State) :
    ∃ f : Unit → Res State, exec (.dualMove x y) s =
      andThen (require (!s.mode1.peyen) .simdMemoryAccess) fun _ =>
      andThen (require (!doubleLoad x y) .dualLoadSameDest) fun _ =>
      andThen (sideGuard s .dm x) fun _ =>
      andThen (sideGuard s .pm y) f := by
  obtain ⟨dx, bx, hox, hix, hbx⟩ := dualSide_operands hx
  obtain ⟨dy, bM, hoy, hiy, hbM⟩ := dualSide_operands hy
  exact ⟨_, by simp only [exec, execDualMove, hox, hoy, operand_of_dagOf s 0 hix hbx, operand_of_dagOf s 0 hiy hbM,
    andThen_of_next]; rfl⟩

/-- A side is a broadcast load of an S register (R111). -/
def BroadcastsToSReg (s : State) (bus : Bus) (a : Access) : Prop :=
  a.dir = .load ∧ broadcast s bus a.idx = true ∧ ∃ q, a.reg = .data (.s q)

theorem BroadcastsToSReg.sideGuard_refused {s : State} {bus : Bus} {a : Access} (h : BroadcastsToSReg s bus a)
    (hp : s.mode1.peyen = false) : sideGuard s bus a = .refused .broadcastToSReg := by
  obtain ⟨hd, hb, q, hq⟩ := h
  simp only [sideGuard, hd, hq, loadGuard_of_data _ hp, hb]
  rfl

/-- With SIMD mode disabled a side of the operand classes of R82 passes its checks, or is refused as a broadcast load of an S
register. -/
theorem sideGuard_of_dualSide {s : State} {bus : Bus} {a : Access} (h : a.dualSide bus = true)
    (hp : s.mode1.peyen = false) : sideGuard s bus a = .next () ∨ sideGuard s bus a = .refused .broadcastToSReg := by
  obtain ⟨d, b, ho, -⟩ := dualSide_operands h
  obtain ⟨hr, -, -⟩ := sideOperands_next ho
  cases hd : a.dir with
  | load =>
    simp only [sideGuard, hd, hr, loadGuard_of_data d hp]
    cases broadcast s bus a.idx && isSReg (.data d) with
    | true => exact .inr rfl
    | false => exact .inl rfl
  | store => exact .inl (by simp only [sideGuard, hd, hr, storeGuard_of_data d hp])

end Sys2Proof.Machine

namespace Sys2Proof.Proofs

open Sys2Proof.Machine

/-- Settles O26: both elements take the same parts of the word where the load is broadcast, PEx alone where it is not. -/
theorem broadcastLoadsBothElements : Obligations.BroadcastLoadsBothElements := by
  intro s mode x bus ia m i a s1 pl v h
  obtain ⟨-, hshort, hdata⟩ := dataPlace_next h.admitted
  have hk := addressOutput_kept h.address
  have hclear := (h.withBroadcast false false).exec_eq
  rw [broadcast_withBroadcast_clear, loadReg, writeAll_withBroadcast] at hclear
  refine ⟨_, _, h.exec_eq, hclear, loadWrites_rReg s1 pl.cls x _ _, (loadWrites_sReg s1 pl.cls x _).trans hk.sReg, ?_⟩
  intro bcast
  refine ⟨fun hb => ?_, fun hb => ?_⟩
  · obtain ⟨⟨hnamed, hpartner⟩, hpey⟩ := loadWrites_holds s1 pl.cls (.r x) v (broadcast s bus ia)
      (lt_two_pow_64_of_lt (readBytes_lt h.written)) hshort hdata
    obtain ⟨hnamedS, hpartnerS⟩ := hpey (broadcast_iff.mpr hb) x rfl
    exact ⟨hnamedS.trans hnamed.symm, fun hc => (hpartnerS hc).trans (hpartner hc).symm⟩
  · rw [eq_false_of_ne_true (mt broadcast_iff.mp hb)]
    exact (loadWrites_sReg s1 pl.cls x _).trans hk.sReg

/-- Settles O37: a register of PEy that the other side does not load is what this side's writes leave in it. -/
theorem dualMoveBroadcast : Obligations.DualMoveBroadcast := by
  intro s x y dx dy bx bM ux uy px py vx vy h
  have hdm : broadcast s .dm x.idx = true ↔ x.idx = 1 ∧ s.mode1.bdcst1 = true := by simp [broadcast]
  have hpm : broadcast s .pm y.idx = true ↔ y.idx = 9 ∧ s.mode1.bdcst9 = true := by simp [broadcast]
  have hkept (d : DataReg) := afterDualAccesses_readData s x y dx dy ux uy px py d
  refine ⟨_, h.exec_eq, fun q hd hq => ?_, fun q hd hq => ?_⟩
  · obtain ⟨hnamed, hpartner⟩ := h.dmAccess.sideWrites_sReg hd hdm (afterDualAccesses s x y dx dy ux uy px py) q
    rw [hkept] at hnamed hpartner
    subst hq
    exact ⟨fun hn => (readData_dualWrites_dm hn).trans hnamed,
      fun hc hn => (readData_dualWrites_dm hn).trans (hpartner hc)⟩
  · have hother {e : DataReg} (hn : ¬ (x.dir = .load ∧ IsLoadDest px.cls (broadcast s .dm x.idx) dx e)) :
        readData (writeAll (afterDualAccesses s x y dx dy ux uy px py) (sideWrites s .dm x dx px vx)) e = readData s e :=
      (readData_writeAll_of_not_mem fun _ hv => hn (sideWrites_dest hv)).trans (hkept e)
    obtain ⟨hnamed, hpartner⟩ := h.pmAccess.sideWrites_sReg hd hpm
      (writeAll (afterDualAccesses s x y dx dy ux uy px py) (sideWrites s .dm x dx px vx)) q
    subst hq
    exact ⟨fun hn => (readData_dualWrites_pm hn).trans (hother hn ▸ hnamed),
      fun hc hn => (readData_dualWrites_pm hn).trans (hother hn ▸ hpartner hc)⟩

/-- Settles O58, check by check in the order of a load, a store and a dual move. -/
theorem simdAndBroadcastRefused : Obligations.SimdAndBroadcastRefused := by
  refine ⟨fun s mode bus ia m i u hp h => ?_, fun s x y hp hx hy => ?_, fun s mode bus ia m i x hp hb h => ?_,
    fun s x y hp hx hy hd h => ?_, fun s mode bus ia m i q hp h => ?_⟩
  · rcases h with h | h
    · exact exec_isLoad_of_guard_refused h (loadGuard_of_simd u hp)
    · exact exec_isStore_of_guard_refused h (storeGuard_of_simd u hp)
  · obtain ⟨f, he⟩ := exec_of_dualSides hx hy s
    rw [he, hp, Bool.not_true, require_false, andThen_of_refused]
  · refine exec_isLoad_of_guard_refused h ?_
    rw [loadGuard_of_data _ hp, hb]
    rfl
  · obtain ⟨f, he⟩ := exec_of_dualSides hx hy s
    simp only [hp, hd, Bool.not_false, require_true, andThen_of_next] at he
    rw [he]
    rcases h with hdm | hpm
    · rw [BroadcastsToSReg.sideGuard_refused hdm hp, andThen_of_refused]
    · rw [BroadcastsToSReg.sideGuard_refused hpm hp, andThen_of_refused]
      rcases sideGuard_of_dualSide hx hp with hg | hg <;> rw [hg]
      · rw [andThen_of_next]
      · rw [andThen_of_refused]
  · rcases h with h | h
    · exact exec_isLoad_of_guard_refused h (loadGuard_of_sys q hp)
    · exact exec_isStore_of_guard_refused h (storeGuard_of_sys q hp)

/-- Settles O60: of a transfer only the writes of a data register load and its check read the broadcast bits. -/
theorem broadcastSparesOtherTransfers : Obligations.BroadcastSparesOtherTransfers := by
  refine fun s b1 b9 => ⟨fun mode n m a t h => ?_, fun bus mode ia m i u h => ?_,
    fun x y hx hy => exec_dualStores_withBroadcast hx hy s b1 b9,
    fun bus mode ia m i k n a s1 t h haddr hi => exec_isLoad_dag_registers h haddr hi⟩
  · rw [addressOutput_withBroadcast, h, andThen_of_next]
  · rcases h with h | ⟨h, hu⟩
    · exact exec_isStore_withBroadcast h b1 b9
    · exact exec_isLoad_withBroadcast h hu b1 b9

end Sys2Proof.Proofs
end

section
/-! Proofs of the family 44_dag_register_transfers.md: what the loads, stores, immediate loads and moves of DAG registers
write, and what they leave as it was. -/

namespace Sys2Proof.Machine

/-! ## Loads of DAG registers -/

/-- A load of a DAG register that runs leaves the word's value in the register and the upper half of a long word in its pair
partner; the index register of a post-modify form and the overflow status are those the address output leaves (R99, R119 to
R121). -/
theorem LoadRuns.dag_completes {s s1 : State} {mode : AddrMode} {k : DagKind} {n : RegNum} {bus : Bus} {ia : RegNum}
    {m a : Word} {i : Instr} {pl : Place} {v : Nat} (h : LoadRuns s mode (.dag k n) bus ia m i a s1 pl v) :
    ∃ t, exec i s = .next t ∧ t.pc = s.pc + 1 ∧ HoldsDag t k n (dagValue pl.cls v) ∧
      (pl.cls = .long64 → HoldsDag t k (pairOf n) (v / 2 ^ 32)) ∧ (mode = .post → t.iReg[ia] = s1.iReg[ia]) ∧
      OverflowOf s1 t := by
  obtain ⟨-, hshort, hdata⟩ := dataPlace_next h.admitted
  have hk := addressOutput_kept h.address
  obtain ⟨hnamed, hpartner⟩ := loadReg_holds s1 (broadcast s bus ia) h.given (readBytes_lt h.written) hshort hdata
  refine ⟨_, h.exec_eq, by simp [hk.pc], hnamed, hpartner, ?_, by simp [OverflowOf]⟩
  rintro rfl
  exact loadReg_iReg_of_not_ofDagOf s1 _ _ _ h.notClass2

/-! ## Immediate loads -/

/-- With an immediate that fits, the immediate load writes its 32 bits to K[n] (R113). -/
theorem execDagregLoadImm_of_fits {k : DagKind} {n : RegNum} {imm : Int} {s : State}
    (h : immFits s.platform.immWidth.loadImm imm = true) :
    execDagregLoadImm k n imm s = .next (advance (writeDag s k n (immWord imm))) := by
  rw [execDagregLoadImm, immediate_of_fits h, andThen_of_next]

/-- A write of K[n] leaves the value in K[n], and for a B register in I[n] (R19). -/
theorem readDag_writeDag_written (s : State) (k : DagKind) (n : RegNum) (v : Word) :
    readDag (writeDag s k n v) k n = v ∧ (k = .b → readDag (writeDag s k n v) .i n = v) := by
  refine ⟨readDag_writeDag_same s k n v, ?_⟩
  rintro rfl
  exact readDag_writeDag_same s .i n v

/-! ## What the transfer of a move writes under each outcome -/

section

variable {s : State} {o : Bool × Bool} {k : DagKind} {n x : RegNum}

theorem dataToDag_of_condX (h : o.1 = true) : dataToDag s o k n x = writeDag s k n (hi32 s.rReg[x]) := by
  simp only [dataToDag, h, if_true]

theorem dataToDag_of_condY (hx : o.1 = false) (hp : s.mode1.peyen = true) (hy : o.2 = true) :
    dataToDag s o k n x = writeDag s k n (hi32 s.sReg[x]) := by
  simp [dataToDag, hx, hp, hy]

/-- With neither element contributing a value the destination is not written (R117). -/
theorem dataToDag_of_neither (hx : o.1 = false) (h : s.mode1.peyen = false ∨ o.2 = false) : dataToDag s o k n x = s := by
  rcases h with h | h <;> simp [dataToDag, hx, h]

theorem dagToDag_of_condX {v : Word} (h : o.1 = true) : dagToDag s o k n v = writeDag s k n v := by
  simp only [dagToDag, h, if_true]

theorem dagToDag_of_not_condX {v : Word} (h : o.1 = false) : dagToDag s o k n v = s := by
  simp [dagToDag, h]

/-- PEx's destination takes the value as condX says (R114, R116). -/
theorem dagToData_rReg (v : Word) : (dagToData s o x v).rReg[x] = if o.1 = true then widen v else s.rReg[x] := by
  cases hx : o.1 <;> cases hy : s.mode1.peyen && o.2 <;> simp [dagToData, writeAll, writeData, hx, hy]

/-- PEy's destination takes the value as condY says, in SIMD mode alone (R116). -/
theorem dagToData_sReg (v : Word) :
    (dagToData s o x v).sReg[x] = if s.mode1.peyen = true ∧ o.2 = true then widen v else s.sReg[x] := by
  simp only [← Bool.and_eq_true]
  cases hx : o.1 <;> cases hy : s.mode1.peyen && o.2 <;> simp [dagToData, writeAll, writeData, hx, hy]

end

/-! ## The frame of a move -/

/-- What the transfer of a move writes: nothing, or the DAG register named, or the data register named of either element. -/
theorem moveEffect_writes {s u : State} {o : Bool × Bool} {dst src : Ureg} (h : moveEffect s o dst src = .next u) :
    u = s ∨ (∃ k n v, dst = .dag k n ∧ u = writeDag s k n v) ∨
      ∃ x ws, dst = .data (.r x) ∧ (∀ d v, (d, v) ∈ ws → d = .r x ∨ d = .s x) ∧ u = writeAll s ws := by
  rcases moveEffect_next h with ⟨k, n, j, m, rfl, -, rfl⟩ | ⟨k, n, x, rfl, -, rfl⟩ | ⟨k, n, x, rfl, -, rfl⟩
  · unfold dagToDag
    split
    · exact .inr (.inl ⟨k, n, _, rfl, rfl⟩)
    · exact .inl rfl
  · unfold dataToDag
    split
    · exact .inr (.inl ⟨k, n, _, rfl, rfl⟩)
    · split
      · exact .inr (.inl ⟨k, n, _, rfl, rfl⟩)
      · exact .inl rfl
  · refine .inr (.inr ⟨x, _, rfl, fun d v hd => ?_, rfl⟩)
    rcases List.mem_append.mp hd with hd | hd
    · split at hd
      · exact .inl (Prod.ext_iff.mp (List.mem_singleton.mp hd)).1
      · cases hd
    · split at hd
      · exact .inr (Prod.ext_iff.mp (List.mem_singleton.mp hd)).1
      · cases hd

theorem readDag_popCond (s : State) (c : Option Cond) (k : DagKind) (n : RegNum) :
    readDag (popCond s c) k n = readDag s k n :=
  readDag_congr (popCond_iReg s c) (popCond_mReg s c) (popCond_lReg s c) (popCond_bReg s c) k n

theorem readData_popCond (s : State) (c : Option Cond) (d : DataReg) : readData (popCond s c) d = readData s d :=
  readData_congr (popCond_rReg s c) (popCond_sReg s c) d

/-- The outcome of a condition does not rest on the modes. -/
theorem condOutcome_withMode (s : State) (md : Mode1) (c : Option Cond) :
    condOutcome { s with mode1 := md } c = condOutcome s c := by
  cases c <;> rfl

/-- A register move answers its transfer, at the next statement. -/
theorem exec_uregMove_eq (s : State) (c : Option Cond) (dst src : Ureg) :
    exec (.uregMove c dst src) s =
      andThen (moveEffect (popCond s c) (condOutcome s c) dst src) fun u => .next (advance u) := rfl

section

variable {s t : State} {c : Option Cond} {dst src : Ureg}

theorem exec_uregMove_next (h : exec (.uregMove c dst src) s = .next t) :
    ∃ u, moveEffect (popCond s c) (condOutcome s c) dst src = .next u ∧ t = advance u := by
  rw [exec_uregMove_eq, andThen_next] at h
  obtain ⟨u, hu, ⟨⟩⟩ := h
  exact ⟨u, hu, rfl⟩

theorem exec_uregMove_pc (h : exec (.uregMove c dst src) s = .next t) : t.pc = s.pc + 1 := by
  obtain ⟨u, hu, rfl⟩ := execUregMove_advancesFrom h
  exact congrArg (· + 1) hu.pc

/-- A move changes no DAG register but the one it names, and for a B register the I register (R19, R117, R118). -/
theorem exec_uregMove_sameDagBut (h : exec (.uregMove c dst src) s = .next t) :
    SameDagBut s t fun j q => ∃ k, dst = .dag k q ∧ (j = k ∨ (k = .b ∧ j = .i)) := by
  obtain ⟨u, hu, rfl⟩ := exec_uregMove_next h
  intro j q
  rw [readDag_advance, ← readDag_popCond s c]
  rcases moveEffect_writes hu with rfl | ⟨k, n, v, rfl, rfl⟩ | ⟨x, ws, -, -, rfl⟩
  · exact .inr rfl
  · refine (writeDag_sameDagBut _ k n v j q).imp_left ?_
    rintro ⟨rfl, hj⟩
    exact ⟨k, rfl, hj⟩
  · exact .inr (readDag_congr (writeAll_iReg _ ws) (writeAll_mReg _ ws) (writeAll_lReg _ ws) (writeAll_bReg _ ws) j q)

/-- A move to K[n] changes no DAG register but K[n], and for a B register I[n]. -/
theorem exec_uregMove_dag_sameDagBut {k : DagKind} {n : RegNum} (h : exec (.uregMove c (.dag k n) src) s = .next t) :
    SameDagBut s t fun j q => q = n ∧ (j = k ∨ (k = .b ∧ j = .i)) := by
  refine (exec_uregMove_sameDagBut h).mono ?_
  rintro j q ⟨k, ⟨⟩, hj⟩
  exact ⟨rfl, hj⟩

/-- A move changes no data register but the one of the number it names, in either element (R114, R116). -/
theorem exec_uregMove_sameDataBut (h : exec (.uregMove c dst src) s = .next t) :
    SameDataBut s t fun d => ∃ x, dst = .data (.r x) ∧ (d = .r x ∨ d = .s x) := by
  obtain ⟨u, hu, rfl⟩ := exec_uregMove_next h
  intro d
  rw [readData_advance, ← readData_popCond s c]
  rcases moveEffect_writes hu with rfl | ⟨k, n, v, -, rfl⟩ | ⟨x, ws, rfl, hws, rfl⟩
  · exact .inr rfl
  · exact .inr (readData_congr (writeDag_rReg _ k n v) (writeDag_sReg _ k n v) d)
  · by_cases hd : d = .r x ∨ d = .s x
    · exact .inl ⟨x, rfl, hd⟩
    · exact .inr (readData_writeAll_of_not_mem fun v hv => hd (hws d v hv))

/-- A move that names no data register as its destination changes none. -/
theorem exec_uregMove_data_kept (h : exec (.uregMove c dst src) s = .next t) (hd : ∀ d, dst ≠ .data d) :
    SameDataBut s t fun _ => False :=
  fun d => (exec_uregMove_sameDataBut h d).imp_left fun ⟨x, hx, _⟩ => hd (.r x) hx

/-- A move that names no DAG register as its destination changes none. -/
theorem exec_uregMove_dag_kept (h : exec (.uregMove c dst src) s = .next t) (hd : ∀ k n, dst ≠ .dag k n) :
    SameDagBut s t fun _ _ => False :=
  (exec_uregMove_sameDagBut h).mono fun _ n ⟨k, hk, _⟩ => hd k n hk

/-- A move updates no index register by an address, so it reports no wrap (R99). -/
theorem exec_uregMove_sameOverflow (h : exec (.uregMove c dst src) s = .next t) : SameOverflow s t fun _ => False :=
  (exec_reportsWrapOf h).frame.mono nofun

theorem exec_uregMove_mem (h : exec (.uregMove c dst src) s = .next t) : t.mem = s.mem := by
  obtain ⟨u, hu, rfl⟩ := exec_uregMove_next h
  exact (moveEffect_mem hu).trans (popCond_mem s c)

/-- A move with no condition uses up no input and draws no free value. -/
theorem exec_uregMove_none_inputs (h : exec (.uregMove none dst src) s = .next t) :
    t.condIn = s.condIn ∧ t.draws = s.draws := by
  obtain ⟨u, hu, rfl⟩ := exec_uregMove_next h
  rcases moveEffect_writes hu with rfl | ⟨k, n, v, -, rfl⟩ | ⟨x, ws, -, -, rfl⟩
  · exact ⟨rfl, rfl⟩
  · exact ⟨writeDag_condIn s k n v, writeDag_draws s k n v⟩
  · exact ⟨writeAll_condIn s ws, writeAll_draws s ws⟩

end

/-- A move between DAG registers completes, writes the source where condX holds and nothing where it does not, and leaves
everything else; nothing of it reads SIMD mode (R118). -/
theorem exec_dagToDag (s : State) (c : Option Cond) (k : DagKind) (n : RegNum) (j : DagKind) (q : RegNum) :
    ∃ t, exec (.uregMove c (.dag k n) (.dag j q)) s = .next t ∧ t.pc = s.pc + 1 ∧
      ((condOutcome s c).1 = true → readDag t k n = readDag s j q ∧ (k = .b → readDag t .i n = readDag s j q)) ∧
      ((condOutcome s c).1 = false → SameDagBut s t fun _ _ => False) ∧
      (SameDagBut s t fun h p => p = n ∧ (h = k ∨ (k = .b ∧ h = .i))) ∧ SameDataBut s t fun _ => False := by
  have hi : exec (.uregMove c (.dag k n) (.dag j q)) s =
      .next (advance (dagToDag (popCond s c) (condOutcome s c) k n (readDag (popCond s c) j q))) := rfl
  refine ⟨_, hi, exec_uregMove_pc hi, fun hx => ?_, fun hx h p => .inr ?_, exec_uregMove_dag_sameDagBut hi,
    exec_uregMove_data_kept hi nofun⟩
  · rw [dagToDag_of_condX hx, readDag_popCond]
    exact readDag_writeDag_written (popCond s c) k n _
  · rw [dagToDag_of_not_condX hx]
    exact readDag_popCond s c h p

end Sys2Proof.Machine

namespace Sys2Proof.Proofs

open Sys2Proof.Machine

/-- Settles O27: the low 32 bits of a 32-bit word are the whole word, and the stored value is the register. -/
theorem normalWordDagTransfer : Obligations.NormalWordDagTransfer := by
  refine ⟨fun s mode k n bus ia m i a s1 pl v h hc => ?_, fun s mode k n bus ia m i a s1 pl h hc => ?_⟩
  · obtain ⟨t, hi, hpc, hnamed, -, hindex, hoverflow⟩ := h.dag_completes
    have hv : v < 2 ^ 32 := by simpa [placeBytes, hc, wordBytes] using readBytes_lt h.written
    have hwhole : dagValue .normal32 v = v := Nat.mod_eq_of_lt hv
    rw [hc, hwhole] at hnamed
    exact ⟨t, hi, hpc, hnamed, hindex, hoverflow⟩
  · simpa only [placeBytes, hc, wordBytes, storedValue] using storeWritesWord _ _ _ _ _ _ _ _ _ _ h

/-- Settles O28: the register is bits 39:8 of the word, and the stored value has zeros below it. -/
theorem extendedWordDagTransfer : Obligations.ExtendedWordDagTransfer := by
  refine ⟨fun s mode k n bus ia m i a s1 pl v h hc => ?_, fun s mode k n bus ia m i a s1 pl h hc => ?_⟩
  · obtain ⟨t, hi, hpc, hnamed, -, hindex, hoverflow⟩ := h.dag_completes
    rw [hc] at hnamed
    exact ⟨t, hi, hpc, hnamed, hindex, hoverflow⟩
  · simpa only [placeBytes, hc, wordBytes, storedValue, Nat.reducePow] using storeWritesWord _ _ _ _ _ _ _ _ _ _ h

/-- Settles O29: the register is the lower half of the word and its pair partner the upper half, both ways. -/
theorem longWordDagTransfer : Obligations.LongWordDagTransfer := by
  refine ⟨fun s mode k n bus ia m i a s1 pl v h hc => ?_, fun s mode k n bus ia m i a s1 pl h hc => ?_⟩
  · obtain ⟨t, hi, hpc, hnamed, hpartner, hindex, hoverflow⟩ := h.dag_completes
    rw [hc] at hnamed
    exact ⟨t, hi, hpc, hnamed, hpartner hc, hindex, hoverflow⟩
  · simpa only [placeBytes, hc, wordBytes, storedValue] using storeWritesWord _ _ _ _ _ _ _ _ _ _ h

/-- Settles O31: after the address output a load draws at most, and writes its destination registers. -/
theorem loadIntoDagFrame : Obligations.LoadIntoDagFrame := by
  intro s t mode k n bus ia m i a s1 hload haddr hi
  obtain ⟨hdata, hdag⟩ := exec_isLoad_dag_registers hload haddr hi
  have hk := addressOutput_kept haddr
  obtain ⟨-, pl, v, s2, -, hread, rfl⟩ := exec_isLoad_next hload haddr hi
  obtain ⟨d, rfl⟩ := memRead_kept hread
  refine ⟨hdata, hdag, ?_, (addressOutput_sameOverflow haddr).trans_eq ?_, ?_, ?_, ?_⟩
  · simp [SameModes, hk.mode1, hk.mmaskCbufen, hk.stkyy]
  · simp [OverflowOf]
  · simp [SameMemory, hk.mem]
  · simp [SameEnvironment, hk.program, hk.platform, hk.events]
  · simp [hk.condIn]

/-- Settles O48: an immediate load is a write of one DAG register, or is refused. -/
theorem loadImmediate : Obligations.LoadImmediate := by
  refine fun s k n imm => ⟨fun hfits => ?_, execDagregLoadImm_of_wide⟩
  have hk := writeDag_keptByEffect s k n (immWord imm)
  obtain ⟨hnamed, hindex⟩ := readDag_writeDag_written s k n (immWord imm)
  exact ⟨_, execDagregLoadImm_of_fits hfits, hnamed, hindex, congrArg (· + 1) hk.pc,
    (writeDag_sameDagBut s k n _).trans_eq fun _ _ => rfl, fun d => .inr (readData_congr (by simp) (by simp) d),
    ⟨hk.mode1, hk.mmaskCbufen, hk.stkyy⟩, (OverflowOf.reportsWrapOf (by simp [OverflowOf]) _).frame, fun q => by simp,
    ⟨hk.program, hk.platform, hk.events⟩, by simp, by simp⟩

/-- Settles O49, by which element contributes the value. -/
theorem moveDataToDag : Obligations.MoveDataToDag := by
  intro s c k n x
  have hi : exec (.uregMove c (.dag k n) (.data (.r x))) s =
      .next (advance (dataToDag (popCond s c) (condOutcome s c) k n x)) := rfl
  refine ⟨_, hi, exec_uregMove_pc hi, fun hx => ?_, fun hx hp hy => ?_, fun hx hn j q => .inr ?_,
    exec_uregMove_dag_sameDagBut hi, ?_, exec_uregMove_sameOverflow hi⟩
  · rw [dataToDag_of_condX hx, popCond_rReg]
    exact readDag_writeDag_written (popCond s c) k n _
  · rw [dataToDag_of_condY hx (by rwa [popCond_mode1]) hy, popCond_sReg]
    exact readDag_writeDag_written (popCond s c) k n _
  · rw [dataToDag_of_neither hx (by rwa [popCond_mode1])]
    exact readDag_popCond s c j q
  · rintro rfl
    rfl

/-- Settles O50: each element's register takes the value as its own condition says. -/
theorem moveDagToData : Obligations.MoveDagToData := by
  intro s c k n x
  have hi : exec (.uregMove c (.data (.r x)) (.dag k n)) s =
      .next (advance (dagToData (popCond s c) (condOutcome s c) x (readDag (popCond s c) k n))) := rfl
  refine ⟨_, hi, exec_uregMove_pc hi, ?_, ?_, fun d => ?_, exec_uregMove_dag_kept hi nofun⟩
  · rw [advance_rReg, dagToData_rReg, readDag_popCond, popCond_rReg]
  · rw [advance_sReg, dagToData_sReg, readDag_popCond, popCond_mode1, popCond_sReg]
  · refine (exec_uregMove_sameDataBut hi d).imp_left ?_
    rintro ⟨y, ⟨⟩, hd⟩
    exact hd

/-- Settles O51: the move between DAG registers, in the state with SIMD mode at either value. -/
theorem moveDagToDag : Obligations.MoveDagToDag := by
  intro s c k n j q pe
  have h := exec_dagToDag { s with mode1 := { s.mode1 with peyen := pe } } c k n j q
  rw [condOutcome_withMode] at h
  exact h

/-- Settles O52: the transfer of a move writes registers alone, and only those of the kind its destination names. -/
theorem moveFrame : Obligations.MoveFrame := by
  intro s t c dst src hi
  obtain ⟨u, hk, rfl⟩ := execUregMove_advancesFrom hi
  refine ⟨⟨hk.mode1, hk.mmaskCbufen, hk.stkyy⟩, exec_uregMove_sameOverflow hi, fun q => ?_,
    ⟨hk.program, hk.platform, hk.events⟩, ?_, exec_uregMove_dag_kept hi, exec_uregMove_data_kept hi⟩
  · rw [exec_uregMove_mem hi]
  · rintro rfl
    exact exec_uregMove_none_inputs hi

end Sys2Proof.Proofs
end

section
/-! Proofs of the family 60_exceptions.md: which interrupt arrives before an instruction, and what its entry does. -/

namespace Sys2Proof.Machine

/-! ## Arrival -/

theorem allowed_of_interrupts {s : State} (hp : s.platform.interrupts = true) (e : Option IrqKind) : allowed s e = e :=
  if_pos hp

theorem allowed_of_not_interrupts {s : State} (hp : s.platform.interrupts = false) (e : Option IrqKind) :
    allowed s e = none :=
  if_neg (by simp [hp])

/-- The head of the schedule says what arrives, where the platform allows interrupts (R125). -/
theorem arriving_cons {s : State} {e : Option IrqKind} {es : List (Option IrqKind)} (he : s.events = e :: es) :
    arriving s = allowed s e := by
  cases e with
  | none => simp [arriving, he, allowed]
  | some kind => simp only [arriving, he]

theorem arriving_nil {s : State} (he : s.events = []) : arriving s = allowed s (Config.freeArrival s.draws) := by
  simp only [arriving, he]

/-- With an interrupt arriving a step is its entry, and no statement runs (R125). -/
theorem step_eq_irqEntry {s : State} {kind : IrqKind} (ha : arriving s = some kind) :
    step s = .next (irqEntry kind (popEvent s)) := by
  simp only [step, stepWith, ha]

/-! ## Entry -/

theorem maskedCbufen_of_masked {s : State} (hm : s.mmaskCbufen = true) : maskedCbufen s = false := by
  simp [maskedCbufen, hm]

theorem maskedCbufen_of_not_masked {s : State} (hm : s.mmaskCbufen = false) : maskedCbufen s = s.mode1.cbufen := by
  simp [maskedCbufen, hm]

/-- The entry of an external, timer or vectored interrupt clears CBUFEN under its mask bit, as PUSH STS does (R126). -/
theorem irqEntry_of_ne_other {kind : IrqKind} (hk : kind ≠ .other) (s : State) :
    irqEntry kind s = pushMode s (maskedCbufen s) := by
  cases kind with
  | other => exact absurd rfl hk
  | _ => rfl

theorem irqEntry_other_of_masked {s : State} (hm : s.mmaskCbufen = true) :
    irqEntry .other s = pushMode s (keepOrClear s 5 s.mode1.cbufen) := by
  simp only [irqEntry, hm, if_true]

/-- With MMASK.CBUFEN clear every interrupt's entry keeps CBUFEN (R126). -/
theorem irqEntry_of_not_masked {s : State} (hm : s.mmaskCbufen = false) (kind : IrqKind) :
    irqEntry kind s = pushMode s s.mode1.cbufen := by
  by_cases hk : kind = .other
  · subst hk
    simp [irqEntry, hm]
  · rw [irqEntry_of_ne_other hk, maskedCbufen_of_not_masked hm]

/-- Whatever interrupt is entered, its entry is a push of the status. -/
theorem irqEntry_eq_pushMode (kind : IrqKind) (s : State) : ∃ cb, irqEntry kind s = pushMode s cb := by
  cases kind <;> exact ⟨_, rfl⟩

end Sys2Proof.Machine

namespace Sys2Proof.Proofs

open Sys2Proof.Machine

/-- Settles O46: by MMASK.CBUFEN and the kind of interrupt for CBUFEN itself; for the rest, entry is a status push. -/
theorem interruptEntryClearsCbufen : Obligations.InterruptEntryClearsCbufen := by
  intro s kind
  refine ⟨fun hm hk => ?_, fun hm hk => ?_, fun hm => ?_, ?_⟩
  · rw [irqEntry_of_ne_other hk, maskedCbufen_of_masked hm]
    rfl
  · rw [hk, irqEntry_other_of_masked hm]
    exact keepOrClear_cases s 5 _
  · rw [irqEntry_of_not_masked hm]
    rfl
  · obtain ⟨cb, he⟩ := irqEntry_eq_pushMode kind s
    rw [he]
    exact ⟨pushMode_keptOrCleared s cb, fun _ _ => .inr rfl, fun _ => .inr rfl, rfl, rfl,
      ⟨.inr ⟨rfl, rfl⟩, .inr ⟨rfl, rfl⟩⟩, fun _ => rfl, ⟨rfl, rfl, rfl⟩, rfl, rfl⟩

/-- Settles O6, by the head of the schedule and by whether the platform lets interrupts occur. -/
theorem stepEntersInterrupt : Obligations.StepEntersInterrupt := by
  refine fun s => ⟨fun kind ha => ⟨step_eq_irqEntry ha, ?_⟩, fun e es hp he => ?_, fun hp he => ?_, fun hp => ?_⟩
  · rw [irqEntry_pc, popEvent_pc]
  · rw [arriving_cons he, allowed_of_interrupts hp]
  · rw [arriving_nil he, allowed_of_interrupts hp]
  · cases he : s.events with
    | nil => rw [arriving_nil he, allowed_of_not_interrupts hp]
    | cons e es => rw [arriving_cons he, allowed_of_not_interrupts hp]

end Sys2Proof.Proofs
end

section
/-! Proofs of the family 70_reset_and_hazards.md: the broadcast bits after chip reset, and the refusal of restriction
class 2. -/

namespace Sys2Proof.Machine

/-! ## Restriction class 2 -/

section
variable {s : State} {bus : Bus} {ia n : RegNum}

theorem ofDagOf_dag (h : dagOf n = dagOf ia) (k : DagKind) : ofDagOf ia (.dag k n) = true :=
  decide_eq_true h

/-- Shape (b): a post-modify load of a register of the DAG that computes the address (R141). -/
theorem loadGuard_post_of_ownDag (h : dagOf n = dagOf ia) (k : DagKind) (hp : s.mode1.peyen = false) :
    loadGuard s .post bus ia (.dag k n) = .refused .hazardClass2 := by
  simp only [loadGuard, hp, isGiven, updates, ofDagOf_dag h k, Bool.and_self, Bool.not_false, Bool.not_true, require_true,
    require_false, andThen_of_next, andThen_of_refused]

/-- Shape (a): a store of a register of the DAG that computes the address, whether or not it updates the index (R141). -/
theorem storeGuard_of_ownDag (h : dagOf n = dagOf ia) (k : DagKind) (hp : s.mode1.peyen = false) :
    storeGuard s ia (.dag k n) = .refused .hazardClass2 := by
  simp only [storeGuard, hp, isGiven, ofDagOf_dag h k, Bool.not_false, Bool.not_true, require_true, require_false,
    andThen_of_next]

end

end Sys2Proof.Machine

namespace Sys2Proof.Proofs

open Sys2Proof.Machine

/-- Settles O57: each shape fails the check its form makes before the address is put out. -/
theorem hazardClass2Refused : Obligations.HazardClass2Refused := by
  intro s mode bus ia m i k n hp hown
  exact ⟨fun hstore => exec_isStore_of_guard_refused hstore (storeGuard_of_ownDag hown k hp),
    fun hload => exec_isLoad_of_guard_refused hload (loadGuard_post_of_ownDag hown k hp)⟩

/-- Settles O7: the reset state writes both bits out as clear (R135). -/
theorem resetClearsBroadcast : Obligations.ResetClearsBroadcast :=
  ⟨rfl, rfl⟩

end Sys2Proof.Proofs
end

section

/-! ## Memory after reset -/

namespace Sys2Proof.Machine

/-- Reset lists no written byte (log entry 6). -/
@[simp] theorem reset_mem : State.reset.mem = [] :=
  rfl

@[simp] theorem readByte_nil (k : Nat) : readByte [] k = none :=
  rfl

end Sys2Proof.Machine

namespace Sys2Proof.Proofs

open Sys2Proof.Machine

/-- Settles O8: reset lists no byte, the empty list has no two addresses out of order, and a read of it finds no value. -/
theorem resetMemoryCanonical : Obligations.ResetMemoryCanonical := by
  rw [Obligations.ResetMemoryCanonical, reset_mem]
  exact ⟨List.Pairwise.nil, readByte_nil⟩

end Sys2Proof.Proofs
end
